-- ==== Sys2Proof/Word.lean ====
section
/-! DEFINITION. The widths of LAME-CORE's values (spec/00_scope.md R7, R9; spec/20_memory.md R60, R61). -/

namespace Sys2Proof

/-- A 32-bit word: a register, a DMEM word, a command word, a binary32 datum (R9). -/
abbrev Word := BitVec 32

/-- One byte lane of a word (R62). -/
abbrev Byte := BitVec 8

/-- A byte offset in the 16 KiB host window (R61). -/
abbrev Offset := BitVec 14

/-- A DMEM word address as SRC_BASE and DST_BASE hold it (R29, R60). -/
abbrev WordAddr := BitVec 11

end Sys2Proof
end

