-- ==== Sys2Proof/Config.lean ====
section
/-! DEFINITION. The fixed parameters of LAME-CORE, its open platform parameters, and the free
values (spec/00_scope.md R7). -/

namespace Sys2Proof.Config

/-- DMEM_WORDS (R7, R60). -/
def dmemWords : Nat := 2048

/-- The window offset of DMEM word 0 (R23, R60). -/
def dmemBase : Nat := 0x2000

/-- The size of the host window in bytes (R7, R61). -/
def windowBytes : Nat := 0x4000

/-- FREE VALUE. The words an aborted command's footprint takes; draw number `k` is `abortWord k`
(spec/70_reset_and_hazards.md R263, "any value"; log entry 3). -/
opaque abortWord : Nat → Word

/-- FREE VALUE. DMEM_INIT: the words DMEM takes at a hardware reset; draw number `k` is
`dmemInit k` (R7, R261; log entry 4). -/
opaque dmemInit : Nat → Word

/-- OPEN parameter: LATENCY(cmd) less one, a function of OPC and ARG alone (R7, R273). -/
opaque latencyLessOne : BitVec 4 → BitVec 10 → Nat

/-- OPEN parameter: which 16 KiB frame of the host's address space the window fills (R7, R66). -/
opaque baseFrame : Nat

/-- OPEN parameter: the interrupt controller input that IRQ drives (R7, R232). -/
opaque irqLine : Nat

/-- BASE_ADDR, 16 KiB aligned (R66). -/
def baseAddr : Nat := baseFrame * windowBytes

end Sys2Proof.Config
end

