-- ==== Sys2Proof/Machine/State.lean ====
section
/-! DEFINITION. The state of LAME-CORE as plain data (spec/10_state.md R20 to R39;
spec/20_memory.md R60; spec/70_reset_and_hazards.md R261), and the reasons a step can stop. -/

namespace Sys2Proof.Machine

/-- DMEM as bytes keyed by their offset in the host window (R60, R62): `Memory.wf` in
Sys2Proof/Safety.lean is its canonical form. -/
abbrev Memory := List Host.Cell

/-- What a DMEM byte that nothing has written reads as (DESIGN CHOICE, log entry 2). -/
def Memory.unlisted : Byte := 0#8

/-- Causes of a rejected command (spec/60_exceptions.md R221). -/
inductive CmdCause where
  | eBusy
  | eOpcode
  | eRsvd
  | eArg
  | eRange
  | eOverlap
deriving DecidableEq, Repr

/-- Causes of a refused host access (R231). -/
inductive AccCause where
  | misaligned
  | narrow
  | dmemBusy
deriving DecidableEq, Repr

/-- One host bus transaction (spec/30_encoding.md R99): direction, byte offset, byte enables, and
for a write its data. -/
inductive Access where
  | read (offset : Offset) (be : BitVec 4)
  | write (offset : Offset) (be : BitVec 4) (wdata : Word)
deriving DecidableEq, Repr

/-- One step of a run (spec/20_memory.md R68; spec/70_reset_and_hazards.md R260): a host access,
the engine's turn, or the reset input. -/
inductive Move where
  /-- The host performs one bus transaction (R110). -/
  | host (a : Access)
  /-- The engine's turn: its completion step if a command is in flight (R122). -/
  | engine
  /-- The platform asserts the block's reset input (R260, R261). -/
  | hardReset
deriving DecidableEq, Repr

/-- The state of the block, the bus and the order of the agents' steps.
The engine's lanes, sequencer and rotation registers exist only within the completion step
(R36, R261) and are local to it. -/
structure State where
  /-- CTRL.IRQ_EN (R25). -/
  irqEn : Bool
  /-- STATUS.BUSY (R26). -/
  busy : Bool
  /-- STATUS.DONE (R26). -/
  done : Bool
  /-- STATUS.ERR (R26). -/
  err : Bool
  /-- STATUS.ACCERR (R26). -/
  accErr : Bool
  /-- STATUS.ERRCODE (R26). -/
  errCode : BitVec 4
  /-- SRC_BASE (R29). -/
  srcBase : WordAddr
  /-- DST_BASE (R29). -/
  dstBase : WordAddr
  /-- SUM (R27). -/
  sum : Word
  /-- MAX (R27). -/
  max : Word
  /-- LASTCMD, read at CMD (R28). -/
  lastCmd : Word
  /-- ERRCMD (R30). -/
  errCmd : Word
  /-- ACCINFO (R31). -/
  accInfo : Word
  /-- LCMD, the accepted command word (R36). -/
  lcmd : Word
  /-- LSRC, SRC_BASE latched at acceptance (R36). -/
  lsrc : WordAddr
  /-- LDST, DST_BASE latched at acceptance (R36). -/
  ldst : WordAddr
  /-- DMEM (R60). -/
  dmem : Memory
  /-- The model's own: what the last host read returned (`rdata`, R99; log entry 5). -/
  rdata : Word
  /-- The model's own: the steps still to come, in their one total order (R68; log entry 1). -/
  agenda : List Move
  /-- The model's own: how many free values have been drawn (log entries 3, 4). -/
  draws : Nat
deriving DecidableEq, Repr

/-- Reasons a step stops with a fault. The spec gives LAME-CORE no halt (R275); this one stands
for a state that no acceptance produces. -/
inductive Fault where
  /-- Raised by the engine's turn when BUSY = 1 and LCMD decodes to no command: R122 says
  acceptance admits nothing else. Safe: the model stops. -/
  | undecodableCommand
deriving DecidableEq, Repr

/-- Reasons a step has no meaning. -/
inductive Refusal where
  /-- Raised by an arm of `exec` whose instruction has no meaning yet. Safe: the model stops. -/
  | notModelled (mnemonic : String)
deriving DecidableEq, Repr

/-- The machine right after reset (R261), with no host access waiting. -/
def State.reset : State where
  irqEn := false
  busy := false
  done := false
  err := false
  accErr := false
  errCode := 0#4
  srcBase := 0#11
  dstBase := 0#11
  sum := 0x00000000#32
  max := 0x00000000#32
  lastCmd := 0x00000000#32
  errCmd := 0x00000000#32
  accInfo := 0x00000000#32
  lcmd := 0x00000000#32
  lsrc := 0#11
  ldst := 0#11
  dmem := []
  rdata := 0x00000000#32
  agenda := []
  draws := 0

end Sys2Proof.Machine
end

