-- ==== Sys2Proof/Machine/Flags.lean ====
section
/-! DEFINITION. The status flags and the words that report them (spec/10_state.md R25, R26, R31,
R35, R37; spec/60_exceptions.md R221, R231). -/

namespace Sys2Proof.Machine

/-- The cause code of a command fault (R221). -/
def cmdCode : CmdCause → BitVec 4
  | .eBusy => 1#4
  | .eOpcode => 2#4
  | .eRsvd => 3#4
  | .eArg => 4#4
  | .eRange => 5#4
  | .eOverlap => 6#4

/-- The cause code of an access fault (R231). -/
def accCode : AccCause → BitVec 2
  | .misaligned => 1#2
  | .narrow => 2#2
  | .dmemBusy => 3#2

/-- ACCINFO: CAUSE in bits 17:16, WR in bit 14, OFFSET in bits 13:0 (R31, R230). -/
def accInfoWord (c : AccCause) (offset : Offset) (wr : Bool) : Word :=
  0#14 ++ accCode c ++ 0#1 ++ BitVec.ofBool wr ++ offset

/-- STATUS as a read returns it (R26, R112). -/
def statusWord (s : State) : Word :=
  0#20 ++ s.errCode ++ 0#4 ++ BitVec.ofBool s.accErr ++ BitVec.ofBool s.err
    ++ BitVec.ofBool s.done ++ BitVec.ofBool s.busy

/-- CTRL as a read returns it: SRST reads 0 (R25, R112). -/
def ctrlWord (s : State) : Word := 0#31 ++ BitVec.ofBool s.irqEn

/-- IRQ, a level that is a function of the state (R35, R232). -/
def irq (s : State) : Bool := s.irqEn && (s.done || s.err || s.accErr)

/-- A STATUS write: 1 clears DONE, ERR with its record, ACCERR with its record; every other bit of
the data is ignored (R26, R114). -/
def statusW1C (wdata : Word) (s : State) : State :=
  { s with
    done := s.done && !wdata.getLsbD 1
    err := s.err && !wdata.getLsbD 2
    errCode := if wdata.getLsbD 2 then 0#4 else s.errCode
    errCmd := if wdata.getLsbD 2 then 0#32 else s.errCmd
    accErr := s.accErr && !wdata.getLsbD 3
    accInfo := if wdata.getLsbD 3 then 0#32 else s.accInfo }

end Sys2Proof.Machine
end

