-- ==== Sys2Proof/Syntax.lean ====
section
/-! DEFINITION. The commands of LC1 revision 1 (spec/00_scope.md R2; spec/30_encoding.md R90 to R92). -/

namespace Sys2Proof

/-- The rows of the opcode table. The operand is the ARG field, CMD[13:4], at its full ten bits:
a word selects its row whatever its ARG (R92), and `WellFormed` says which values are legal (R95). -/
inductive Instr where
  /-- NOP (R124). -/
  | nop
  /-- POWLAW: ARG is `max_nz`, the inclusive index of the last coefficient (R91, R150). -/
  | powlaw (maxNz : BitVec 10)
  /-- FHT: ARG is the half-size `n`; the buffer holds `2 * n` words (R91, R180). -/
  | fht (n : BitVec 10)
deriving DecidableEq, Repr

end Sys2Proof
end

