-- ==== Sys2Proof/WellFormed.lean ====
section
/-! DEFINITION. Which argument values are legal (spec/30_encoding.md R92, R95). -/

namespace Sys2Proof

/-- POWLAW's bound: `0 ≤ max_nz ≤ 575` (R95). -/
def legalMaxNz (m : BitVec 10) : Bool := m.toNat ≤ 575

/-- FHT's half-sizes: 8, 32, 128 and 512 (R95; spec/90_conflicts.md C2). -/
def legalHalfSize (n : BitVec 10) : Bool :=
  n.toNat = 8 || n.toNat = 32 || n.toNat = 128 || n.toNat = 512

/-- A command whose argument is legal. -/
def Instr.wf : Instr → Bool
  | .nop => true
  | .powlaw m => legalMaxNz m
  | .fht n => legalHalfSize n

end Sys2Proof
end

