-- ==== Sys2Proof/Decode.lean ====
section
/-! DEFINITION. Decoding a command word, and the encoder written from the same tables
(spec/30_encoding.md R90 to R96). -/

namespace Sys2Proof

/-- Why a word selects no row of the opcode table (R94). -/
inductive DecodeError where
  /-- OPC is 0x3 to 0xF: E_OPCODE. -/
  | opcode
  /-- OPC is 0, 1 or 2, and a bit that must be zero is set: E_RSVD (R93, R94). -/
  | reserved
  /-- Fewer than four bytes: no command word is there (R96). -/
  | truncated
deriving DecidableEq, Repr

/-- OPC, bits 3:0 (R90). -/
def opcField (w : Word) : BitVec 4 := w.extractLsb' 0 4

/-- ARG, bits 13:4, unsigned (R90, R91). -/
def argField (w : Word) : BitVec 10 := w.extractLsb' 4 10

/-- RSVD, bits 31:14 (R90). -/
def rsvdField (w : Word) : BitVec 18 := w.extractLsb' 14 18

/-- The match column of R92. -/
def Instr.matchWord : Instr → Word
  | .nop => 0x00000000#32
  | .powlaw _ => 0x00000001#32
  | .fht _ => 0x00000002#32

/-- The mask column of R92. -/
def Instr.maskWord : Instr → Word
  | .nop => 0xFFFFFFFF#32
  | .powlaw _ => 0xFFFFC00F#32
  | .fht _ => 0xFFFFC00F#32

/-- A word selects a row when `(w AND mask) = match` (R92). -/
def selects (w : Word) (i : Instr) : Bool := w &&& i.maskWord == i.matchWord

/-- Decoding one command word. A word that selects no row is E_OPCODE when its OPC is illegal and
E_RSVD otherwise (R92 to R94); the argument's legality is checked later, at issue (R95). -/
def decodeWord (w : Word) : Except DecodeError Instr :=
  if selects w .nop then .ok .nop
  else if selects w (.powlaw (argField w)) then .ok (.powlaw (argField w))
  else if selects w (.fht (argField w)) then .ok (.fht (argField w))
  else if 2 < (opcField w).toNat then .error .opcode
  else .error .reserved

/-- Four bytes as a word, byte lane `k` in bits `8k+7 .. 8k` (spec/20_memory.md R62). -/
def wordOfBytes (b0 b1 b2 b3 : Byte) : Word := b3 ++ b2 ++ b1 ++ b0

/-- Byte lane `k` of a word (R62). -/
def byteLane (w : Word) (k : Nat) : Byte := w.extractLsb' (8 * k) 8

/-- Decoding from bytes: every command is one 32-bit word (R96). -/
def decodeBytes : List Byte → Except DecodeError (Instr × List Byte)
  | b0 :: b1 :: b2 :: b3 :: rest =>
    match decodeWord (wordOfBytes b0 b1 b2 b3) with
    | .ok i => .ok (i, rest)
    | .error e => .error e
  | _ => .error .truncated

/-- OPC of a command (R92). -/
def Instr.opc : Instr → BitVec 4
  | .nop => 0x0#4
  | .powlaw _ => 0x1#4
  | .fht _ => 0x2#4

/-- ARG of a command (R91). -/
def Instr.arg : Instr → BitVec 10
  | .nop => 0#10
  | .powlaw m => m
  | .fht n => n

/-- The command word, format C: RSVD = 0, then ARG, then OPC (R90). -/
def encode (i : Instr) : Word := 0#18 ++ i.arg ++ i.opc

/-- The four bytes of a command word, lowest address first (R62). -/
def wordBytes (w : Word) : List Byte := [byteLane w 0, byteLane w 1, byteLane w 2, byteLane w 3]

/-- What the decoder reads from an instruction whose bits are `w`, numbered as the opcode table
numbers them. -/
def decodeTableWord (nbits w : Nat) : Option Instr :=
  if nbits ≤ 32 then
    match decodeBytes (wordBytes (BitVec.ofNat 32 (w % 2 ^ nbits))) with
    | .ok (i, _) => some i
    | .error _ => none
  else none

end Sys2Proof
end

