-- ==== Sys2Proof/Machine/Operands.lean ====
section
/-! DEFINITION. A command's operands: its two buffers, the checks on them, and the words it writes
(spec/30_encoding.md R91, R95, R97; spec/70_reset_and_hazards.md R263). -/

namespace Sys2Proof.Machine

/-- FHT's buffer length N = 2n (R91). -/
def fhtLength (n : BitVec 10) : Nat := 2 * n.toNat

/-- POWLAW's checks after the decoding checks, in R97's order: E_ARG, E_RANGE, E_OVERLAP. -/
def powlawCause (m : BitVec 10) (src dst : WordAddr) : Option CmdCause :=
  if 575 < m.toNat then some .eArg
  else if 2047 < src.toNat + m.toNat ∨ 2047 < dst.toNat + m.toNat then some .eRange
  else if src ≠ dst ∧ src.toNat ≤ dst.toNat + m.toNat ∧ dst.toNat ≤ src.toNat + m.toNat
  then some .eOverlap
  else none

/-- FHT's checks after the decoding checks, in R97's order: E_ARG, E_RANGE. -/
def fhtCause (n : BitVec 10) (src : WordAddr) : Option CmdCause :=
  if legalHalfSize n = false then some .eArg
  else if 2047 < src.toNat + 2 * n.toNat - 1 then some .eRange
  else none

/-- The checks on a decoded command's operands (R97). -/
def operandCause (i : Instr) (src dst : WordAddr) : Option CmdCause :=
  match i with
  | .nop => none
  | .powlaw m => powlawCause m src dst
  | .fht n => fhtCause n src

/-- `CheckCommand` (R97): E_BUSY, then the decoding checks, then the operands; `none` is acceptance. -/
def checkCommand (w : Word) (busy : Bool) (src dst : WordAddr) : Option CmdCause :=
  if busy then some .eBusy
  else
    match decodeWord w with
    | .error .opcode => some .eOpcode
    | .error _ => some .eRsvd
    | .ok i => operandCause i src dst

/-- The first DMEM word a command writes and how many (R263). -/
def footprint (i : Instr) (src dst : WordAddr) : Nat × Nat :=
  match i with
  | .nop => (0, 0)
  | .powlaw m => (dst.toNat, m.toNat + 1)
  | .fht n => (src.toNat, fhtLength n)

end Sys2Proof.Machine
end

