-- ==== Sys2Proof/Machine/Ops.lean ====
section
/-! DEFINITION. The named operations over DMEM and the registers: byte and word access, taking a
command fault or an access fault, accepting and finishing a command, and the two resets
(spec/20_memory.md R60 to R64; spec/40_command_control.md R120, R122; spec/60_exceptions.md R222,
R230; spec/70_reset_and_hazards.md R261 to R263). -/

namespace Sys2Proof.Machine

/-! ### DMEM -/

/-- One byte of DMEM by its window offset. -/
def readByte (m : Memory) (a : Nat) : Byte :=
  match m with
  | [] => Memory.unlisted
  | (b, v) :: rest => if b = a then v else readByte rest a

/-- One byte written, keeping the canonical form: addresses rise, and the value that an unlisted
address reads as removes the entry. -/
def writeByte (m : Memory) (a : Nat) (v : Byte) : Memory :=
  match m with
  | [] => if v = Memory.unlisted then [] else [(a, v)]
  | (b, u) :: rest =>
    if b < a then (b, u) :: writeByte rest a v
    else if b = a then (if v = Memory.unlisted then rest else (a, v) :: rest)
    else if v = Memory.unlisted then (b, u) :: rest
    else (a, v) :: (b, u) :: rest

/-- The window offset of byte lane `k` of DMEM word `a` (R60, R62). -/
def byteOffset (a k : Nat) : Nat := Config.dmemBase + 4 * a + k

/-- `DMEM[a]` (R14, R62). -/
def readWord (m : Memory) (a : Nat) : Word :=
  wordOfBytes (readByte m (byteOffset a 0)) (readByte m (byteOffset a 1))
    (readByte m (byteOffset a 2)) (readByte m (byteOffset a 3))

/-- `DMEM[a] <- w` (R14, R62). -/
def writeWord (m : Memory) (a : Nat) (w : Word) : Memory :=
  writeByte (writeByte (writeByte (writeByte m (byteOffset a 0) (byteLane w 0))
    (byteOffset a 1) (byteLane w 1)) (byteOffset a 2) (byteLane w 2)) (byteOffset a 3) (byteLane w 3)

/-- `DMEM[a .. a+n-1]`. -/
def readWords (m : Memory) (a n : Nat) : List Word := (List.range n).map fun i => readWord m (a + i)

/-- Words written upward from `DMEM[a]`. -/
def writeWords (m : Memory) (a : Nat) (ws : List Word) : Memory :=
  match ws with
  | [] => m
  | w :: rest => writeWords (writeWord m a w) (a + 1) rest

/-! ### Taking a fault, the machine's exceptions -/

/-- `CmdFault`: the first rejected command since ERR was last 0 is recorded, and nothing else
changes (R222, R224). -/
def cmdFault (c : CmdCause) (w : Word) (s : State) : State :=
  { s with
    err := true
    errCode := if s.err then s.errCode else cmdCode c
    errCmd := if s.err then s.errCmd else w }

/-- `AccFault`: the first refused access since ACCERR was last 0 is recorded (R230). -/
def accFault (c : AccCause) (offset : Offset) (wr : Bool) (s : State) : State :=
  { s with
    accErr := true
    accInfo := if s.accErr then s.accInfo else accInfoWord c offset wr }

/-! ### A command's life -/

/-- The steps still to come, once one has been taken (R68; log entry 1). -/
def setAgenda (rest : List Move) (s : State) : State := { s with agenda := rest }

/-- Acceptance: the operands are latched, DONE falls and BUSY rises (R120). -/
def acceptCommand (w : Word) (s : State) : State :=
  { s with lcmd := w, lsrc := s.srcBase, ldst := s.dstBase, lastCmd := w, done := false, busy := true }

/-- `IssueCommand`: a write to CMD (R120). -/
def issueCommand (w : Word) (s : State) : State :=
  match checkCommand w s.busy s.srcBase s.dstBase with
  | some c => cmdFault c w s
  | none => acceptCommand w s

/-- The end of every completion: BUSY falls and DONE rises (R122). -/
def finishCommand (s : State) : State := { s with busy := false, done := true }

/-! ### Reset -/

/-- Every register at its reset value (R261, R262); DMEM, the bus and the agenda are not registers. -/
def resetRegisters (s : State) : State :=
  { s with
    irqEn := false, busy := false, done := false, err := false, accErr := false
    errCode := 0#4, srcBase := 0#11, dstBase := 0#11
    sum := 0x00000000#32, max := 0x00000000#32
    lastCmd := 0#32, errCmd := 0#32, accInfo := 0#32
    lcmd := 0#32, lsrc := 0#11, ldst := 0#11 }

/-- `n` fresh free words, from draw `k` on. -/
def drawWords (f : Nat → Word) (k n : Nat) : List Word := (List.range n).map fun i => f (k + i)

/-- The write footprint of the command in flight (R263). -/
def inFlightFootprint (s : State) : Nat × Nat :=
  match decodeWord s.lcmd with
  | .ok i => footprint i s.lsrc s.ldst
  | .error _ => (0, 0)

/-- `AbortCommand`: every word of the write footprint takes an arbitrary value, and no other word
changes (R263). A footprint stays inside DMEM (R97); what would lie past its end is no word. -/
def abortCommand (s : State) : State :=
  { s with
    dmem := writeWords s.dmem (inFlightFootprint s).1
      ((drawWords Config.abortWord s.draws (inFlightFootprint s).2).take
        (Config.dmemWords - (inFlightFootprint s).1))
    draws := s.draws + (inFlightFootprint s).2 }

/-- `SoftReset` (R262). -/
def softReset (s : State) : State := resetRegisters (if s.busy then abortCommand s else s)

/-- Hardware reset: every register at its reset value, and every DMEM word unspecified (R261). -/
def hardReset (s : State) : State :=
  resetRegisters
    { s with
      dmem := writeWords [] 0 (drawWords Config.dmemInit s.draws Config.dmemWords)
      draws := s.draws + Config.dmemWords }

end Sys2Proof.Machine
end

