-- ==== Sys2Proof/Machine/Rom.lean ====
section
/-! DEFINITION. LAME-CORE's constants (spec/10_state.md R24, R32, R33; spec/42_fht.md R183). -/

namespace Sys2Proof.Machine

/-- ID, "LAME" (R24). -/
def idWord : Word := 0x4C414D45#32

/-- VERSION: command-set revision 1 (R24). -/
def versionWord : Word := 0x00000001#32

/-- PARAM: LANES, log2 of DMEM_WORDS, the number of COSTAB pairs (R32). -/
def paramWord : Word := 0x00040B08#32

/-- The COSTAB ROM: cos and sin of π/8, π/32, π/128 and π/512 (R33). -/
def costab : List Word :=
  [0x3F6C835E#32, 0x3EC3EF15#32, 0x3F7EC46D#32, 0x3DC8BD36#32,
   0x3F7FEC43#32, 0x3CC90AB0#32, 0x3F7FFEC4#32, 0x3BC90F88#32]

/-- `COSTAB[k]`. -/
def costabWord (k : Nat) : Word := costab.getD k 0#32

/-- SQRT2 (R183). -/
def sqrt2Word : Word := 0x3FB504F3#32

/-- The binary32 constant 1.0 (R180). -/
def oneWord : Word := 0x3F800000#32

/-- The binary32 constant 2.0 (R180). -/
def twoWord : Word := 0x40000000#32

end Sys2Proof.Machine
end

