-- ==== Sys2Proof/Machine/Bus.lean ====
section
/-! DEFINITION. The host's bus transactions (spec/40_command_control.md R110 to R120). -/

namespace Sys2Proof.Machine

/-- The DMEM word that a window offset at or above 0x2000 reaches (R112, R117). -/
def dmemIndex (offset : Offset) : Nat := (offset.toNat - Config.dmemBase) / 4

/-- `AccessOK`'s verdict: the first refusal that applies, or `none` (R111, R231). -/
def accessCause (offset : Offset) (be : BitVec 4) (busy : Bool) : Option AccCause :=
  if offset.toNat % 4 ≠ 0 then some .misaligned
  else if be ≠ 0b1111#4 then some .narrow
  else if Config.dmemBase ≤ offset.toNat ∧ busy = true then some .dmemBusy
  else none

/-- What a well-formed read of a register or of reserved space returns (R112, R34). -/
def readRegister (offset : Offset) (s : State) : Word :=
  if offset.toNat = 0x000 then idWord
  else if offset.toNat = 0x004 then versionWord
  else if offset.toNat = 0x008 then ctrlWord s
  else if offset.toNat = 0x00C then statusWord s
  else if offset.toNat = 0x010 then s.lastCmd
  else if offset.toNat = 0x014 then s.srcBase.setWidth 32
  else if offset.toNat = 0x018 then s.dstBase.setWidth 32
  else if offset.toNat = 0x01C then s.sum
  else if offset.toNat = 0x020 then s.max
  else if offset.toNat = 0x024 then s.errCmd
  else if offset.toNat = 0x028 then s.accInfo
  else if offset.toNat = 0x02C then paramWord
  else if 0x040 ≤ offset.toNat ∧ offset.toNat ≤ 0x05C then costabWord ((offset.toNat - 0x040) / 4)
  else 0x00000000#32

/-- `HostRead`'s result (R112). -/
def hostReadData (offset : Offset) (be : BitVec 4) (s : State) : Word :=
  match accessCause offset be s.busy with
  | some _ => 0x00000000#32
  | none =>
    if Config.dmemBase ≤ offset.toNat then readWord s.dmem (dmemIndex offset)
    else readRegister offset s

/-- The host receives `data` on the read bus (R99; log entry 5). -/
def respond (data : Word) (s : State) : State := { s with rdata := data }

/-- A refused access is recorded; one that is not refused leaves the record alone (R111, R230). -/
def recordAccess (c : Option AccCause) (offset : Offset) (wr : Bool) (s : State) : State :=
  match c with
  | some c => accFault c offset wr s
  | none => s

/-- `HostRead` (R112). -/
def hostRead (offset : Offset) (be : BitVec 4) (s : State) : State :=
  respond (hostReadData offset be s) (recordAccess (accessCause offset be s.busy) offset false s)

/-- CTRL.IRQ_EN takes bit 0 (R25, R115). -/
def irqEnWrite (wdata : Word) (s : State) : State := { s with irqEn := wdata.getLsbD 0 }

/-- `CtrlWrite`: SRST wins over bit 0 (R115). -/
def ctrlWrite (wdata : Word) (s : State) : State :=
  if wdata.getLsbD 1 then softReset s else irqEnWrite wdata s

/-- A SRC_BASE write (R116). -/
def srcBaseWrite (wdata : Word) (s : State) : State := { s with srcBase := wdata.setWidth 11 }

/-- A DST_BASE write (R116). -/
def dstBaseWrite (wdata : Word) (s : State) : State := { s with dstBase := wdata.setWidth 11 }

/-- A DMEM write (R117). -/
def dmemWrite (a : Nat) (wdata : Word) (s : State) : State := { s with dmem := writeWord s.dmem a wdata }

/-- What a well-formed write of a register does; read-only and reserved offsets ignore it
(R113, R118). -/
def writeRegister (offset : Offset) (wdata : Word) (s : State) : State :=
  if offset.toNat = 0x008 then ctrlWrite wdata s
  else if offset.toNat = 0x00C then statusW1C wdata s
  else if offset.toNat = 0x010 then issueCommand wdata s
  else if offset.toNat = 0x014 then srcBaseWrite wdata s
  else if offset.toNat = 0x018 then dstBaseWrite wdata s
  else s

/-- `HostWrite` (R113). -/
def hostWrite (offset : Offset) (be : BitVec 4) (wdata : Word) (s : State) : State :=
  match accessCause offset be s.busy with
  | some c => accFault c offset true s
  | none =>
    if Config.dmemBase ≤ offset.toNat then dmemWrite (dmemIndex offset) wdata s
    else writeRegister offset wdata s

/-- One host bus transaction: it always completes (R110). -/
def hostAccess (a : Access) (s : State) : State :=
  match a with
  | .read offset be => hostRead offset be s
  | .write offset be wdata => hostWrite offset be wdata s

end Sys2Proof.Machine
end

