-- ==== Sys2Proof/Machine/Control.lean ====
section
/-! DEFINITION. NOP (spec/40_command_control.md R124). -/

namespace Sys2Proof.Machine

/-- NOP's completion step has no effect but BUSY ← 0 and DONE ← 1 (R122, R124). -/
def execNop (s : State) : Host.Outcome State Fault Refusal := .next (finishCommand s)

end Sys2Proof.Machine
end

