-- ==== Sys2Proof/Machine/Float32.lean ====
section
/-! DEFINITION. IEEE 754 binary32 with roundTiesToEven (spec/00_scope.md R9 to R13).

Every finite binary32 value is a whole number of units of 2^-149, so exact sums and products are
integers, and one function, `roundMag`, does all the rounding. -/

namespace Sys2Proof.Machine

/-- QNAN, the one NaN an operation returns (R9, R10). -/
def qnan : Word := 0x7FC00000#32

/-- The exponent and fraction fields, bits 30:0, as a number: it orders magnitudes (R9). -/
def fmag (w : Word) : Nat := w.toNat % 2 ^ 31

/-- The sign, bit 31 (R9). -/
def fneg (w : Word) : Bool := w.msb

/-- The magnitude field of an infinity. -/
def infMag : Nat := 0x7F800000

def isNan (w : Word) : Bool := infMag < fmag w
def isInf (w : Word) : Bool := fmag w = infMag
def isFinite (w : Word) : Bool := fmag w < infMag
def isZero (w : Word) : Bool := fmag w = 0

/-- The value of a finite magnitude field, in units of 2^-149. -/
def magUnits (mag : Nat) : Nat :=
  if mag / 2 ^ 23 = 0 then mag % 2 ^ 23
  else (2 ^ 23 + mag % 2 ^ 23) * 2 ^ (mag / 2 ^ 23 - 1)

/-- The value of a finite word, in units of 2^-149. -/
def fval (w : Word) : Int :=
  if fneg w then -(magUnits (fmag w) : Int) else (magUnits (fmag w) : Int)

/-- How many low bits of `n` the rounding of `n * 2^-(149+j)` drops: the quantum is 2^-149 for
subnormal results and follows the leading bit otherwise. -/
def dropBits (n j : Nat) : Nat := max j (n.log2 - 23)

/-- `n / 2^q`, to nearest, ties to even. -/
def divTiesToEven (n q : Nat) : Nat :=
  if 2 ^ q < 2 * (n % 2 ^ q) ∨ (2 * (n % 2 ^ q) = 2 ^ q ∧ n / 2 ^ q % 2 = 1)
  then n / 2 ^ q + 1 else n / 2 ^ q

/-- The magnitude field nearest to the exact magnitude `n * 2^-(149+j)`, ties to even; overflow
gives infinity, and results below the normal range become subnormal or zero (R10 (a)). -/
@[irreducible] def roundMag (n j : Nat) : Nat :=
  min ((dropBits n j - j) * 2 ^ 23 + divTiesToEven n (dropBits n j)) infMag

/-- The word with a given sign and magnitude field. -/
def fpack (neg : Bool) (mag : Nat) : Word :=
  BitVec.ofNat 32 (if neg then 2 ^ 31 + mag else mag)

/-- Addition of finite words: an exact zero sum is +0 unless both operands are negative (R11). -/
def faddFinite (a b : Word) : Word :=
  if fval a + fval b = 0 then fpack (fneg a && fneg b) 0
  else fpack (fval a + fval b < 0) (roundMag (fval a + fval b).natAbs 0)

/-- `fadd` (R10, R11). -/
@[irreducible] def fadd (a b : Word) : Word :=
  if isNan a || isNan b then qnan
  else if isInf a then (if isInf b && fneg a != fneg b then qnan else a)
  else if isInf b then b
  else faddFinite a b

/-- The word with its sign bit flipped: subtraction adds the negated operand. -/
def fnegate (w : Word) : Word := w ^^^ 0x80000000#32

/-- `fsub` (R10, R11). -/
def fsub (a b : Word) : Word := fadd a (fnegate b)

/-- `fmul` (R10, R11): the sign is the XOR of the signs, and 0 times an infinity is a NaN. -/
@[irreducible] def fmul (a b : Word) : Word :=
  if isNan a || isNan b then qnan
  else if isInf a || isInf b then
    (if isZero a || isZero b then qnan else fpack (fneg a != fneg b) infMag)
  else fpack (fneg a != fneg b) (roundMag (magUnits (fmag a) * magUnits (fmag b)) 149)

/-- The integer square root by bits: bit `b` down to bit 0 is kept when the square still fits. -/
def isqrtFrom (n : Nat) : Nat → Nat → Nat
  | 0, acc => acc
  | b + 1, acc =>
    isqrtFrom n b (if (acc + 2 ^ b) * (acc + 2 ^ b) ≤ n then acc + 2 ^ b else acc)

/-- The integer square root, rounded down. -/
def isqrt (n : Nat) : Nat := isqrtFrom n (n.log2 / 2 + 1) 0

/-- Twice the integer square root, and one more when the root is not exact: enough to round the
true root to nearest. -/
def isqrtSticky (n : Nat) : Nat := 2 * isqrt n + (if isqrt n * isqrt n = n then 0 else 1)

/-- `fsqrt` (R10, R11): √±0 is itself, the root of a negative non-zero number is a NaN. -/
@[irreducible] def fsqrt (a : Word) : Word :=
  if isNan a then qnan
  else if isZero a then a
  else if fneg a then qnan
  else if isInf a then a
  else fpack false (roundMag (isqrtSticky (magUnits (fmag a) * 2 ^ 149)) 1)

/-- `fabs`: the sign bit is cleared, of a NaN too (R12). -/
def fabs (w : Word) : Word := w &&& 0x7FFFFFFF#32

/-- A key that orders the words that are no NaN as their values, infinities included; +0 and -0
have one key. -/
def forder (w : Word) : Int := if fneg w then -(fmag w : Int) else (fmag w : Int)

/-- `fmax`: a NaN propagates; otherwise `a` if `a > b`, else `b` (R13). -/
def fmax (a b : Word) : Word :=
  if isNan a || isNan b then qnan else if forder b < forder a then a else b

end Sys2Proof.Machine
end

