-- ==== Sys2Proof/Machine/Fht.lean ====
section
/-! DEFINITION. FHT (spec/42_fht.md R180 to R197). The buffer `F[0 .. N-1]` is a list of words:
FHT reads and writes only these N words (R181). -/

namespace Sys2Proof.Machine

/-- `F[j]`. -/
def bufAt (F : List Word) (j : Nat) : Word := F.getD j 0#32

/-- The four words of a butterfly at offsets 0, k1, k2 and k3 from `p`, with k2 = 2·k1 and
k3 = 3·k1 (R184), replaced. -/
def putQuad (F : List Word) (p k1 : Nat) (w0 w1 w2 w3 : Word) : List Word :=
  (((F.set p w0).set (p + k1) w1).set (p + 2 * k1) w2).set (p + 3 * k1) w3

/-- The sums and differences that end the two fixed butterflies (R185, R186). -/
def combineQuad (F : List Word) (p k1 : Nat) (f0 f1 f2 f3 : Word) : List Word :=
  putQuad F p k1 (fadd f0 f2) (fadd f1 f3) (fsub f0 f2) (fsub f1 f3)

/-- `Butterfly0` (R185). -/
def butterfly0 (F : List Word) (p k1 : Nat) : List Word :=
  combineQuad F p k1
    (fadd (bufAt F p) (bufAt F (p + k1)))
    (fsub (bufAt F p) (bufAt F (p + k1)))
    (fadd (bufAt F (p + 2 * k1)) (bufAt F (p + 3 * k1)))
    (fsub (bufAt F (p + 2 * k1)) (bufAt F (p + 3 * k1)))

/-- `ButterflySqrt2` (R186). -/
def butterflySqrt2 (F : List Word) (q k1 : Nat) : List Word :=
  combineQuad F q k1
    (fadd (bufAt F q) (bufAt F (q + k1)))
    (fsub (bufAt F q) (bufAt F (q + k1)))
    (fmul sqrt2Word (bufAt F (q + 2 * k1)))
    (fmul sqrt2Word (bufAt F (q + 3 * k1)))

/-- `x * y - z * w`, never fused (R10, R189). -/
def mulSub (x y z w : Word) : Word := fsub (fmul x y) (fmul z w)

/-- `x * y + z * w`, never fused (R10, R189). -/
def mulAdd (x y z w : Word) : Word := fadd (fmul x y) (fmul z w)

/-- The rotation registers c1 and s1 (R36, R187). -/
structure Rotation where
  c1 : Word
  s1 : Word
deriving DecidableEq, Repr

/-- c2, about cos 2iΔ: 1 - (2·s1)·s1 (R188). -/
def Rotation.c2 (r : Rotation) : Word := fsub oneWord (fmul (fmul twoWord r.s1) r.s1)

/-- s2, about sin 2iΔ: (2·s1)·c1 (R188). -/
def Rotation.s2 (r : Rotation) : Word := fmul (fmul twoWord r.s1) r.c1

/-- The table pair of stage `tri` (R182, R187). -/
def rotationSeed (tri : Nat) : Rotation :=
  { c1 := costabWord (2 * tri), s1 := costabWord (2 * tri + 1) }

/-- The recurrence: both lines use the old c1 (R190). -/
def rotationNext (tri : Nat) (r : Rotation) : Rotation :=
  { c1 := mulSub r.c1 (costabWord (2 * tri)) r.s1 (costabWord (2 * tri + 1))
    s1 := mulAdd r.c1 (costabWord (2 * tri + 1)) r.s1 (costabWord (2 * tri)) }

/-- The f and g temporaries of `ButterflyRot` (R36, R189). -/
structure RotTemps where
  f0 : Word
  f1 : Word
  f2 : Word
  f3 : Word
  g0 : Word
  g1 : Word
  g2 : Word
  g3 : Word
deriving DecidableEq, Repr

/-- The first half of `ButterflyRot`: eight reads and the rotation by (c2, s2) (R189). -/
def rotTemps (F : List Word) (fi gi k1 : Nat) (r : Rotation) : RotTemps :=
  let b1 := mulSub r.s2 (bufAt F (fi + k1)) r.c2 (bufAt F (gi + k1))
  let a1 := mulAdd r.c2 (bufAt F (fi + k1)) r.s2 (bufAt F (gi + k1))
  let b3 := mulSub r.s2 (bufAt F (fi + 3 * k1)) r.c2 (bufAt F (gi + 3 * k1))
  let a3 := mulAdd r.c2 (bufAt F (fi + 3 * k1)) r.s2 (bufAt F (gi + 3 * k1))
  { f0 := fadd (bufAt F fi) a1
    f1 := fsub (bufAt F fi) a1
    f2 := fadd (bufAt F (fi + 2 * k1)) a3
    f3 := fsub (bufAt F (fi + 2 * k1)) a3
    g0 := fadd (bufAt F gi) b1
    g1 := fsub (bufAt F gi) b1
    g2 := fadd (bufAt F (gi + 2 * k1)) b3
    g3 := fsub (bufAt F (gi + 2 * k1)) b3 }

/-- The second half of `ButterflyRot`: the rotation by (c1, s1) and the eight writes (R189). -/
def rotWrite (F : List Word) (fi gi k1 : Nat) (r : Rotation) (t : RotTemps) : List Word :=
  let bf := mulSub r.s1 t.f2 r.c1 t.g3
  let af := mulAdd r.c1 t.f2 r.s1 t.g3
  let bg := mulSub r.c1 t.g2 r.s1 t.f3
  let ag := mulAdd r.s1 t.g2 r.c1 t.f3
  putQuad
    (putQuad F fi k1 (fadd t.f0 af) (fadd t.f1 bg) (fsub t.f0 af) (fsub t.f1 bg))
    gi k1 (fadd t.g0 ag) (fadd t.g1 bf) (fsub t.g0 ag) (fsub t.g1 bf)

/-- `ButterflyRot` (R189). -/
def butterflyRot (F : List Word) (fi gi k1 : Nat) (r : Rotation) : List Word :=
  rotWrite F fi gi k1 r (rotTemps F fi gi k1 r)

/-- The group bases 0, k4, 2·k4, ... below N (R180). -/
def groupBases (N k4 : Nat) : List Nat := (List.range ((N + k4 - 1) / k4)).map fun i => k4 * i

/-- The fixed butterflies of every group of a stage (R180, R191). -/
def fixedButterflies (N k1 : Nat) (F : List Word) : List Word :=
  (groupBases N (4 * k1)).foldl (fun F g => butterflySqrt2 (butterfly0 F g k1) (g + k1 / 2) k1) F

/-- The rotation butterflies of every group for sub-index `i` (R189, R191). -/
def rotButterflies (N k1 i : Nat) (r : Rotation) (F : List Word) : List Word :=
  (groupBases N (4 * k1)).foldl (fun F g => butterflyRot F (g + i) (g + k1 - i) k1 r) F

/-- The sub-index loop: `count` more sub-indices from `i` on, each with its double-angle update, its
butterflies and then the recurrence (R188 to R191). -/
def rotLoop (N k1 tri : Nat) (count i : Nat) (r : Rotation) (F : List Word) : List Word :=
  match count with
  | 0 => F
  | count + 1 =>
    rotLoop N k1 tri count (i + 1) (rotationNext tri r) (rotButterflies N k1 i r F)

/-- One stage: stride k1, sub-indices 1 .. kx - 1 with kx = k1/2 (R184, R191). -/
def fhtStage (N k1 tri : Nat) (F : List Word) : List Word :=
  rotLoop N k1 tri (k1 / 2 - 1) 1 (rotationSeed tri) (fixedButterflies N k1 F)

/-- The stages from stride k1 on: another stage follows while the group size 4·k1 is below N
(R184). `fuel` bounds the number of stages; four are the most a legal N takes. -/
def fhtStages (N : Nat) (fuel k1 tri : Nat) (F : List Word) : List Word :=
  match fuel with
  | 0 => F
  | fuel + 1 =>
    if 4 * k1 < N then fhtStages N fuel (4 * k1) (tri + 1) (fhtStage N k1 tri F)
    else fhtStage N k1 tri F

/-- The transform of a buffer of N words (R180, R184). -/
@[irreducible] def fhtBuffer (N : Nat) (F : List Word) : List Word := fhtStages N 4 4 0 F

/-- FHT's output: the buffer at LSRC transformed in place (R180, R181). -/
def fhtOutput (n : BitVec 10) (s : State) : State :=
  { s with
    dmem := writeWords s.dmem s.lsrc.toNat
      (fhtBuffer (fhtLength n) (readWords s.dmem s.lsrc.toNat (fhtLength n))) }

/-- FHT's completion step (R122, R180). Latched operands that acceptance would have rejected are
recorded as R222 says (log entry 6). -/
def execFht (n : BitVec 10) (s : State) : Host.Outcome State Fault Refusal :=
  match fhtCause n s.lsrc with
  | some c => .next (cmdFault c (encode (.fht n)) s)
  | none => .next (finishCommand (fhtOutput n s))

end Sys2Proof.Machine
end

