-- ==== Sys2Proof/Machine/Powlaw.lean ====
section
/-! DEFINITION. POWLAW (spec/41_powlaw.md R150 to R163). -/

namespace Sys2Proof.Machine

/-- `t`, the 3/4 power of one coefficient: √(x·√x) with x = fabs(xr[i]) (R151). -/
def powElement (w : Word) : Word := fsqrt (fmul (fabs w) (fsqrt (fabs w)))

/-- The lane vectors SUMLANE and MAXLANE (R36, R152, R153). -/
structure Lanes where
  sumLane : List Word
  maxLane : List Word
deriving DecidableEq, Repr

/-- Both vectors start at +0.0 in all eight lanes (R150). -/
def Lanes.start : Lanes :=
  { sumLane := List.replicate 8 0x00000000#32, maxLane := List.replicate 8 0x00000000#32 }

/-- Element `i` joins lane `i mod 8`: its absolute value the sum, its power the maximum
(R152, R153). -/
def lanesAdd (i : Nat) (w : Word) (l : Lanes) : Lanes :=
  { sumLane := l.sumLane.modify (i % 8) fun v => fadd v (fabs w)
    maxLane := l.maxLane.modify (i % 8) fun v => fmax v (powElement w) }

/-- The element loop from index `i` on, in increasing order (R150). -/
def lanesFrom (i : Nat) (xs : List Word) (l : Lanes) : Lanes :=
  match xs with
  | [] => l
  | w :: rest => lanesFrom (i + 1) rest (lanesAdd i w l)

/-- The fixed pairwise tree of adjacent lanes (R156). -/
def reduceTree (op : Word → Word → Word) (v : List Word) : Word :=
  op (op (op (v.getD 0 0#32) (v.getD 1 0#32)) (op (v.getD 2 0#32) (v.getD 3 0#32)))
    (op (op (v.getD 4 0#32) (v.getD 5 0#32)) (op (v.getD 6 0#32) (v.getD 7 0#32)))

/-- SUM of the coefficients `xs` (R156). -/
@[irreducible] def powSum (xs : List Word) : Word := reduceTree fadd (lanesFrom 0 xs Lanes.start).sumLane

/-- MAX of the coefficients `xs` (R156). -/
@[irreducible] def powMax (xs : List Word) : Word := reduceTree fmax (lanesFrom 0 xs Lanes.start).maxLane

/-- The coefficients POWLAW reads: `DMEM[src .. src + max_nz]` (R150, R158). -/
def powInput (m : BitVec 10) (s : State) : List Word := readWords s.dmem s.lsrc.toNat (m.toNat + 1)

/-- POWLAW's outputs, all together: the transformed words, SUM and MAX (R157). -/
def powOutput (m : BitVec 10) (s : State) : State :=
  { s with
    dmem := writeWords s.dmem s.ldst.toNat ((powInput m s).map powElement)
    sum := powSum (powInput m s)
    max := powMax (powInput m s) }

/-- POWLAW's completion step (R122, R150). Latched operands that acceptance would have rejected are
recorded as R222 says (log entry 6). -/
def execPowlaw (m : BitVec 10) (s : State) : Host.Outcome State Fault Refusal :=
  match powlawCause m s.lsrc s.ldst with
  | some c => .next (cmdFault c (encode (.powlaw m)) s)
  | none => .next (finishCommand (powOutput m s))

end Sys2Proof.Machine
end

