-- ==== Sys2Proof/Machine/Dispatch.lean ====
section
/-! DEFINITION. The engine's completion step of each command (spec/40_command_control.md R122). -/

namespace Sys2Proof.Machine

def exec (i : Instr) (s : State) : Host.Outcome State Fault Refusal :=
  match i with
  | .nop => Sys2Proof.Machine.execNop s
  | .powlaw maxNz => Sys2Proof.Machine.execPowlaw maxNz s
  | .fht n => Sys2Proof.Machine.execFht n s

end Sys2Proof.Machine
end

