-- ==== Sys2Proof/Machine/Step.lean ====
section
/-! DEFINITION. One step of a run: a host access, the engine's turn or the reset input
(spec/20_memory.md R68; spec/40_command_control.md R110, R122, R123). -/

namespace Sys2Proof.Machine

/-- The engine's turn: enabled exactly when BUSY = 1 (R122); an idle engine does nothing (R244). -/
def engineTurn (s : State) : Host.Outcome State Fault Refusal :=
  if s.busy then
    match decodeWord s.lcmd with
    | .ok i => exec i s
    | .error _ => .fault .undecodableCommand
  else .next s

/-- One step. The agenda says whose step it is; when it is empty only the engine is left to act
(log entry 1). -/
def step (s : State) : Host.Outcome State Fault Refusal :=
  match s.agenda with
  | [] => engineTurn s
  | .host a :: rest => .next (hostAccess a (setAgenda rest s))
  | .engine :: rest => engineTurn (setAgenda rest s)
  | .hardReset :: rest => .next (hardReset (setAgenda rest s))

/-- The command word `w` accepted into the engine with the present base registers, as R120 latches
it, and the engine's turn next: the very next step runs it (log entry 7). -/
def State.withFetchWord (s : State) (nbits w : Nat) : State :=
  setAgenda (.engine :: s.agenda) (acceptCommand (BitVec.ofNat 32 (w % 2 ^ nbits)) s)

end Sys2Proof.Machine
end

