-- ==== Sys2Proof/Machine/Platform.lean ====
section
/-! DEFINITION. How the open platform parameters attach to the block (spec/00_scope.md R7;
spec/20_memory.md R66; spec/60_exceptions.md R232; spec/70_reset_and_hazards.md R273). -/

namespace Sys2Proof.Machine

/-- The window offset that a host address selects; an address outside the window is not
LAME-CORE's (R66). -/
def windowOffset (hostAddr : Nat) : Option Offset :=
  if Config.baseAddr ≤ hostAddr ∧ hostAddr < Config.baseAddr + Config.windowBytes
  then some (BitVec.ofNat 14 (hostAddr - Config.baseAddr))
  else none

/-- The interrupt controller input that IRQ holds active, if it is active (R232). -/
def activeIrqLine (s : State) : Option Nat := if irq s then some Config.irqLine else none

/-- LATENCY(cmd): at least one cycle, and a function of OPC and ARG alone (R7, R273). -/
def latency (i : Instr) : Nat := Config.latencyLessOne i.opc i.arg + 1

end Sys2Proof.Machine
end

