-- ==== Sys2Proof/Safety.lean ====
section
/-! DEFINITION. The terms the claims use: the canonical form of DMEM, the invariant of a run, what
a correctly rounded result is, and the outcome of a run. -/

namespace Sys2Proof.Machine

/-- The canonical form of DMEM: offsets rise strictly and lie in the DMEM window (R60), and no
entry holds what an unlisted byte reads as, so equal memories are equal lists. -/
abbrev Memory.wf (m : Memory) : Prop :=
  m.Pairwise (fun c d => c.1 < d.1) ∧
    ∀ c ∈ m, Config.dmemBase ≤ c.1 ∧ c.1 < Config.windowBytes ∧ c.2 ≠ Memory.unlisted

/-- A non-negative value (-0 excluded, +∞ included) or QNAN (spec/41_powlaw.md R154). -/
def isNonnegOrQnan (w : Word) : Bool := w = qnan || (fneg w = false && isNan w = false)

/-- The command in flight is one that acceptance admits (R97, R122). -/
def inFlightOk (s : State) : Bool :=
  match decodeWord s.lcmd with
  | .ok i => (operandCause i s.lsrc s.ldst).isNone
  | .error _ => false

/-- ERRCODE and ERRCMD are 0 while ERR is 0, and ERRCODE is one of R221's codes while ERR is 1. -/
def cmdRecordOk (s : State) : Prop :=
  (s.err = false → s.errCode = 0#4 ∧ s.errCmd = 0#32) ∧
    (s.err = true → ∃ c, s.errCode = cmdCode c)

/-- ACCINFO is 0 while ACCERR is 0, and describes one access while ACCERR is 1 (R31, R231). -/
def accRecordOk (s : State) : Prop :=
  (s.accErr = false → s.accInfo = 0#32) ∧
    (s.accErr = true → ∃ c offset wr, s.accInfo = accInfoWord c offset wr)

/-- What every run of the machine keeps. -/
structure State.Inv (s : State) : Prop where
  /-- DMEM is in its canonical form. -/
  memory : Memory.wf s.dmem
  /-- A command in flight passed the checks of R97. -/
  inFlight : s.busy = true → inFlightOk s = true
  /-- Acceptance clears DONE, and only completion sets it (R26). -/
  busyNotDone : s.busy = true → s.done = false
  /-- LASTCMD is the last accepted word, which LCMD latched (R28, R36). -/
  lastCmd : s.lastCmd = s.lcmd
  /-- The command fault record is empty or full (R222, R236). -/
  cmdRecord : cmdRecordOk s
  /-- The access fault record is empty or full (R230, R236). -/
  accRecord : accRecordOk s
  /-- SUM is a reduction of absolute values (R154). -/
  sumNonneg : isNonnegOrQnan s.sum = true
  /-- MAX is a reduction of transformed values (R154). -/
  maxNonneg : isNonnegOrQnan s.max = true

/-- `x` is a next state that `P` holds of. -/
def answersNext (x : Host.Outcome State Fault Refusal) (P : State → Prop) : Prop :=
  ∃ t, x = .next t ∧ P t

/-- `r` is the finite word nearest to the exact value `z / 2^k`, in units of 2^-149, and the even
one of two equally near (roundTiesToEven, R10 (a)). -/
def NearestEven (r : Word) (z : Int) (k : Nat) : Prop :=
  isFinite r = true ∧
  (∀ w, isFinite w = true → (fval r * 2 ^ k - z).natAbs ≤ (fval w * 2 ^ k - z).natAbs) ∧
  (∀ w, isFinite w = true → (fval w * 2 ^ k - z).natAbs = (fval r * 2 ^ k - z).natAbs →
    fval w ≠ fval r → r.getLsbD 0 = false)

/-- The least magnitude, in units of 2^-149, that roundTiesToEven takes to infinity: half a unit
in the last place above the largest finite value. -/
def overflowUnits : Nat := (2 ^ 25 - 1) * 2 ^ 252

/-- The value of `a` is above the value of `b`, for words that are no NaN (the ordered comparison
of R13). -/
def ValueAbove (a b : Word) : Prop :=
  if isFinite a = true ∧ isFinite b = true then fval b < fval a
  else a ≠ b ∧ (a = fpack false infMag ∨ b = fpack true infMag)

/-- A shape for a reduction of lanes: which lane each leaf takes, and how the results are paired
(R156). -/
inductive LaneTree where
  | lane (j : Nat)
  | join (l r : LaneTree)
deriving DecidableEq, Repr

/-- The lanes of a tree, from left to right. -/
def LaneTree.lanes : LaneTree → List Nat
  | .lane j => [j]
  | .join l r => l.lanes ++ r.lanes

/-- The lanes `v` reduced by `op` in the tree's shape. -/
def LaneTree.reduce (op : Word → Word → Word) (v : List Word) : LaneTree → Word
  | .lane j => v.getD j 0#32
  | .join l r => op (l.reduce op v) (r.reduce op v)

/-- A host access that resets the block: a well-formed CTRL write with SRST = 1 (R260). -/
def isSoftReset (a : Access) : Bool :=
  match a with
  | .read _ _ => false
  | .write offset be wdata => offset = 0x008#14 && be = 0b1111#4 && wdata.getLsbD 1

/-- The host performs its accesses one after another. -/
def hostAccesses (as : List Access) (s : State) : State := as.foldl (fun s a => hostAccess a s) s

end Sys2Proof.Machine
end

