-- ==== Sys2Proof/Certificates/Slice0/Obligations.lean ====
section
/-! DEFINITION. The statements for the provers. Each docstring names the rules of spec/ it rests
on; "the model's choice" marks what a log entry decides. -/

open Sys2Proof Sys2Proof.Machine

/-! ### Encoding -/

/-- Every command, its argument at all 1024 values, every 32-bit word and every list of bytes: the
decoder reads a command from a word exactly when the word is the command's encoding, and from a list
of bytes, leaving `rest`, exactly when the list is that word's four bytes and then `rest` (R90 to
R94, R96, R62). -/
def Obligations.DecodeEncodeAgree : Prop :=
  (∀ (i : Instr) (w : Word), decodeWord w = .ok i ↔ w = encode i) ∧
  (∀ (i : Instr) (bs rest : List Byte),
    decodeBytes bs = .ok (i, rest) ↔ bs = wordBytes (encode i) ++ rest)

/-- The table of R98: the word of each assembly form, written out in bits, decodes to it, and each
word's verdict with SRC_BASE = 0, DST_BASE = 1024 and BUSY = 0 is the listed code (0 is
acceptance). The table is the spec's own inference ("derived: from rules R90, R92, R95, R97"). -/
def Obligations.ExampleWordVerdicts : Prop :=
  ∀ row ∈ ([
      (some Instr.nop,             0b00000000000000000000000000000000#32, 0),
      (some (Instr.powlaw 0#10),   0b00000000000000000000000000000001#32, 0),
      (some (Instr.powlaw 9#10),   0b00000000000000000000000010010001#32, 0),
      (some (Instr.powlaw 575#10), 0b00000000000000000010001111110001#32, 0),
      (some (Instr.powlaw 576#10), 0b00000000000000000010010000000001#32, 4),
      (some (Instr.fht 8#10),      0b00000000000000000000000010000010#32, 0),
      (some (Instr.fht 32#10),     0b00000000000000000000001000000010#32, 0),
      (some (Instr.fht 128#10),    0b00000000000000000000100000000010#32, 0),
      (some (Instr.fht 512#10),    0b00000000000000000010000000000010#32, 0),
      (some (Instr.fht 4#10),      0b00000000000000000000000001000010#32, 4),
      (some (Instr.fht 16#10),     0b00000000000000000000000100000010#32, 4),
      (none, 0x00000003#32, 2), (none, 0x00000010#32, 3), (none, 0x00004091#32, 3)]
      : List (Option Instr × Word × Nat)),
    (match decodeWord row.2.1 with
      | .ok i => some i
      | .error _ => none) = row.1 ∧
    (match checkCommand row.2.1 false 0#11 1024#11 with
      | none => 0
      | some c => (cmdCode c).toNat) = row.2.2

/-- R93: the only NOP word is 0, and a word with OPC = 0 and any other bit set is E_RSVD. -/
def Obligations.NopHasOneEncoding : Prop :=
  (∀ w : Word, decodeWord w = .ok .nop ↔ w = 0x00000000#32) ∧
  (∀ (w : Word) (src dst : WordAddr), w.extractLsb' 0 4 = 0#4 → w ≠ 0x00000000#32 →
    checkCommand w false src dst = some .eRsvd)

/-- R97: `CheckCommand`'s checks in their priority order, on unbounded integers, give the recorded
code, or 0 for acceptance. -/
def Obligations.CheckCommandFollowsPriority : Prop :=
  ∀ (w : Word) (busy : Bool) (src dst : WordAddr),
    let opc := w.toNat % 16
    let arg := w.toNat / 16 % 1024
    let rsvd := w.toNat / 16384
    let s := src.toNat
    let d := dst.toNat
    (match checkCommand w busy src dst with
      | none => 0
      | some c => (cmdCode c).toNat) =
    if busy = true then 1
    else if 2 < opc then 2
    else if rsvd ≠ 0 then 3
    else if opc = 0 ∧ arg ≠ 0 then 3
    else if opc = 1 ∧ 575 < arg then 4
    else if opc = 2 ∧ arg ∉ [8, 32, 128, 512] then 4
    else if opc = 1 ∧ (2047 < s + arg ∨ 2047 < d + arg) then 5
    else if opc = 2 ∧ 2047 < s + 2 * arg - 1 then 5
    else if opc = 1 ∧ s ≠ d ∧ s ≤ d + arg ∧ d ≤ s + arg then 6
    else 0

/-! ### Host accesses -/

/-- R112: what each read returns, and that a read changes nothing else; a refused one returns 0 and is
recorded with its cause. -/
def Obligations.HostReadFollowsTheMap : Prop :=
  (∀ (offset : Offset) (be : BitVec 4) (s : State),
    (offset.toNat % 4 ≠ 0 ∨ be ≠ 0b1111#4 ∨ (0x2000 ≤ offset.toNat ∧ s.busy = true)) →
    hostAccess (.read offset be) s =
      { s with
        rdata := 0x00000000#32
        accErr := true
        accInfo := if s.accErr then s.accInfo
          else BitVec.ofNat 32 (65536 * (if offset.toNat % 4 ≠ 0 then 1
            else if be ≠ 0b1111#4 then 2 else 3) + offset.toNat) }) ∧
  ∀ (offset : Offset) (s : State), offset.toNat % 4 = 0 →
    ¬ (0x2000 ≤ offset.toNat ∧ s.busy = true) →
    ∃ d : Word, hostAccess (.read offset 0b1111#4) s = { s with rdata := d } ∧
      (0x2000 ≤ offset.toNat → d = readWord s.dmem ((offset.toNat - 0x2000) / 4)) ∧
      (offset = 0x000#14 → d = 0x4C414D45#32) ∧
      (offset = 0x004#14 → d = 0x00000001#32) ∧
      (offset = 0x008#14 → d.toNat = s.irqEn.toNat) ∧
      (offset = 0x00C#14 → d.toNat =
        256 * s.errCode.toNat + 8 * s.accErr.toNat + 4 * s.err.toNat + 2 * s.done.toNat
          + s.busy.toNat) ∧
      (offset = 0x010#14 → d = s.lastCmd) ∧
      (offset = 0x014#14 → d.toNat = s.srcBase.toNat) ∧
      (offset = 0x018#14 → d.toNat = s.dstBase.toNat) ∧
      (offset = 0x01C#14 → d = s.sum) ∧
      (offset = 0x020#14 → d = s.max) ∧
      (offset = 0x024#14 → d = s.errCmd) ∧
      (offset = 0x028#14 → d = s.accInfo) ∧
      (offset = 0x02C#14 → d = 0x00040B08#32) ∧
      (∀ p ∈ [(0x040#14, 0x3F6C835E#32), (0x044#14, 0x3EC3EF15#32), (0x048#14, 0x3F7EC46D#32),
          (0x04C#14, 0x3DC8BD36#32), (0x050#14, 0x3F7FEC43#32), (0x054#14, 0x3CC90AB0#32),
          (0x058#14, 0x3F7FFEC4#32), (0x05C#14, 0x3BC90F88#32)], offset = p.1 → d = p.2) ∧
      ((0x030 ≤ offset.toNat ∧ offset.toNat ≤ 0x03C ∨ 0x060 ≤ offset.toNat ∧ offset.toNat ≤ 0x1FFC) →
        d = 0x00000000#32)

/-- R118 and R34: an aligned full-word write below DMEM to anything but CTRL, STATUS, CMD, SRC_BASE
and DST_BASE changes nothing at all, and reserved offsets read as zero. -/
def Obligations.ReadOnlyAndReservedIgnoreWrites : Prop :=
  (∀ (offset : Offset) (w : Word) (s : State), offset.toNat % 4 = 0 → offset.toNat < 0x2000 →
    offset.toNat ∉ [0x008, 0x00C, 0x010, 0x014, 0x018] →
    hostAccess (.write offset 0b1111#4 w) s = s) ∧
  (∀ (offset : Offset) (s : State), offset.toNat % 4 = 0 →
    (0x030 ≤ offset.toNat ∧ offset.toNat ≤ 0x03C ∨ 0x060 ≤ offset.toNat ∧ offset.toNat ≤ 0x1FFC) →
    hostAccess (.read offset 0b1111#4) s = { s with rdata := 0x00000000#32 })

/-- R230, R111: a refused access records the first cause that applies, if no earlier refusal is
recorded, and changes nothing else; a refused read returns 0; a STATUS write of bit 3 clears the
record. -/
def Obligations.RefusedAccessIsRecordedFirst : Prop :=
  (∀ (offset : Offset) (be : BitVec 4) (w : Word) (s : State) (cause : Nat),
    cause = (if offset.toNat % 4 ≠ 0 then 1 else if be ≠ 0b1111#4 then 2
      else if 0x2000 ≤ offset.toNat ∧ s.busy = true then 3 else 0) →
    cause ≠ 0 →
    hostAccess (.write offset be w) s =
      { s with
        accErr := true
        accInfo := if s.accErr then s.accInfo
          else BitVec.ofNat 32 (65536 * cause + 16384 + offset.toNat) } ∧
    hostAccess (.read offset be) s =
      { s with
        rdata := 0x00000000#32
        accErr := true
        accInfo := if s.accErr then s.accInfo
          else BitVec.ofNat 32 (65536 * cause + offset.toNat) }) ∧
  (∀ (offset : Offset) (w : Word) (s : State), offset.toNat % 4 = 0 →
    ¬ (0x2000 ≤ offset.toNat ∧ s.busy = true) →
    offset ≠ 0x008#14 → offset ≠ 0x00C#14 →
    (hostAccess (.write offset 0b1111#4 w) s).accErr = s.accErr ∧
    (hostAccess (.write offset 0b1111#4 w) s).accInfo = s.accInfo ∧
    (hostAccess (.read offset 0b1111#4) s).accErr = s.accErr ∧
    (hostAccess (.read offset 0b1111#4) s).accInfo = s.accInfo) ∧
  (∀ (w : Word) (s : State), w.getLsbD 3 = true →
    (hostAccess (.write 0x00C#14 0b1111#4 w) s).accErr = false ∧
    (hostAccess (.write 0x00C#14 0b1111#4 w) s).accInfo = 0x00000000#32)

/-- R65, its idempotence clauses: a second identical read, base write, CTRL write without SRST or
DMEM write changes nothing more, and a CMD write is not idempotent. The DMEM clause uses the
canonical form of DMEM. -/
def Obligations.IdempotentAccesses : Prop :=
  (∀ (offset : Offset) (be : BitVec 4) (s : State),
    hostAccess (.read offset be) (hostAccess (.read offset be) s) =
      hostAccess (.read offset be) s) ∧
  (∀ (offset : Offset) (w : Word) (s : State), Memory.wf s.dmem →
    (offset = 0x014#14 ∨ offset = 0x018#14 ∨ (offset = 0x008#14 ∧ w.getLsbD 1 = false) ∨
      (0x2000 ≤ offset.toNat ∧ offset.toNat % 4 = 0)) →
    hostAccess (.write offset 0b1111#4 w) (hostAccess (.write offset 0b1111#4 w) s) =
      hostAccess (.write offset 0b1111#4 w) s) ∧
  (∃ (w : Word) (s : State), s.Inv ∧
    hostAccess (.write 0x010#14 0b1111#4 w) (hostAccess (.write 0x010#14 0b1111#4 w) s) ≠
      hostAccess (.write 0x010#14 0b1111#4 w) s)

/-- R114: a STATUS write clears DONE, ERR with its record and ACCERR with its record, each by its own
bit of the data, and does nothing else. -/
def Obligations.StatusWriteClearsByOne : Prop :=
  ∀ (w : Word) (s : State),
    hostAccess (.write 0x00C#14 0b1111#4 w) s =
      { s with
        done := if w.getLsbD 1 then false else s.done
        err := if w.getLsbD 2 then false else s.err
        errCode := if w.getLsbD 2 then 0#4 else s.errCode
        errCmd := if w.getLsbD 2 then 0#32 else s.errCmd
        accErr := if w.getLsbD 3 then false else s.accErr
        accInfo := if w.getLsbD 3 then 0#32 else s.accInfo }

/-- R116: a base write stores bits 10:0 of its data, at any time, and changes nothing else: not the
operands latched by a command in flight. -/
def Obligations.BaseWritesStoreElevenBits : Prop :=
  ∀ (w : Word) (s : State),
    hostAccess (.write 0x014#14 0b1111#4 w) s = { s with srcBase := BitVec.ofNat 11 (w.toNat % 2048) } ∧
    hostAccess (.write 0x018#14 0b1111#4 w) s = { s with dstBase := BitVec.ofNat 11 (w.toNat % 2048) }

/-- R115 and R262: a CTRL write without SRST sets IRQ_EN from bit 0 and changes nothing else. With
SRST every register goes to its reset value, whatever bit 0 says; if BUSY was 0, DMEM keeps its
contents and no free value is drawn. -/
def Obligations.CtrlWriteEnablesOrSoftResets : Prop :=
  ∀ (w : Word) (s : State),
    (w.getLsbD 1 = false →
      hostAccess (.write 0x008#14 0b1111#4 w) s = { s with irqEn := w.getLsbD 0 }) ∧
    (w.getLsbD 1 = true →
      hostAccess (.write 0x008#14 0b1111#4 w) s =
        { State.reset with
          dmem := (hostAccess (.write 0x008#14 0b1111#4 w) s).dmem
          draws := (hostAccess (.write 0x008#14 0b1111#4 w) s).draws
          rdata := s.rdata
          agenda := s.agenda } ∧
      (s.busy = false → (hostAccess (.write 0x008#14 0b1111#4 w) s).dmem = s.dmem ∧
        (hostAccess (.write 0x008#14 0b1111#4 w) s).draws = s.draws))

/-- R117: while BUSY = 0 a well-formed read of the DMEM window returns the word and a well-formed
write sets it, leaves every byte outside its four lanes and all else alone; while BUSY = 1 both are
refused with cause DMEM_BUSY, and DMEM keeps its contents. -/
def Obligations.DmemWindowReadsAndWrites : Prop :=
  ∀ (a : Nat) (w : Word) (s : State), a < 2048 → Memory.wf s.dmem →
    (s.busy = false →
      hostAccess (.read (BitVec.ofNat 14 (0x2000 + 4 * a)) 0b1111#4) s =
        { s with rdata := readWord s.dmem a } ∧
      ∃ m : Memory,
        hostAccess (.write (BitVec.ofNat 14 (0x2000 + 4 * a)) 0b1111#4 w) s = { s with dmem := m } ∧
        Memory.wf m ∧ readWord m a = w ∧
        (∀ k, k < 4 → readByte m (0x2000 + 4 * a + k) = BitVec.ofNat 8 (w.toNat / 2 ^ (8 * k))) ∧
        ∀ c, ¬ (0x2000 + 4 * a ≤ c ∧ c < 0x2000 + 4 * a + 4) → readByte m c = readByte s.dmem c) ∧
    (s.busy = true →
      (hostAccess (.write (BitVec.ofNat 14 (0x2000 + 4 * a)) 0b1111#4 w) s).dmem = s.dmem ∧
      (hostAccess (.write (BitVec.ofNat 14 (0x2000 + 4 * a)) 0b1111#4 w) s).accErr = true ∧
      (hostAccess (.read (BitVec.ofNat 14 (0x2000 + 4 * a)) 0b1111#4) s).dmem = s.dmem ∧
      (hostAccess (.read (BitVec.ofNat 14 (0x2000 + 4 * a)) 0b1111#4) s).rdata = 0x00000000#32 ∧
      (hostAccess (.read (BitVec.ofNat 14 (0x2000 + 4 * a)) 0b1111#4) s).accErr = true ∧
      (s.accErr = false →
        (hostAccess (.write (BitVec.ofNat 14 (0x2000 + 4 * a)) 0b1111#4 w) s).accInfo =
          BitVec.ofNat 32 (0x36000 + 4 * a) ∧
        (hostAccess (.read (BitVec.ofNat 14 (0x2000 + 4 * a)) 0b1111#4) s).accInfo =
          BitVec.ofNat 32 (0x32000 + 4 * a)))

/-- R35: IRQ is a function of IRQ_EN, DONE, ERR and ACCERR; clearing the three bits drops it, and
clearing IRQ_EN drops it (R232). -/
def Obligations.IrqFollowsStatus : Prop :=
  ∀ s : State,
    (irq s = true ↔ s.irqEn = true ∧ (s.done = true ∨ s.err = true ∨ s.accErr = true)) ∧
    irq (hostAccess (.write 0x00C#14 0b1111#4 0x0000000E#32) s) = false ∧
    irq (hostAccess (.write 0x008#14 0b1111#4 0x00000000#32) s) = false

/-! ### Command issue and its faults -/

/-- R120 and R222: a CMD write either accepts the command (latches the word and both bases, sets
LASTCMD, DONE ← 0, BUSY ← 1, nothing else) or rejects it (ERR ← 1, and the code and the word are
captured if ERR was 0, nothing else); while BUSY = 1 every word is rejected with E_BUSY. -/
def Obligations.IssueAcceptsOrRejects : Prop :=
  ∀ (w : Word) (s : State),
    (s.busy = true → checkCommand w s.busy s.srcBase s.dstBase = some .eBusy) ∧
    (checkCommand w s.busy s.srcBase s.dstBase = none →
      hostAccess (.write 0x010#14 0b1111#4 w) s =
        { s with
          lcmd := w
          lsrc := s.srcBase
          ldst := s.dstBase
          lastCmd := w
          done := false
          busy := true }) ∧
    (∀ c, checkCommand w s.busy s.srcBase s.dstBase = some c →
      hostAccess (.write 0x010#14 0b1111#4 w) s =
        { s with
          err := true
          errCode := if s.err then s.errCode else cmdCode c
          errCmd := if s.err then s.errCmd else w })

/-- R225's closing sentence: with BUSY = 0, the encoded NOP is accepted; the encoded POWLAW exactly when its
bound is legal, its ranges lie in DMEM and are identical or disjoint; the encoded FHT exactly when
its half-size is legal and its buffer lies in DMEM. -/
def Obligations.AcceptedCommandsCharacterized : Prop :=
  ∀ (src dst : WordAddr),
    checkCommand (encode .nop) false src dst = none ∧
    (∀ m : BitVec 10, checkCommand (encode (.powlaw m)) false src dst = none ↔
      m.toNat ≤ 575 ∧ src.toNat + m.toNat < 2048 ∧ dst.toNat + m.toNat < 2048 ∧
        (src = dst ∨ ∀ i j, i ≤ m.toNat → j ≤ m.toNat → src.toNat + i ≠ dst.toNat + j)) ∧
    (∀ n : BitVec 10, checkCommand (encode (.fht n)) false src dst = none ↔
      n.toNat ∈ [8, 32, 128, 512] ∧ src.toNat + 2 * n.toNat ≤ 2048)

/-- R224: while ERR = 1, no step of the machine but a clear of ERR or a reset changes ERR, ERRCODE or
ERRCMD; a STATUS write of bit 2 clears all three; and ERR plays no part in acceptance. (Which step
comes next is the agenda's, log entry 1.) -/
def Obligations.FirstRejectedCommandIsKept : Prop :=
  (∀ s t : State, s.Inv → s.err = true → step s = .next t →
    (∀ rest, s.agenda ≠ .hardReset :: rest) →
    (∀ a rest, s.agenda = .host a :: rest →
      isSoftReset a = false ∧ ∀ w, a = .write 0x00C#14 0b1111#4 w → w.getLsbD 2 = false) →
    t.err = true ∧ t.errCode = s.errCode ∧ t.errCmd = s.errCmd) ∧
  (∀ (w : Word) (s : State), w.getLsbD 2 = true →
    (hostAccess (.write 0x00C#14 0b1111#4 w) s).err = false ∧
    (hostAccess (.write 0x00C#14 0b1111#4 w) s).errCode = 0#4 ∧
    (hostAccess (.write 0x00C#14 0b1111#4 w) s).errCmd = 0x00000000#32) ∧
  (∀ (w : Word) (s : State), s.err = true →
    checkCommand w s.busy s.srcBase s.dstBase = none →
    (hostAccess (.write 0x010#14 0b1111#4 w) s).busy = true ∧
    (hostAccess (.write 0x010#14 0b1111#4 w) s).err = true ∧
    (hostAccess (.write 0x010#14 0b1111#4 w) s).errCode = s.errCode ∧
    (hostAccess (.write 0x010#14 0b1111#4 w) s).errCmd = s.errCmd)

/-! ### The commands -/

/-- R124: NOP's word is accepted when BUSY = 0 (DONE ← 0, BUSY ← 1) and is E_BUSY when BUSY = 1, and a
word with OPC = 0 and any other bit set is E_RSVD; NOP's completion answers a next state in which BUSY ← 0, DONE ← 1, and
nothing else changes. -/
def Obligations.NopCompletes : Prop :=
  (∀ (w : Word) (src dst : WordAddr), w.toNat % 16 = 0 → w ≠ 0x00000000#32 →
    checkCommand w false src dst = some .eRsvd) ∧
  (∀ s : State, s.busy = false →
    hostAccess (.write 0x010#14 0b1111#4 0x00000000#32) s =
      { s with
        lcmd := 0x00000000#32
        lsrc := s.srcBase
        ldst := s.dstBase
        lastCmd := 0x00000000#32
        done := false
        busy := true }) ∧
  (∀ src dst : WordAddr, checkCommand 0x00000000#32 true src dst = some .eBusy) ∧
  (∀ s : State, exec .nop s = .next { s with busy := false, done := true })

/-- R151, R152, R153, R157: from latched operands that acceptance admits, POWLAW answers a next state
with every transformed word, SUM as the tree of the eight lane sums of absolute values, MAX as the
tree of the eight lane maxima, BUSY ← 0 and DONE ← 1; every byte of DMEM outside
`DMEM[dst .. dst + max_nz]` and all other state is unchanged. In-place operation is included. -/
def Obligations.PowlawCompletes : Prop :=
  ∀ (m : BitVec 10) (s : State), Memory.wf s.dmem →
    m.toNat ≤ 575 → s.lsrc.toNat + m.toNat ≤ 2047 → s.ldst.toNat + m.toNat ≤ 2047 →
    (s.lsrc = s.ldst ∨ s.lsrc.toNat + m.toNat < s.ldst.toNat ∨
      s.ldst.toNat + m.toNat < s.lsrc.toNat) →
    let xr := fun i => readWord s.dmem (s.lsrc.toNat + i)
    let power := fun i => fsqrt (fmul (fabs (xr i)) (fsqrt (fabs (xr i))))
    let lane := fun j => (List.range (m.toNat + 1)).filter fun i => i % 8 = j
    let sumLane := fun j => (lane j).foldl (fun v i => fadd v (fabs (xr i))) 0x00000000#32
    let maxLane := fun j => (lane j).foldl (fun v i => fmax v (power i)) 0x00000000#32
    ∃ t : State, exec (.powlaw m) s = .next t ∧
      (∀ i, i ≤ m.toNat → readWord t.dmem (s.ldst.toNat + i) = power i) ∧
      (∀ c, ¬ (byteOffset s.ldst.toNat 0 ≤ c ∧ c < byteOffset (s.ldst.toNat + m.toNat + 1) 0) →
        readByte t.dmem c = readByte s.dmem c) ∧
      t.sum = fadd (fadd (fadd (sumLane 0) (sumLane 1)) (fadd (sumLane 2) (sumLane 3)))
        (fadd (fadd (sumLane 4) (sumLane 5)) (fadd (sumLane 6) (sumLane 7))) ∧
      t.max = fmax (fmax (fmax (maxLane 0) (maxLane 1)) (fmax (maxLane 2) (maxLane 3)))
        (fmax (fmax (maxLane 4) (maxLane 5)) (fmax (maxLane 6) (maxLane 7))) ∧
      t = { s with dmem := t.dmem, sum := t.sum, max := t.max, busy := false, done := true }

/-- R158, R121: POWLAW's results depend on `DMEM[src .. src + max_nz]` alone: two states that agree
on the latched operands and on these words get the same words, SUM and MAX, whatever else they hold
(the words past `max_nz` among it). -/
def Obligations.PowlawReadsOnlyItsInput : Prop :=
  ∀ (m : BitVec 10) (s s' t t' : State), Memory.wf s.dmem → Memory.wf s'.dmem →
    powlawCause m s.lsrc s.ldst = none → s'.lsrc = s.lsrc → s'.ldst = s.ldst →
    (∀ i, i ≤ m.toNat →
      readWord s'.dmem (s.lsrc.toNat + i) = readWord s.dmem (s.lsrc.toNat + i)) →
    exec (.powlaw m) s = .next t → exec (.powlaw m) s' = .next t' →
    t'.sum = t.sum ∧ t'.max = t.max ∧
    ∀ i, i ≤ m.toNat → readWord t'.dmem (s.ldst.toNat + i) = readWord t.dmem (s.ldst.toNat + i)

/-- R180, R181: from latched operands that acceptance admits, FHT answers a next state in which the
buffer of 2n words at LSRC is transformed in place, BUSY ← 0 and DONE ← 1; every byte of DMEM
outside the buffer and all other state, SUM, MAX and DST_BASE among it, is unchanged. -/
def Obligations.FhtCompletes : Prop :=
  ∀ (n : BitVec 10) (s : State), Memory.wf s.dmem →
    n.toNat ∈ [8, 32, 128, 512] → s.lsrc.toNat + 2 * n.toNat ≤ 2048 →
    let F := (List.range (2 * n.toNat)).map fun j => readWord s.dmem (s.lsrc.toNat + j)
    ∃ t : State, exec (.fht n) s = .next t ∧
      (∀ j, j < 2 * n.toNat →
        readWord t.dmem (s.lsrc.toNat + j) = bufAt (fhtBuffer (2 * n.toNat) F) j) ∧
      (∀ c, ¬ (byteOffset s.lsrc.toNat 0 ≤ c ∧ c < byteOffset (s.lsrc.toNat + 2 * n.toNat) 0) →
        readByte t.dmem c = readByte s.dmem c) ∧
      t = { s with dmem := t.dmem, busy := false, done := true }

/-- The model's choice (log entry 6): latched operands that acceptance never admits (an illegal
argument, a buffer outside DMEM, a partial overlap) take the command fault of R222 with R221's
code, and nothing else changes. -/
def Obligations.InadmissibleLatchedOperandsTakeCmdFault : Prop :=
  (∀ (m : BitVec 10) (s : State) (c : CmdCause), powlawCause m s.lsrc s.ldst = some c →
    exec (.powlaw m) s = .next { s with
      err := true
      errCode := if s.err then s.errCode else cmdCode c
      errCmd := if s.err then s.errCmd else encode (.powlaw m) }) ∧
  (∀ (n : BitVec 10) (s : State) (c : CmdCause), fhtCause n s.lsrc = some c →
    exec (.fht n) s = .next { s with
      err := true
      errCode := if s.err then s.errCode else cmdCode c
      errCmd := if s.err then s.errCmd else encode (.fht n) }) ∧
  (∀ (n : BitVec 10) (s : State), n.toNat ∉ [8, 32, 128, 512] → s.err = false →
    ∃ t, exec (.fht n) s = .next t ∧ t.errCode = 4#4)

/-- R29, R121: the engine uses what it latched: whatever SRC_BASE, DST_BASE, IRQ_EN, LASTCMD and the
fault records hold at completion, an admitted command's effect is the same and they are kept. -/
def Obligations.CompletionUsesLatchedOperands : Prop :=
  ∀ (i : Instr) (s t : State) (irqEn err accErr : Bool) (errCode : BitVec 4)
    (src dst : WordAddr) (lastCmd errCmd accInfo : Word),
    operandCause i s.lsrc s.ldst = none → exec i s = .next t →
    exec i { s with
      irqEn := irqEn, err := err, accErr := accErr, errCode := errCode, srcBase := src
      dstBase := dst, lastCmd := lastCmd, errCmd := errCmd, accInfo := accInfo } =
    .next { t with
      irqEn := irqEn, err := err, accErr := accErr, errCode := errCode, srcBase := src
      dstBase := dst, lastCmd := lastCmd, errCmd := errCmd, accInfo := accInfo }

/-! ### FHT's parts -/

/-- R184's table: the stages of each length, each with its stride and its table pair. -/
def Obligations.FhtStageSequence : Prop :=
  ∀ F : List Word,
    fhtBuffer 16 F = fhtStage 16 4 0 F ∧
    fhtBuffer 64 F = fhtStage 64 16 1 (fhtStage 64 4 0 F) ∧
    fhtBuffer 256 F = fhtStage 256 64 2 (fhtStage 256 16 1 (fhtStage 256 4 0 F)) ∧
    fhtBuffer 1024 F =
      fhtStage 1024 256 3 (fhtStage 1024 64 2 (fhtStage 1024 16 1 (fhtStage 1024 4 0 F)))

/-- R191: within a stage the two fixed butterflies run for every group, and then, for the sub-indices
1 to kx - 1 in ascending order, the rotation butterfly of every group with the current rotation and
then the recurrence. The groups are the multiples of the group size below N, in ascending order. -/
def Obligations.FhtStageRunsInOrder : Prop :=
  ∀ (N k1 tri : Nat) (F : List Word), 0 < k1 →
    (∀ g, g ∈ groupBases N (4 * k1) ↔ 4 * k1 ∣ g ∧ g < N) ∧
    (groupBases N (4 * k1)).Pairwise (· < ·) ∧
    fhtStage N k1 tri F =
      ((List.range (k1 / 2 - 1)).foldl
        (fun (p : List Word × Rotation) i =>
          ((groupBases N (4 * k1)).foldl
            (fun F g => butterflyRot F (g + (i + 1)) (g + k1 - (i + 1)) k1 p.2) p.1,
           rotationNext tri p.2))
        ((groupBases N (4 * k1)).foldl
          (fun F g => butterflySqrt2 (butterfly0 F g k1) (g + k1 / 2) k1) F,
         rotationSeed tri)).1

/-- R185: `Butterfly0` writes its four words and leaves every other word of the buffer alone. The
spec marks the exact pairing "from general knowledge, not in source" (spec/93 I8). -/
def Obligations.Butterfly0WritesFourWords : Prop :=
  ∀ (F : List Word) (p k1 : Nat), 0 < k1 → p + 3 * k1 < F.length →
    let f0 := fadd (bufAt F p) (bufAt F (p + k1))
    let f1 := fsub (bufAt F p) (bufAt F (p + k1))
    let f2 := fadd (bufAt F (p + 2 * k1)) (bufAt F (p + 3 * k1))
    let f3 := fsub (bufAt F (p + 2 * k1)) (bufAt F (p + 3 * k1))
    let G := butterfly0 F p k1
    bufAt G p = fadd f0 f2 ∧ bufAt G (p + 2 * k1) = fsub f0 f2 ∧
    bufAt G (p + k1) = fadd f1 f3 ∧ bufAt G (p + 3 * k1) = fsub f1 f3 ∧
    (∀ j, j ∉ [p, p + k1, p + 2 * k1, p + 3 * k1] → bufAt G j = bufAt F j)

/-- R186: `ButterflySqrt2` scales two terms by SQRT2, writes its four words and leaves every other
word of the buffer alone. The spec marks the exact pattern "from general knowledge, not in source"
(spec/93 I8). -/
def Obligations.ButterflySqrt2WritesFourWords : Prop :=
  ∀ (F : List Word) (q k1 : Nat), 0 < k1 → q + 3 * k1 < F.length →
    let f0 := fadd (bufAt F q) (bufAt F (q + k1))
    let f1 := fsub (bufAt F q) (bufAt F (q + k1))
    let f2 := fmul 0x3FB504F3#32 (bufAt F (q + 2 * k1))
    let f3 := fmul 0x3FB504F3#32 (bufAt F (q + 3 * k1))
    let G := butterflySqrt2 F q k1
    bufAt G q = fadd f0 f2 ∧ bufAt G (q + 2 * k1) = fsub f0 f2 ∧
    bufAt G (q + k1) = fadd f1 f3 ∧ bufAt G (q + 3 * k1) = fsub f1 f3 ∧
    (∀ j, j ∉ [q, q + k1, q + 2 * k1, q + 3 * k1] → bufAt G j = bufAt F j)

/-- R188, R189: `ButterflyRot` on two distinct offsets of a group's first quarter, with the
double-angle pair made from (c1, s1): all eight reads come before the first write, its eight words
are written, and every other word of the buffer is left alone. The spec marks the formulas "from
general knowledge, not in source" (spec/93 I8). -/
def Obligations.ButterflyRotWritesEightWords : Prop :=
  ∀ (F : List Word) (g fi gi k1 : Nat) (c1 s1 : Word),
    g ≤ fi → fi < g + k1 → g ≤ gi → gi < g + k1 → fi ≠ gi → g + 4 * k1 ≤ F.length →
    let c2 := fsub 0x3F800000#32 (fmul (fmul 0x40000000#32 s1) s1)
    let s2 := fmul (fmul 0x40000000#32 s1) c1
    let b := fsub (fmul s2 (bufAt F (fi + k1))) (fmul c2 (bufAt F (gi + k1)))
    let a := fadd (fmul c2 (bufAt F (fi + k1))) (fmul s2 (bufAt F (gi + k1)))
    let f1 := fsub (bufAt F fi) a
    let f0 := fadd (bufAt F fi) a
    let g1 := fsub (bufAt F gi) b
    let g0 := fadd (bufAt F gi) b
    let b' := fsub (fmul s2 (bufAt F (fi + 3 * k1))) (fmul c2 (bufAt F (gi + 3 * k1)))
    let a' := fadd (fmul c2 (bufAt F (fi + 3 * k1))) (fmul s2 (bufAt F (gi + 3 * k1)))
    let f3 := fsub (bufAt F (fi + 2 * k1)) a'
    let f2 := fadd (bufAt F (fi + 2 * k1)) a'
    let g3 := fsub (bufAt F (gi + 2 * k1)) b'
    let g2 := fadd (bufAt F (gi + 2 * k1)) b'
    let bf := fsub (fmul s1 f2) (fmul c1 g3)
    let af := fadd (fmul c1 f2) (fmul s1 g3)
    let bg := fsub (fmul c1 g2) (fmul s1 f3)
    let ag := fadd (fmul s1 g2) (fmul c1 f3)
    let G := butterflyRot F fi gi k1 { c1 := c1, s1 := s1 }
    bufAt G (fi + 2 * k1) = fsub f0 af ∧ bufAt G fi = fadd f0 af ∧
    bufAt G (gi + 3 * k1) = fsub g1 bf ∧ bufAt G (gi + k1) = fadd g1 bf ∧
    bufAt G (gi + 2 * k1) = fsub g0 ag ∧ bufAt G gi = fadd g0 ag ∧
    bufAt G (fi + 3 * k1) = fsub f1 bg ∧ bufAt G (fi + k1) = fadd f1 bg ∧
    (∀ j, j ∉ [fi, fi + k1, fi + 2 * k1, fi + 3 * k1, gi, gi + k1, gi + 2 * k1, gi + 3 * k1] →
      bufAt G j = bufAt F j)

/-- R187, R190: a stage's first rotation is its COSTAB pair, and each next one is the two-term
recurrence with that pair, both lines from the old c1; the pairs are those of R33. -/
def Obligations.RotationRecurrence : Prop :=
  ∀ (tri : Nat) (TC TS : Word),
    (tri, TC, TS) ∈ [(0, 0x3F6C835E#32, 0x3EC3EF15#32), (1, 0x3F7EC46D#32, 0x3DC8BD36#32),
      (2, 0x3F7FEC43#32, 0x3CC90AB0#32), (3, 0x3F7FFEC4#32, 0x3BC90F88#32)] →
    rotationSeed tri = { c1 := TC, s1 := TS } ∧
    ∀ r : Rotation, rotationNext tri r =
      { c1 := fsub (fmul r.c1 TC) (fmul r.s1 TS)
        s1 := fadd (fmul r.c1 TS) (fmul r.s1 TC) }

/-- R192: within a stage the groups may be taken in any order: the fixed butterflies, and the
rotation butterflies of one sub-index, give bit-identical results. -/
def Obligations.GroupOrderDoesNotMatter : Prop :=
  ∀ (N k1 : Nat) (F : List Word) (l : List Nat),
    (N, k1) ∈ [(16, 4), (64, 4), (64, 16), (256, 4), (256, 16), (256, 64), (1024, 4), (1024, 16),
      (1024, 64), (1024, 256)] →
    F.length = N → l.Perm (groupBases N (4 * k1)) →
    l.foldl (fun F g => butterflySqrt2 (butterfly0 F g k1) (g + k1 / 2) k1) F =
      fixedButterflies N k1 F ∧
    ∀ (i : Nat) (r : Rotation), 1 ≤ i → i < k1 / 2 →
      l.foldl (fun F g => butterflyRot F (g + i) (g + k1 - i) k1 r) F = rotButterflies N k1 i r F

/-- R195, its first corner: for every legal size and place, a buffer of +0 words is transformed to
+0 words. -/
def Obligations.FhtOfZeroIsZero : Prop :=
  ∀ (n : BitVec 10) (s : State), Memory.wf s.dmem →
    n.toNat ∈ [8, 32, 128, 512] → s.lsrc.toNat + 2 * n.toNat ≤ 2048 →
    (∀ j, j < 2 * n.toNat → readWord s.dmem (s.lsrc.toNat + j) = 0x00000000#32) →
    ∃ t, exec (.fht n) s = .next t ∧
      ∀ j, j < 2 * n.toNat → readWord t.dmem (s.lsrc.toNat + j) = 0x00000000#32

/-! ### POWLAW's reductions -/

/-- R155: zero padding does not influence the reductions: any number of +0 elements after the input
leaves SUM and MAX bit-identical. -/
def Obligations.ZeroPaddingKeepsReductions : Prop :=
  ∀ (xs : List Word) (k : Nat),
    powSum (xs ++ List.replicate k 0x00000000#32) = powSum xs ∧
    powMax (xs ++ List.replicate k 0x00000000#32) = powMax xs

/-- R156: MAX does not depend on the tree's shape: every binary tree that takes each of the eight lane
maxima once, in any order, reduces them to MAX, which is also the running maximum over all elements
in their order. -/
def Obligations.MaxIsIndependentOfTheTree : Prop :=
  ∀ xs : List Word,
    (∀ T : LaneTree, T.lanes.Perm (List.range 8) →
      T.reduce fmax (lanesFrom 0 xs Lanes.start).maxLane = powMax xs) ∧
    powMax xs = (xs.map powElement).foldl fmax 0x00000000#32

/-- R154: every transformed word, every SUM and every MAX is a non-negative value, -0 excluded, or
QNAN. -/
def Obligations.PowlawResultsAreNonnegative : Prop :=
  (∀ w : Word, isNonnegOrQnan (powElement w) = true) ∧
  (∀ xs : List Word, isNonnegOrQnan (powSum xs) = true ∧ isNonnegOrQnan (powMax xs) = true)

/-- R160's table: signed zeros, infinities and NaNs, ±1, and the two thresholds, for every input on
each side of them: up to 0x0D800000 the product underflows to 0, from 0x6A214518 on it overflows
to infinity, and in between the result is finite and not 0. -/
def Obligations.PowlawCornerInputs : Prop :=
  powElement 0x00000000#32 = 0x00000000#32 ∧ powElement 0x80000000#32 = 0x00000000#32 ∧
  powElement 0x3F800000#32 = 0x3F800000#32 ∧ powElement 0xBF800000#32 = 0x3F800000#32 ∧
  powElement 0x7F800000#32 = 0x7F800000#32 ∧ powElement 0xFF800000#32 = 0x7F800000#32 ∧
  powElement 0x0D800001#32 = 0x1A3504F3#32 ∧ powElement 0x6A214517#32 = 0x5F7FFFFF#32 ∧
  (∀ w : Word, isNan w = true → powElement w = 0x7FC00000#32) ∧
  (∀ w : Word, fmag w ≤ 0x0D800000 → powElement w = 0x00000000#32) ∧
  (∀ w : Word, 0x6A214518 ≤ fmag w → fmag w ≤ 0x7F800000 → powElement w = 0x7F800000#32) ∧
  (∀ w : Word, 0x0D800001 ≤ fmag w → fmag w ≤ 0x6A214517 →
    isFinite (powElement w) = true ∧ powElement w ≠ 0x00000000#32)

/-! ### Binary32 -/

/-- R12: `fabs` clears bit 31 and keeps the other bits, a NaN's payload among them. -/
def Obligations.FabsClearsOnlyTheSign : Prop :=
  ∀ w : Word, (fabs w).getLsbD 31 = false ∧ ∀ j, j < 31 → (fabs w).getLsbD j = w.getLsbD j

/-- R13: `fmax` propagates a NaN and is otherwise the first operand if its value is above the second's,
and else the second. -/
def Obligations.FmaxIsTheOrderedMaximum : Prop :=
  ∀ a b : Word,
    (isNan a = true ∨ isNan b = true → fmax a b = 0x7FC00000#32) ∧
    (isNan a = false → isNan b = false →
      (ValueAbove a b → fmax a b = a) ∧ (¬ ValueAbove a b → fmax a b = b))

/-- R10 (c): an operation's result is a NaN exactly on a NaN operand, ∞ − ∞, 0 × ∞ and the root of
a negative non-zero number, and then it is QNAN. -/
def Obligations.NanResultsAreCanonical : Prop :=
  ∀ a b : Word,
    (isNan (fadd a b) = true ↔
      isNan a = true ∨ isNan b = true ∨ (isInf a = true ∧ isInf b = true ∧ fneg a ≠ fneg b)) ∧
    (isNan (fsub a b) = true ↔
      isNan a = true ∨ isNan b = true ∨ (isInf a = true ∧ isInf b = true ∧ fneg a = fneg b)) ∧
    (isNan (fmul a b) = true ↔
      isNan a = true ∨ isNan b = true ∨ (isInf a = true ∧ isZero b = true) ∨
        (isZero a = true ∧ isInf b = true)) ∧
    (isNan (fsqrt a) = true ↔ isNan a = true ∨ (fneg a = true ∧ isZero a = false)) ∧
    (isNan (fadd a b) = true → fadd a b = 0x7FC00000#32) ∧
    (isNan (fsub a b) = true → fsub a b = 0x7FC00000#32) ∧
    (isNan (fmul a b) = true → fmul a b = 0x7FC00000#32) ∧
    (isNan (fsqrt a) = true → fsqrt a = 0x7FC00000#32)

/-- R10 (a): the sum and the difference of finite words are the exact ones rounded to nearest even;
overflow gives the infinity of its sign. -/
def Obligations.FaddIsCorrectlyRounded : Prop :=
  ∀ a b : Word, isFinite a = true → isFinite b = true →
    ((fval a + fval b).natAbs < overflowUnits → NearestEven (fadd a b) (fval a + fval b) 0) ∧
    (overflowUnits ≤ (fval a + fval b).natAbs →
      fadd a b = if fval a + fval b < 0 then 0xFF800000#32 else 0x7F800000#32) ∧
    ((fval a - fval b).natAbs < overflowUnits → NearestEven (fsub a b) (fval a - fval b) 0) ∧
    (overflowUnits ≤ (fval a - fval b).natAbs →
      fsub a b = if fval a - fval b < 0 then 0xFF800000#32 else 0x7F800000#32)

/-- R10 (a): the product of finite words, exact in units of 2^-298, is rounded to nearest even, with the XOR
of the signs; overflow gives the infinity of that sign. -/
def Obligations.FmulIsCorrectlyRounded : Prop :=
  ∀ a b : Word, isFinite a = true → isFinite b = true →
    fneg (fmul a b) = (fneg a != fneg b) ∧
    ((fval a * fval b).natAbs < overflowUnits * 2 ^ 149 →
      NearestEven (fmul a b) (fval a * fval b) 149) ∧
    (overflowUnits * 2 ^ 149 ≤ (fval a * fval b).natAbs → isInf (fmul a b) = true)

/-- R10 (a): the root of a positive finite word is the finite non-negative word nearest to the exact
root: for x = v·2^-149 the root is √(v·2^149) units, and no word on either side lies nearer. -/
def Obligations.FsqrtIsCorrectlyRounded : Prop :=
  ∀ a : Word, isFinite a = true → isZero a = false → fneg a = false →
    isFinite (fsqrt a) = true ∧ fneg (fsqrt a) = false ∧
    ∀ w : Word, isFinite w = true → fneg w = false →
      (fval (fsqrt a) < fval w → 4 * (fval a * 2 ^ 149) ≤ (fval (fsqrt a) + fval w) ^ 2) ∧
      (fval w < fval (fsqrt a) → (fval (fsqrt a) + fval w) ^ 2 ≤ 4 * (fval a * 2 ^ 149))

/-- The special cases of signed zeros and infinities, as R11 lists them "from general knowledge, not
in source" (spec/93 I1). -/
def Obligations.SpecialCasesOfSignedZeroAndInfinity : Prop :=
  (∀ a : Word, isFinite a = true → fadd a (fnegate a) = 0x00000000#32 ∧ fsub a a = 0x00000000#32) ∧
  fadd 0x00000000#32 0x80000000#32 = 0x00000000#32 ∧
  fadd 0x80000000#32 0x80000000#32 = 0x80000000#32 ∧
  (∀ a b : Word, isInf a = true → isFinite b = true → fadd a b = a ∧ fadd b a = a) ∧
  fadd 0x7F800000#32 0x7F800000#32 = 0x7F800000#32 ∧
  fsub 0x7F800000#32 0x7F800000#32 = 0x7FC00000#32 ∧
  fmul 0x00000000#32 0x7F800000#32 = 0x7FC00000#32 ∧
  (∀ a b : Word, isNan (fmul a b) = false → fneg (fmul a b) = (fneg a != fneg b)) ∧
  fsqrt 0x00000000#32 = 0x00000000#32 ∧ fsqrt 0x80000000#32 = 0x80000000#32 ∧
  fsqrt 0x7F800000#32 = 0x7F800000#32 ∧
  (∀ a : Word, isNan a = false → isZero a = false → fneg a = true → fsqrt a = 0x7FC00000#32)

/-- Sums and products do not depend on operand order, whatever the operands (R10), nor does a
difference that is a NaN (R10 (c), spec/92 D17), nor a maximum of two words that are not both zeros
(R13); and adding +0 or taking the maximum with +0 leaves a non-negative value or QNAN as it is
(R155). -/
def Obligations.OperandOrderAndZeroAreNeutral : Prop :=
  (∀ a b : Word, fadd a b = fadd b a ∧ fmul a b = fmul b a) ∧
  (∀ a b : Word, isNan (fsub a b) = true → fsub b a = fsub a b) ∧
  (∀ a b : Word, ¬ (isZero a = true ∧ isZero b = true) → fmax a b = fmax b a) ∧
  (∀ v : Word, isNonnegOrQnan v = true → fadd v 0x00000000#32 = v ∧ fmax v 0x00000000#32 = v)

/-! ### The whole machine -/

/-- R68, R110, R122: a step runs what the agenda says is next: one host access; or, with a command in flight,
the command that LCMD decodes to; an engine with no command in flight does nothing. The agenda is
the model's choice (log entry 1). -/
def Obligations.StepRunsTheDecodedCommand : Prop :=
  (∀ (s : State) (i : Instr), s.busy = true → decodeWord s.lcmd = .ok i →
    (s.agenda = [] → step s = exec i s) ∧
    (∀ rest, s.agenda = .engine :: rest → step s = exec i { s with agenda := rest })) ∧
  (∀ s : State, s.busy = false →
    (s.agenda = [] → step s = .next s) ∧
    (∀ rest, s.agenda = .engine :: rest → step s = .next { s with agenda := rest })) ∧
  (∀ (s : State) (a : Access) (rest : List Move), s.agenda = .host a :: rest →
    step s = .next (hostAccess a { s with agenda := rest }))

/-- Log entry 7: a word put where the next step fetches is run by that step, with the operands that
acceptance latches. -/
def Obligations.FetchedWordRunsNext : Prop :=
  ∀ (s : State) (w : Word) (i : Instr), decodeWord w = .ok i →
    step (s.withFetchWord 32 w.toNat) =
      exec i { s with
        lcmd := w, lsrc := s.srcBase, ldst := s.dstBase, lastCmd := w, done := false, busy := true }

/-- R261: the reset input puts every register at its reset value, IRQ low, whatever the state; each
DMEM word is unspecified, and holds a fresh draw of the free value DMEM_INIT, which the counter of
draws moves past (the model's form, log entry 4). -/
def Obligations.HardResetValues : Prop :=
  ∀ (s : State) (rest : List Move), s.agenda = .hardReset :: rest →
    ∃ t, step s = .next t ∧
      t = { State.reset with dmem := t.dmem, draws := t.draws, rdata := s.rdata, agenda := rest } ∧
      irq t = false ∧ Memory.wf t.dmem ∧ t.draws = s.draws + 2048 ∧
      ∀ a, a < 2048 → readWord t.dmem a = Config.dmemInit (s.draws + a)

/-- R261: the state right after reset, register by register, and IRQ low. -/
def Obligations.ResetStateRegisters : Prop :=
  State.reset.irqEn = false ∧ State.reset.busy = false ∧ State.reset.done = false ∧
  State.reset.err = false ∧ State.reset.accErr = false ∧ State.reset.errCode = 0#4 ∧
  State.reset.srcBase = 0#11 ∧ State.reset.dstBase = 0#11 ∧
  State.reset.sum = 0x00000000#32 ∧ State.reset.max = 0x00000000#32 ∧
  State.reset.lastCmd = 0x00000000#32 ∧ State.reset.errCmd = 0x00000000#32 ∧
  State.reset.accInfo = 0x00000000#32 ∧ State.reset.lcmd = 0x00000000#32 ∧
  State.reset.lsrc = 0#11 ∧ State.reset.ldst = 0#11 ∧ irq State.reset = false

/-- R263: a soft reset with a command in flight aborts it: every byte outside the command's write
footprint keeps its value, and each word of the footprint holds a fresh draw of the free value,
which the counter of draws moves past (the model's form of "any value", log entry 3). -/
def Obligations.AbortChangesOnlyTheFootprint : Prop :=
  ∀ (s : State) (w : Word) (i : Instr) (start count : Nat), s.Inv → s.busy = true →
    w.getLsbD 1 = true → decodeWord s.lcmd = .ok i →
    (start, count) = (match i with
      | .nop => (0, 0)
      | .powlaw m => (s.ldst.toNat, m.toNat + 1)
      | .fht n => (s.lsrc.toNat, 2 * n.toNat)) →
    let t := hostAccess (.write 0x008#14 0b1111#4 w) s
    t.busy = false ∧ t.done = false ∧ Memory.wf t.dmem ∧ t.draws = s.draws + count ∧
    (∀ c, ¬ (byteOffset start 0 ≤ c ∧ c < byteOffset (start + count) 0) →
      readByte t.dmem c = readByte s.dmem c) ∧
    (∀ k, k < count → readWord t.dmem (start + k) = Config.abortWord (s.draws + k))

/-- The state after reset meets the invariant. -/
def Obligations.ResetMeetsInvariant : Prop := State.reset.Inv

/-- From every state that meets the invariant, whatever step comes next, the next state meets it:
DMEM stays canonical, a command in flight stays one that acceptance admits, BUSY excludes DONE,
LASTCMD is what LCMD latched, the fault records are empty or full, and SUM and MAX stay
non-negative or QNAN (R26, R28, R122, R154, R221, R231). Which step comes next is the agenda's
(log entry 1). -/
def Obligations.StepKeepsInvariant : Prop :=
  ∀ s t : State, s.Inv → step s = .next t → t.Inv

/-- R275, "LAME-CORE never halts": from every state that meets the invariant, whatever step comes next, the
step answers a next state, and no run of any length stops. (Which steps a run takes is the
agenda's, log entry 1.) -/
def Obligations.MachineNeverHalts : Prop :=
  (∀ s : State, s.Inv → ∃ t, step s = .next t) ∧
  (∀ (s : State) (k : Nat), s.Inv → ∃ t, Host.Core.run Sys2Proof.core k s = .next t ∧ State.Inv t)

/-- R226: an accepted command always completes, whatever DMEM holds: the engine's turn answers a next state
with BUSY = 0 and DONE = 1, and neither fault record is touched. -/
def Obligations.AcceptedCommandAlwaysCompletes : Prop :=
  ∀ s : State, s.Inv → s.busy = true → ∃ t, engineTurn s = .next t ∧
    t.busy = false ∧ t.done = true ∧ t.err = s.err ∧ t.errCode = s.errCode ∧
    t.errCmd = s.errCmd ∧ t.accErr = s.accErr ∧ t.accInfo = s.accInfo

/-- The agenda's end (log entry 1, after R123): after the steps that the agenda lists and one more,
no command is in flight. -/
def Obligations.AgendaDrainsAndEngineIdles : Prop :=
  ∀ s : State, s.Inv →
    ∃ t : State, Host.Core.run Sys2Proof.core (s.agenda.length + 1) s = .next t ∧
      t.agenda = [] ∧ t.busy = false

/-- R69: while BUSY = 1, whatever the host does short of a soft reset, the words of DMEM, the latched
command and its operands, SUM and MAX stay as they are, and the command stays in flight; so the
words a command reads at its completion are those at its acceptance. (The spec derives R69 from
R117 and R36.) -/
def Obligations.BusyFreezesTheCommandsInput : Prop :=
  ∀ (as : List Access) (s : State), s.busy = true → (∀ a ∈ as, isSoftReset a = false) →
    let t := hostAccesses as s
    t.busy = true ∧ t.dmem = s.dmem ∧ t.lcmd = s.lcmd ∧ t.lsrc = s.lsrc ∧ t.ldst = s.ldst ∧
    t.sum = s.sum ∧ t.max = s.max ∧ t.lastCmd = s.lastCmd

/-- R271: a host write that clears DONE, taken before a completion, does not lose it: DONE ends at
1. -/
def Obligations.CompletionSetBeatsHostClear : Prop :=
  ∀ (s : State) (w : Word), s.Inv → s.busy = true →
    ∃ t, engineTurn (hostAccess (.write 0x00C#14 0b1111#4 w) s) = .next t ∧ t.done = true

/-- R27: SUM and MAX change only when a POWLAW completes or the block is reset. (Which step comes next
is the agenda's, log entry 1.) -/
def Obligations.OnlyPowlawWritesSumAndMax : Prop :=
  ∀ s t : State, s.Inv → step s = .next t → (t.sum ≠ s.sum ∨ t.max ≠ s.max) →
    (∃ rest, s.agenda = .hardReset :: rest) ∨
    (∃ a rest, s.agenda = .host a :: rest ∧ isSoftReset a = true) ∨
    (s.busy = true ∧ (∃ m, decodeWord s.lcmd = .ok (.powlaw m)) ∧
      (s.agenda = [] ∨ ∃ rest, s.agenda = .engine :: rest) ∧ t.done = true)

/-- R28: LASTCMD changes only when a CMD write is accepted, and then to the written word, or when the
block is reset. (Which step comes next is the agenda's, log entry 1.) -/
def Obligations.LastCmdIsTheLastAccepted : Prop :=
  ∀ s t : State, s.Inv → step s = .next t → t.lastCmd ≠ s.lastCmd →
    (∃ rest, s.agenda = .hardReset :: rest) ∨
    (∃ a rest, s.agenda = .host a :: rest ∧ isSoftReset a = true) ∨
    (∃ w rest, s.agenda = .host (.write 0x010#14 0b1111#4 w) :: rest ∧
      checkCommand w s.busy s.srcBase s.dstBase = none ∧ t.lastCmd = w)

/-- R37, D30: an engine's turn never changes what the host alone writes: IRQ_EN, SRC_BASE, DST_BASE,
LASTCMD, the latches, the fault records, the bus and the agenda. -/
def Obligations.EngineTurnFrame : Prop :=
  ∀ s t : State, s.Inv → engineTurn s = .next t →
    t = { s with dmem := t.dmem, sum := t.sum, max := t.max, busy := t.busy, done := t.done }

/-- R66, R7, R273: BASE_ADDR is 16 KiB aligned, the window holds exactly the addresses from it to
0x3FFF above it, IRQ drives the platform's line exactly while it is 1, and LATENCY is at least one
cycle. -/
def Obligations.PlatformParameters : Prop :=
  Config.baseAddr % 0x4000 = 0 ∧
  (∀ offset : Offset, windowOffset (Config.baseAddr + offset.toNat) = some offset) ∧
  (∀ a : Nat, a < Config.baseAddr ∨ Config.baseAddr + 0x4000 ≤ a → windowOffset a = none) ∧
  (∀ s : State, activeIrqLine s = some Config.irqLine ↔ irq s = true) ∧
  (∀ i : Instr, 1 ≤ latency i)
end

