-- ==== Sys2Proof/Laws/Decode.lean ====
section
/-! SUPPORT. The fields of a command word as numbers, which words select which row, and the report
words STATUS, CTRL and ACCINFO as numbers. -/

namespace Sys2Proof

theorem toNat_opcField (w : Word) : (opcField w).toNat = w.toNat % 16 := by
  simp [opcField, BitVec.extractLsb'_toNat]

theorem toNat_argField (w : Word) : (argField w).toNat = w.toNat / 16 % 1024 := by
  simp [argField, BitVec.extractLsb'_toNat, Nat.shiftRight_eq_div_pow]

theorem toNat_rsvdField (w : Word) : (rsvdField w).toNat = w.toNat / 16384 := by
  have := w.isLt
  simp [rsvdField, BitVec.extractLsb'_toNat, Nat.shiftRight_eq_div_pow]
  omega

/-- Two fields side by side, as a number. -/
theorem toNat_append_eq {m n : Nat} (x : BitVec m) (y : BitVec n) :
    (x ++ y).toNat = x.toNat * 2 ^ n + y.toNat := by
  rw [BitVec.toNat_append, Nat.shiftLeft_eq, Nat.mul_comm, ← Nat.two_pow_add_eq_or_of_lt y.isLt]

/-- The command word as a number: ARG above OPC, and nothing above ARG. -/
theorem toNat_encode (i : Instr) : (encode i).toNat = 16 * i.arg.toNat + i.opc.toNat := by
  have h : (encode i).toNat = ((0#18 ++ i.arg) ++ i.opc).toNat := rfl
  rw [h, toNat_append_eq, toNat_append_eq]
  simp
  omega

/-- The mask of the argument rows keeps OPC and RSVD. -/
theorem toNat_and_argMask (w : Word) :
    (w &&& 0xFFFFC00F#32).toNat = w.toNat % 16 + w.toNat / 16384 * 16384 := by
  have hw : w &&& 0xFFFFC00F#32 = (rsvdField w ++ 0#10) ++ opcField w := by
    apply BitVec.eq_of_getLsbD_eq
    intro j hj
    have hm : ∀ j : Fin 32, (0xFFFFC00F#32).getLsbD j = (decide (j.val < 4) || decide (14 ≤ j.val)) := by
      decide
    have hb := hm ⟨j, hj⟩
    simp only at hb
    rw [BitVec.getLsbD_and, hb, BitVec.getLsbD_append, BitVec.getLsbD_append]
    simp only [rsvdField, opcField, BitVec.getLsbD_extractLsb', BitVec.getLsbD_zero]
    by_cases h4 : j < 4
    · simp [h4]
    · by_cases h14 : j < 14
      · simp [h4, show j - 4 < 10 by omega, show ¬ 14 ≤ j by omega]
      · simp [h4, show ¬ j - 4 < 10 by omega, show 14 ≤ j by omega,
          show j - 4 - 10 < 18 by omega, show 14 + (j - 4 - 10) = j by omega]
  have ht : (w &&& 0xFFFFC00F#32).toNat = ((rsvdField w ++ 0#10) ++ opcField w).toNat := by rw [hw]
  rw [ht, toNat_append_eq, toNat_append_eq, toNat_rsvdField, toNat_opcField]
  simp
  omega

theorem selects_nop (w : Word) : selects w .nop = true ↔ w.toNat = 0 := by
  have h : w &&& 0xFFFFFFFF#32 = w := by simpa using @BitVec.and_allOnes 32 w
  simp only [selects, Instr.maskWord, Instr.matchWord, beq_iff_eq, h]
  rw [← BitVec.toNat_inj]
  rfl

theorem selects_powlaw (w : Word) (m : BitVec 10) :
    selects w (.powlaw m) = true ↔ w.toNat % 16 = 1 ∧ w.toNat / 16384 = 0 := by
  simp only [selects, Instr.maskWord, Instr.matchWord, beq_iff_eq]
  rw [← BitVec.toNat_inj, toNat_and_argMask]
  simp
  omega

theorem selects_fht (w : Word) (n : BitVec 10) :
    selects w (.fht n) = true ↔ w.toNat % 16 = 2 ∧ w.toNat / 16384 = 0 := by
  simp only [selects, Instr.maskWord, Instr.matchWord, beq_iff_eq]
  rw [← BitVec.toNat_inj, toNat_and_argMask]
  simp
  omega

namespace Machine

theorem toNat_accInfoWord (c : AccCause) (offset : Offset) (wr : Bool) :
    (accInfoWord c offset wr).toNat =
      65536 * (accCode c).toNat + 16384 * wr.toNat + offset.toNat := by
  have h : (accInfoWord c offset wr).toNat =
      ((((0#14 ++ accCode c) ++ 0#1) ++ BitVec.ofBool wr) ++ offset).toNat := rfl
  rw [h, toNat_append_eq, toNat_append_eq, toNat_append_eq, toNat_append_eq, BitVec.toNat_ofBool]
  simp
  omega

theorem toNat_statusWord (s : State) :
    (statusWord s).toNat = 256 * s.errCode.toNat + 8 * s.accErr.toNat + 4 * s.err.toNat
      + 2 * s.done.toNat + s.busy.toNat := by
  have h : (statusWord s).toNat = ((((((0#20 ++ s.errCode) ++ 0#4) ++ BitVec.ofBool s.accErr)
      ++ BitVec.ofBool s.err) ++ BitVec.ofBool s.done) ++ BitVec.ofBool s.busy).toNat := rfl
  rw [h, toNat_append_eq, toNat_append_eq, toNat_append_eq, toNat_append_eq, toNat_append_eq,
    toNat_append_eq]
  simp only [BitVec.toNat_ofBool]
  simp
  omega

theorem toNat_ctrlWord (s : State) : (ctrlWord s).toNat = s.irqEn.toNat := by
  have h : (ctrlWord s).toNat = (0#31 ++ BitVec.ofBool s.irqEn).toNat := rfl
  rw [h, toNat_append_eq, BitVec.toNat_ofBool]
  simp

/-! ### The registers that a write reaches -/

theorem hostAccess_write_ctrl (w : Word) (s : State) :
    hostAccess (.write 0x008#14 0b1111#4 w) s = ctrlWrite w s := by
  simp [hostAccess, hostWrite, accessCause, writeRegister, Config.dmemBase]

theorem hostAccess_write_status (w : Word) (s : State) :
    hostAccess (.write 0x00C#14 0b1111#4 w) s = statusW1C w s := by
  simp [hostAccess, hostWrite, accessCause, writeRegister, Config.dmemBase]

theorem hostAccess_write_cmd (w : Word) (s : State) :
    hostAccess (.write 0x010#14 0b1111#4 w) s = issueCommand w s := by
  simp [hostAccess, hostWrite, accessCause, writeRegister, Config.dmemBase]

theorem hostAccess_write_srcBase (w : Word) (s : State) :
    hostAccess (.write 0x014#14 0b1111#4 w) s = srcBaseWrite w s := by
  simp [hostAccess, hostWrite, accessCause, writeRegister, Config.dmemBase]

theorem hostAccess_write_dstBase (w : Word) (s : State) :
    hostAccess (.write 0x018#14 0b1111#4 w) s = dstBaseWrite w s := by
  simp [hostAccess, hostWrite, accessCause, writeRegister, Config.dmemBase]

end Machine

end Sys2Proof
end

