-- ==== Sys2Proof/Laws/Fht.lean ====
section
/-! SUPPORT. FHT keeps the length of its buffer, and one butterfly touches its own words only. -/

namespace Sys2Proof.Machine

@[simp] theorem length_putQuad (F : List Word) (p k1 : Nat) (w0 w1 w2 w3 : Word) :
    (putQuad F p k1 w0 w1 w2 w3).length = F.length := by simp [putQuad]

@[simp] theorem length_butterfly0 (F : List Word) (p k1 : Nat) :
    (butterfly0 F p k1).length = F.length := by simp [butterfly0, combineQuad]

@[simp] theorem length_butterflySqrt2 (F : List Word) (q k1 : Nat) :
    (butterflySqrt2 F q k1).length = F.length := by simp [butterflySqrt2, combineQuad]

@[simp] theorem length_butterflyRot (F : List Word) (fi gi k1 : Nat) (r : Rotation) :
    (butterflyRot F fi gi k1 r).length = F.length := by simp [butterflyRot, rotWrite]

/-- A fold of steps that each keep the length keeps the length. -/
theorem length_foldl {f : List Word → Nat → List Word} (hf : ∀ F g, (f F g).length = F.length)
    (l : List Nat) (F : List Word) : (l.foldl f F).length = F.length := by
  induction l generalizing F with
  | nil => rfl
  | cons g l ih => rw [List.foldl_cons, ih, hf]

@[simp] theorem length_fixedButterflies (N k1 : Nat) (F : List Word) :
    (fixedButterflies N k1 F).length = F.length := by
  unfold fixedButterflies
  exact length_foldl (by simp) _ F

@[simp] theorem length_rotButterflies (N k1 i : Nat) (r : Rotation) (F : List Word) :
    (rotButterflies N k1 i r F).length = F.length := by
  unfold rotButterflies
  exact length_foldl (by simp) _ F

@[simp] theorem length_rotLoop (N k1 tri count i : Nat) (r : Rotation) (F : List Word) :
    (rotLoop N k1 tri count i r F).length = F.length := by
  induction count generalizing i r F with
  | zero => rfl
  | succ count ih => rw [rotLoop, ih, length_rotButterflies]

@[simp] theorem length_fhtStage (N k1 tri : Nat) (F : List Word) :
    (fhtStage N k1 tri F).length = F.length := by simp [fhtStage]

@[simp] theorem length_fhtStages (N fuel k1 tri : Nat) (F : List Word) :
    (fhtStages N fuel k1 tri F).length = F.length := by
  induction fuel generalizing k1 tri F with
  | zero => rfl
  | succ fuel ih => unfold fhtStages; split <;> simp [ih]

@[simp] theorem length_fhtBuffer (N : Nat) (F : List Word) :
    (fhtBuffer N F).length = F.length := by simp [fhtBuffer]

/-- A word outside the four that `putQuad` replaces is unchanged. -/
theorem bufAt_putQuad_other (F : List Word) (p k1 : Nat) (w0 w1 w2 w3 : Word) {j : Nat}
    (h0 : j ≠ p) (h1 : j ≠ p + k1) (h2 : j ≠ p + 2 * k1) (h3 : j ≠ p + 3 * k1) :
    bufAt (putQuad F p k1 w0 w1 w2 w3) j = bufAt F j := by
  simp [bufAt, putQuad, List.getD_eq_getElem?_getD, Ne.symm h0, Ne.symm h1, Ne.symm h2,
    Ne.symm h3]

/-- The four words that `putQuad` replaces, when the stride is positive and all lie in the buffer. -/
theorem bufAt_putQuad_same (F : List Word) (p k1 : Nat) (w0 w1 w2 w3 : Word)
    (hk : 0 < k1) (hp : p + 3 * k1 < F.length) :
    bufAt (putQuad F p k1 w0 w1 w2 w3) p = w0 ∧
    bufAt (putQuad F p k1 w0 w1 w2 w3) (p + k1) = w1 ∧
    bufAt (putQuad F p k1 w0 w1 w2 w3) (p + 2 * k1) = w2 ∧
    bufAt (putQuad F p k1 w0 w1 w2 w3) (p + 3 * k1) = w3 := by
  refine ⟨?_, ?_, ?_, ?_⟩ <;>
    simp only [bufAt, putQuad, List.getD_eq_getElem?_getD, List.getElem?_set, List.length_set]
  · rw [if_neg (by omega), if_neg (by omega), if_neg (by omega), if_pos trivial, if_pos (by omega)]
    rfl
  · rw [if_neg (by omega), if_neg (by omega), if_pos trivial, if_pos (by omega)]
    rfl
  · rw [if_neg (by omega), if_pos trivial, if_pos (by omega)]
    rfl
  · rw [if_pos trivial, if_pos (by omega)]
    rfl

end Sys2Proof.Machine
end

