-- ==== Sys2Proof/Laws/Float.lean ====
section
/-! SUPPORT. The fields of a binary32 word, the magnitudes, the integer square root, and where each
primitive is a NaN. -/

namespace Sys2Proof.Machine

/-! ### Fields -/

theorem fmag_lt (w : Word) : fmag w < 2 ^ 31 := Nat.mod_lt _ (by decide)

theorem fneg_eq (w : Word) : fneg w = decide (2 ^ 31 ≤ w.toNat) := by
  simp only [fneg, BitVec.msb_eq_decide]

theorem toNat_eq (w : Word) : w.toNat = (if fneg w then 2 ^ 31 else 0) + fmag w := by
  have h := w.isLt
  rw [fneg_eq, fmag]
  by_cases hb : 2 ^ 31 ≤ w.toNat
  · simp only [hb, decide_true, if_true]; omega
  · simp only [hb, decide_false]; simp; omega

/-- A word is its sign and its magnitude field. -/
theorem word_ext {a b : Word} (hs : fneg a = fneg b) (hm : fmag a = fmag b) : a = b := by
  apply BitVec.eq_of_toNat_eq
  rw [toNat_eq a, toNat_eq b, hs, hm]

theorem toNat_fpack (neg : Bool) {m : Nat} (h : m < 2 ^ 31) :
    (fpack neg m).toNat = (if neg then 2 ^ 31 else 0) + m := by
  unfold fpack
  cases neg
  · simp [BitVec.toNat_ofNat]; omega
  · simp [BitVec.toNat_ofNat]; omega

@[simp] theorem fmag_fpack (neg : Bool) {m : Nat} (h : m < 2 ^ 31) : fmag (fpack neg m) = m := by
  rw [fmag, toNat_fpack neg h]
  cases neg
  · simp; omega
  · simp; omega

@[simp] theorem fneg_fpack (neg : Bool) {m : Nat} (h : m < 2 ^ 31) : fneg (fpack neg m) = neg := by
  rw [fneg_eq, toNat_fpack neg h]
  cases neg
  · simp; omega
  · simp

theorem fpack_self (w : Word) : fpack (fneg w) (fmag w) = w :=
  word_ext (fneg_fpack _ (fmag_lt w)) (fmag_fpack _ (fmag_lt w))

@[simp] theorem fmag_fabs (w : Word) : fmag (fabs w) = fmag w := by
  have h : (fabs w).toNat = w.toNat % 2 ^ 31 := by
    rw [fabs, BitVec.toNat_and]
    exact Nat.and_two_pow_sub_one_eq_mod w.toNat 31
  rw [fmag, fmag, h, Nat.mod_mod]

@[simp] theorem fneg_fabs (w : Word) : fneg (fabs w) = false := by
  have h : (0x7FFFFFFF#32 : Word).msb = false := by decide
  simp only [fneg, fabs, BitVec.msb_and, h, Bool.and_false]

@[simp] theorem fmag_fnegate (w : Word) : fmag (fnegate w) = fmag w := by
  have h : (fnegate w).toNat % 2 ^ 31 = w.toNat % 2 ^ 31 := by
    rw [fnegate, BitVec.toNat_xor, Nat.xor_mod_two_pow]
    simp
  exact h

@[simp] theorem fneg_fnegate (w : Word) : fneg (fnegate w) = !fneg w := by
  have h : (0x80000000#32 : Word).msb = true := by decide
  simp only [fneg, fnegate, BitVec.msb_xor, h, Bool.bne_true]

/-! ### Magnitudes -/

theorem magUnits_zero : magUnits 0 = 0 := by decide

/-- Magnitude fields order magnitudes: the next field is the next value. -/
theorem magUnits_lt_succ (m : Nat) : magUnits m < magUnits (m + 1) := by
  unfold magUnits
  have hp : ∀ k, 0 < 2 ^ k := fun k => Nat.two_pow_pos k
  by_cases h0 : m / 2 ^ 23 = 0
  · by_cases h1 : (m + 1) / 2 ^ 23 = 0
    · rw [if_pos h0, if_pos h1]
      omega
    · rw [if_pos h0, if_neg h1]
      have : (m + 1) / 2 ^ 23 = 1 := by omega
      rw [this]
      omega
  · have h1 : (m + 1) / 2 ^ 23 ≠ 0 := by omega
    rw [if_neg h0, if_neg h1]
    by_cases he : (m + 1) / 2 ^ 23 = m / 2 ^ 23
    · rw [he]
      exact Nat.mul_lt_mul_of_pos_right (by omega) (hp _)
    · have h2 : (m + 1) / 2 ^ 23 = m / 2 ^ 23 + 1 := by omega
      have h3 : m % 2 ^ 23 = 2 ^ 23 - 1 := by omega
      have h4 : (m + 1) % 2 ^ 23 = 0 := by omega
      rw [h2, h3, h4, show m / 2 ^ 23 + 1 - 1 = (m / 2 ^ 23 - 1) + 1 by omega, Nat.pow_succ]
      have h5 := hp (m / 2 ^ 23 - 1)
      generalize m / 2 ^ 23 - 1 = e at h5 ⊢
      omega

theorem magUnits_strictMono : StrictMono magUnits := strictMono_nat_of_lt_succ magUnits_lt_succ

theorem magUnits_inj {m n : Nat} : magUnits m = magUnits n ↔ m = n :=
  magUnits_strictMono.injective.eq_iff

theorem magUnits_eq_zero {m : Nat} : magUnits m = 0 ↔ m = 0 := by
  conv => lhs; rw [← magUnits_zero]
  exact magUnits_inj

theorem roundMag_le (n j : Nat) : roundMag n j ≤ infMag := by
  unfold roundMag
  exact Nat.min_le_right _ _

theorem infMag_lt : infMag < 2 ^ 31 := by decide

theorem roundMag_lt (n j : Nat) : roundMag n j < 2 ^ 31 := Nat.lt_of_le_of_lt (roundMag_le n j) infMag_lt

/-! ### The integer square root -/

theorem isqrtFrom_spec (n : Nat) : ∀ b acc, acc * acc ≤ n → n < (acc + 2 ^ b) * (acc + 2 ^ b) →
    isqrtFrom n b acc * isqrtFrom n b acc ≤ n ∧
      n < (isqrtFrom n b acc + 1) * (isqrtFrom n b acc + 1)
  | 0, acc, h1, h2 => by simpa [isqrtFrom] using ⟨h1, h2⟩
  | b + 1, acc, h1, h2 => by
    unfold isqrtFrom
    apply isqrtFrom_spec n b
    · split <;> assumption
    · split
      · have h3 : acc + 2 ^ b + 2 ^ b = acc + 2 ^ (b + 1) := by rw [Nat.pow_succ]; omega
        rw [h3]
        exact h2
      · omega

/-- `isqrt n` is the square root of `n` rounded down. -/
theorem isqrt_spec (n : Nat) : isqrt n * isqrt n ≤ n ∧ n < (isqrt n + 1) * (isqrt n + 1) := by
  unfold isqrt
  apply isqrtFrom_spec
  · omega
  · have h1 : n < 2 ^ (n.log2 + 1) := Nat.lt_log2_self
    have h2 : 2 ^ (n.log2 + 1) ≤ 2 ^ (n.log2 / 2 + 1 + (n.log2 / 2 + 1)) :=
      Nat.pow_le_pow_right (by decide) (by omega)
    rw [Nat.zero_add, ← Nat.pow_add]
    omega

/-! ### NaNs -/

theorem isNan_qnan : isNan qnan = true := by decide

theorem isNan_fpack (neg : Bool) {m : Nat} (h : m ≤ infMag) : isNan (fpack neg m) = false := by
  have : m < 2 ^ 31 := Nat.lt_of_le_of_lt h infMag_lt
  simp only [isNan, fmag_fpack neg this, decide_eq_false_iff_not]
  omega

theorem isNan_of_isInf {w : Word} (h : isInf w = true) : isNan w = false := by
  simp only [isInf, isNan, decide_eq_true_eq, decide_eq_false_iff_not] at *
  omega

theorem isNan_of_isFinite {w : Word} (h : isFinite w = true) : isNan w = false := by
  simp only [isFinite, isNan, decide_eq_true_eq, decide_eq_false_iff_not] at *
  omega

/-- A word that is no NaN is finite or an infinity. -/
theorem isFinite_or_isInf {w : Word} (h : isNan w = false) : isFinite w = true ∨ isInf w = true := by
  simp only [isFinite, isNan, isInf, decide_eq_true_eq, decide_eq_false_iff_not] at *
  omega

theorem isNan_faddFinite (a b : Word) : isNan (faddFinite a b) = false := by
  unfold faddFinite
  split
  · exact isNan_fpack _ (by decide)
  · exact isNan_fpack _ (roundMag_le _ _)

@[simp] theorem isNan_fnegate (w : Word) : isNan (fnegate w) = isNan w := by simp [isNan]
@[simp] theorem isNan_fabs (w : Word) : isNan (fabs w) = isNan w := by simp [isNan]
@[simp] theorem isInf_fabs (w : Word) : isInf (fabs w) = isInf w := by simp [isInf]

/-- A sum is QNAN or no NaN. -/
theorem fadd_qnan_or (a b : Word) : fadd a b = qnan ∨ isNan (fadd a b) = false := by
  unfold fadd
  split
  · exact .inl rfl
  · next h =>
    simp only [Bool.or_eq_true, not_or, Bool.not_eq_true] at h
    split
    · split
      · exact .inl rfl
      · exact .inr h.1
    · split
      · exact .inr h.2
      · exact .inr (isNan_faddFinite a b)

/-- A product is QNAN or no NaN. -/
theorem fmul_qnan_or (a b : Word) : fmul a b = qnan ∨ isNan (fmul a b) = false := by
  unfold fmul
  split
  · exact .inl rfl
  · split
    · split
      · exact .inl rfl
      · exact .inr (isNan_fpack _ (Nat.le_refl _))
    · exact .inr (isNan_fpack _ (roundMag_le _ _))

/-- A square root is QNAN or no NaN. -/
theorem fsqrt_qnan_or (a : Word) : fsqrt a = qnan ∨ isNan (fsqrt a) = false := by
  unfold fsqrt
  split
  · exact .inl rfl
  · next h =>
    simp only [Bool.not_eq_true] at h
    split
    · exact .inr h
    · split
      · exact .inl rfl
      · split
        · exact .inr h
        · exact .inr (isNan_fpack _ (roundMag_le _ _))

theorem fmax_qnan_or (a b : Word) : fmax a b = qnan ∨ isNan (fmax a b) = false := by
  unfold fmax
  split
  · exact .inl rfl
  · next h =>
    simp only [Bool.or_eq_true, not_or, Bool.not_eq_true] at h
    split
    · exact .inr h.1
    · exact .inr h.2

/-! ### Non-negative values and QNAN -/

theorem isNonnegOrQnan_iff (w : Word) :
    isNonnegOrQnan w = true ↔ w = qnan ∨ (fneg w = false ∧ isNan w = false) := by
  simp [isNonnegOrQnan]

theorem isNonnegOrQnan_fpack {m : Nat} (h : m ≤ infMag) : isNonnegOrQnan (fpack false m) = true :=
  (isNonnegOrQnan_iff _).mpr
    (.inr ⟨fneg_fpack _ (Nat.lt_of_le_of_lt h infMag_lt), isNan_fpack _ h⟩)

end Sys2Proof.Machine
end

