-- ==== Sys2Proof/Laws/Memory.lean ====
section
/-! SUPPORT. DMEM: a read after a write, what a write leaves alone, and the canonical form. -/

namespace Sys2Proof.Machine

/-! ### Bytes and words -/

theorem wordOfBytes_byteLane (w : Word) :
    wordOfBytes (byteLane w 0) (byteLane w 1) (byteLane w 2) (byteLane w 3) = w := by
  apply BitVec.eq_of_getLsbD_eq
  intro i hi
  simp only [wordOfBytes, byteLane, BitVec.getLsbD_append, BitVec.getLsbD_extractLsb']
  by_cases h0 : i < 8
  · simp [h0]
  · by_cases h1 : i < 16
    · have : i - 8 < 8 := by omega
      simp [h0, this, show 8 + (i - 8) = i by omega]
    · by_cases h2 : i < 24
      · have h3 : ¬ i - 8 < 8 := by omega
        have h4 : i - 8 - 8 < 8 := by omega
        simp [h0, h3, h4, show 16 + (i - 8 - 8) = i by omega]
      · have h3 : ¬ i - 8 < 8 := by omega
        have h4 : ¬ i - 8 - 8 < 8 := by omega
        have h5 : i - 8 - 8 - 8 < 8 := by omega
        simp [h0, h3, h4, h5, show 24 + (i - 8 - 8 - 8) = i by omega]

theorem wordBytes_wordOfBytes (b0 b1 b2 b3 : Byte) :
    wordBytes (wordOfBytes b0 b1 b2 b3) = [b0, b1, b2, b3] := by
  simp only [wordBytes, byteLane, wordOfBytes, List.cons.injEq, and_true]
  refine ⟨?_, ?_, ?_, ?_⟩ <;> apply BitVec.eq_of_getLsbD_eq <;> intro i hi <;>
    rw [BitVec.getLsbD_extractLsb'] <;> simp only [BitVec.getLsbD_append, decide_eq_true hi, Bool.true_and]
  · rw [if_pos (by omega)]; congr 1; omega
  · rw [if_neg (by omega), if_pos (by omega)]; congr 1; omega
  · rw [if_neg (by omega), if_neg (by omega), if_pos (by omega)]; congr 1; omega
  · rw [if_neg (by omega), if_neg (by omega), if_neg (by omega)]; congr 1; omega

/-! ### One byte -/

theorem readByte_cons (b : Nat) (v : Byte) (m : Memory) (a : Nat) :
    readByte ((b, v) :: m) a = if b = a then v else readByte m a := rfl

theorem readByte_nil (a : Nat) : readByte [] a = Memory.unlisted := rfl

/-- An address below every entry is unlisted. -/
theorem readByte_of_lt {m : Memory} {a : Nat} (h : ∀ c ∈ m, a < c.1) :
    readByte m a = Memory.unlisted := by
  induction m with
  | nil => rfl
  | cons c m ih =>
    obtain ⟨b, v⟩ := c
    have hb : a < b := h (b, v) (by simp)
    rw [readByte_cons, if_neg (by omega)]
    exact ih fun c hc => h c (by simp [hc])

theorem readByte_writeByte_other (m : Memory) {a c : Nat} (v : Byte) (h : c ≠ a) :
    readByte (writeByte m a v) c = readByte m c := by
  induction m with
  | nil =>
    unfold writeByte
    split
    · rfl
    · rw [readByte_cons, if_neg (by omega)]
  | cons e m ih =>
    obtain ⟨b, u⟩ := e
    unfold writeByte
    split
    · simp only [readByte_cons, ih]
    · split
      · subst b
        split <;> simp [readByte_cons, Ne.symm h]
      · split
        · rfl
        · rw [readByte_cons, if_neg (by omega)]

theorem readByte_writeByte_same {m : Memory} (hm : m.Pairwise fun c d => c.1 < d.1) (a : Nat)
    (v : Byte) : readByte (writeByte m a v) a = v := by
  induction m with
  | nil =>
    unfold writeByte
    split
    · next h => simp [readByte_nil, h]
    · simp [readByte_cons]
  | cons e m ih =>
    obtain ⟨b, u⟩ := e
    rw [List.pairwise_cons] at hm
    unfold writeByte
    split
    · next h => rw [readByte_cons, if_neg (by omega), ih hm.2]
    · split
      · next h =>
        subst b
        split
        · next hv => rw [hv]; exact readByte_of_lt fun c hc => hm.1 c hc
        · simp [readByte_cons]
      · split
        · next hlt hne hv =>
          rw [hv]
          apply readByte_of_lt
          intro c hc
          rcases List.mem_cons.mp hc with rfl | hc
          · simp; omega
          · have := hm.1 c hc; simp at this; omega
        · simp [readByte_cons]

/-- Every entry after a write is an old one or the written one. -/
theorem mem_writeByte {m : Memory} {a : Nat} {v : Byte} {c : Host.Cell}
    (h : c ∈ writeByte m a v) : c ∈ m ∨ (c = (a, v) ∧ v ≠ Memory.unlisted) := by
  induction m with
  | nil =>
    unfold writeByte at h
    split at h
    · simp at h
    · next hv => simp at h; exact .inr ⟨h, hv⟩
  | cons e m ih =>
    obtain ⟨b, u⟩ := e
    unfold writeByte at h
    split at h
    · rcases List.mem_cons.mp h with h | h
      · exact .inl (by simp [h])
      · rcases ih h with h | h
        · exact .inl (by simp [h])
        · exact .inr h
    · split at h
      · split at h
        · exact .inl (by simp [h])
        · next hv =>
          rcases List.mem_cons.mp h with h | h
          · exact .inr ⟨h, hv⟩
          · exact .inl (by simp [h])
      · split at h
        · exact .inl h
        · next hv =>
          rcases List.mem_cons.mp h with h | h
          · exact .inr ⟨h, hv⟩
          · exact .inl h

theorem writeByte_pairwise {m : Memory} (hm : m.Pairwise fun c d => c.1 < d.1) (a : Nat) (v : Byte) :
    (writeByte m a v).Pairwise fun c d => c.1 < d.1 := by
  induction m with
  | nil => unfold writeByte; split <;> simp
  | cons e m ih =>
    obtain ⟨b, u⟩ := e
    have hc := List.pairwise_cons.mp hm
    unfold writeByte
    split
    · next hlt =>
      refine List.pairwise_cons.mpr ⟨fun c hcm => ?_, ih hc.2⟩
      rcases mem_writeByte hcm with h | ⟨h, -⟩
      · exact hc.1 c h
      · simpa [h] using hlt
    · split
      · next heq =>
        split
        · exact hc.2
        · refine List.pairwise_cons.mpr ⟨fun c hcm => ?_, hc.2⟩
          have := hc.1 c hcm
          simp at this ⊢; omega
      · split
        · exact hm
        · refine List.pairwise_cons.mpr ⟨fun c hcm => ?_, hm⟩
          rcases List.mem_cons.mp hcm with rfl | h
          · simp; omega
          · have := hc.1 c h; simp at this ⊢; omega

/-- A byte write inside the DMEM window keeps the canonical form. -/
theorem writeByte_wf {m : Memory} (hm : Memory.wf m) {a : Nat} (v : Byte)
    (ha : Config.dmemBase ≤ a ∧ a < Config.windowBytes) : Memory.wf (writeByte m a v) := by
  refine ⟨writeByte_pairwise hm.1 a v, fun c hc => ?_⟩
  rcases mem_writeByte hc with h | ⟨rfl, hv⟩
  · exact hm.2 c h
  · exact ⟨ha.1, ha.2, hv⟩

/-- In canonical form, memories that read alike are equal lists. -/
theorem Memory.ext_of_wf {m n : Memory} (hm : Memory.wf m) (hn : Memory.wf n)
    (h : ∀ a, readByte m a = readByte n a) : m = n := by
  induction m generalizing n with
  | nil =>
    cases n with
    | nil => rfl
    | cons e n =>
      obtain ⟨b, v⟩ := e
      have h1 := h b
      have h2 := (hn.2 (b, v) (by simp)).2.2
      simp [readByte_nil, readByte_cons] at h1 h2
      exact absurd h1.symm h2
  | cons d m ih =>
    obtain ⟨a, u⟩ := d
    have hau := (hm.2 (a, u) (by simp)).2.2
    have hmc := List.pairwise_cons.mp hm.1
    cases n with
    | nil =>
      have h1 := h a
      simp [readByte_nil, readByte_cons] at h1 hau
      exact absurd h1 hau
    | cons e n =>
      obtain ⟨b, v⟩ := e
      have hbv := (hn.2 (b, v) (by simp)).2.2
      have hnc := List.pairwise_cons.mp hn.1
      have hab : a = b := by
        rcases Nat.lt_trichotomy a b with hlt | heq | hgt
        · have h1 := h a
          have h2 : readByte ((b, v) :: n) a = Memory.unlisted := by
            apply readByte_of_lt
            intro c hc
            rcases List.mem_cons.mp hc with rfl | hc
            · exact hlt
            · exact Nat.lt_trans hlt (hnc.1 c hc)
          rw [readByte_cons, if_pos rfl, h2] at h1
          exact absurd h1 hau
        · exact heq
        · have h1 := h b
          have h2 : readByte ((a, u) :: m) b = Memory.unlisted := by
            apply readByte_of_lt
            intro c hc
            rcases List.mem_cons.mp hc with rfl | hc
            · exact hgt
            · exact Nat.lt_trans hgt (hmc.1 c hc)
          rw [h2, readByte_cons, if_pos rfl] at h1
          exact absurd h1.symm hbv
      subst hab
      have huv : u = v := by simpa [readByte_cons] using h a
      subst huv
      have hrest : m = n := by
        refine ih ⟨hmc.2, fun c hc => hm.2 c (by simp [hc])⟩
          ⟨hnc.2, fun c hc => hn.2 c (by simp [hc])⟩ fun c => ?_
        by_cases hc : a = c
        · subst hc
          rw [readByte_of_lt fun c hc => hmc.1 c hc, readByte_of_lt fun c hc => hnc.1 c hc]
        · simpa [readByte_cons, hc] using h c
      rw [hrest]

/-! ### One word -/

theorem writeWord_pairwise {m : Memory} (hm : m.Pairwise fun c d => c.1 < d.1) (a : Nat) (w : Word) :
    (writeWord m a w).Pairwise fun c d => c.1 < d.1 :=
  writeByte_pairwise (writeByte_pairwise (writeByte_pairwise (writeByte_pairwise hm _ _) _ _) _ _) _ _

theorem writeWord_wf {m : Memory} (hm : Memory.wf m) {a : Nat} (w : Word)
    (ha : a < Config.dmemWords) : Memory.wf (writeWord m a w) := by
  have h : ∀ k, k < 4 → Config.dmemBase ≤ byteOffset a k ∧ byteOffset a k < Config.windowBytes := by
    intro k hk
    simp only [byteOffset, Config.dmemBase, Config.windowBytes, Config.dmemWords] at *
    omega
  exact writeByte_wf (writeByte_wf (writeByte_wf (writeByte_wf hm _ (h 0 (by omega))) _
    (h 1 (by omega))) _ (h 2 (by omega))) _ (h 3 (by omega))

/-- A word write leaves every byte outside its four lanes alone. -/
theorem readByte_writeWord_outside (m : Memory) (a : Nat) (w : Word) {c : Nat}
    (h : c < byteOffset a 0 ∨ byteOffset (a + 1) 0 ≤ c) :
    readByte (writeWord m a w) c = readByte m c := by
  unfold writeWord
  simp only [byteOffset] at *
  rw [readByte_writeByte_other _ _ (by omega), readByte_writeByte_other _ _ (by omega),
    readByte_writeByte_other _ _ (by omega), readByte_writeByte_other _ _ (by omega)]

/-- Each byte lane of a written word lands at its own offset. -/
theorem readByte_writeWord_lane {m : Memory} (hm : m.Pairwise fun c d => c.1 < d.1) (a : Nat)
    (w : Word) {k : Nat} (hk : k < 4) : readByte (writeWord m a w) (byteOffset a k) = byteLane w k := by
  have h1 := writeByte_pairwise hm (byteOffset a 0) (byteLane w 0)
  have h2 := writeByte_pairwise h1 (byteOffset a 1) (byteLane w 1)
  have h3 := writeByte_pairwise h2 (byteOffset a 2) (byteLane w 2)
  unfold writeWord
  rcases (by omega : k = 0 ∨ k = 1 ∨ k = 2 ∨ k = 3) with rfl | rfl | rfl | rfl
  · rw [readByte_writeByte_other _ _ (by simp only [byteOffset]; omega),
      readByte_writeByte_other _ _ (by simp only [byteOffset]; omega),
      readByte_writeByte_other _ _ (by simp only [byteOffset]; omega), readByte_writeByte_same hm]
  · rw [readByte_writeByte_other _ _ (by simp only [byteOffset]; omega),
      readByte_writeByte_other _ _ (by simp only [byteOffset]; omega), readByte_writeByte_same h1]
  · rw [readByte_writeByte_other _ _ (by simp only [byteOffset]; omega), readByte_writeByte_same h2]
  · rw [readByte_writeByte_same h3]

theorem readWord_writeWord_same {m : Memory} (hm : m.Pairwise fun c d => c.1 < d.1) (a : Nat)
    (w : Word) : readWord (writeWord m a w) a = w := by
  conv => rhs; rw [← wordOfBytes_byteLane w]
  unfold readWord
  rw [readByte_writeWord_lane hm a w (by decide), readByte_writeWord_lane hm a w (by decide),
    readByte_writeWord_lane hm a w (by decide), readByte_writeWord_lane hm a w (by decide)]

theorem readWord_writeWord_other (m : Memory) {a b : Nat} (w : Word) (h : b ≠ a) :
    readWord (writeWord m a w) b = readWord m b := by
  have hk : ∀ k, k < 4 → readByte (writeWord m a w) (byteOffset b k) = readByte m (byteOffset b k) := by
    intro k hk
    apply readByte_writeWord_outside
    simp only [byteOffset]
    omega
  unfold readWord
  rw [hk 0 (by omega), hk 1 (by omega), hk 2 (by omega), hk 3 (by omega)]

/-! ### Many words -/

theorem writeWords_nil (m : Memory) (a : Nat) : writeWords m a [] = m := rfl

theorem writeWords_cons (m : Memory) (a : Nat) (w : Word) (ws : List Word) :
    writeWords m a (w :: ws) = writeWords (writeWord m a w) (a + 1) ws := rfl

theorem writeWords_pairwise {m : Memory} (hm : m.Pairwise fun c d => c.1 < d.1) (a : Nat)
    (ws : List Word) : (writeWords m a ws).Pairwise fun c d => c.1 < d.1 := by
  induction ws generalizing m a with
  | nil => exact hm
  | cons w ws ih => exact ih (writeWord_pairwise hm a w) (a + 1)

theorem writeWords_wf {m : Memory} (hm : Memory.wf m) {a : Nat} (ws : List Word)
    (ha : a + ws.length ≤ Config.dmemWords) : Memory.wf (writeWords m a ws) := by
  induction ws generalizing m a with
  | nil => exact hm
  | cons w ws ih =>
    simp only [List.length_cons] at ha
    exact ih (writeWord_wf hm w (by omega)) (by omega)

theorem readByte_writeWords_outside (m : Memory) (a : Nat) (ws : List Word) {c : Nat}
    (h : c < byteOffset a 0 ∨ byteOffset (a + ws.length) 0 ≤ c) :
    readByte (writeWords m a ws) c = readByte m c := by
  induction ws generalizing m a with
  | nil => rfl
  | cons w ws ih =>
    simp only [List.length_cons, byteOffset] at h
    rw [writeWords_cons, ih _ _ (by simp only [byteOffset]; omega),
      readByte_writeWord_outside _ _ _ (by simp only [byteOffset]; omega)]

theorem readWord_writeWords_outside (m : Memory) (a : Nat) (ws : List Word) {b : Nat}
    (h : b < a ∨ a + ws.length ≤ b) : readWord (writeWords m a ws) b = readWord m b := by
  have hk : ∀ k, k < 4 →
      readByte (writeWords m a ws) (byteOffset b k) = readByte m (byteOffset b k) := by
    intro k hk
    apply readByte_writeWords_outside
    simp only [byteOffset]
    omega
  unfold readWord
  rw [hk 0 (by omega), hk 1 (by omega), hk 2 (by omega), hk 3 (by omega)]

theorem readWord_writeWords_inside {m : Memory} (hm : m.Pairwise fun c d => c.1 < d.1) (a : Nat)
    (ws : List Word) {i : Nat} (h : i < ws.length) :
    readWord (writeWords m a ws) (a + i) = ws[i] := by
  induction ws generalizing m a i with
  | nil => simp at h
  | cons w ws ih =>
    rw [writeWords_cons]
    cases i with
    | zero =>
      rw [readWord_writeWords_outside _ _ _ (by omega)]
      exact readWord_writeWord_same hm a w
    | succ i =>
      have hi : i < ws.length := by simpa using h
      rw [show a + (i + 1) = a + 1 + i by omega, ih (writeWord_pairwise hm a w) (a + 1) hi]
      rfl

@[simp] theorem length_readWords (m : Memory) (a n : Nat) : (readWords m a n).length = n := by
  simp [readWords]

theorem getElem_readWords (m : Memory) (a n i : Nat) (h : i < (readWords m a n).length) :
    (readWords m a n)[i] = readWord m (a + i) := by
  simp [readWords]

theorem readWords_congr {m m' : Memory} {a n : Nat}
    (h : ∀ i, i < n → readWord m (a + i) = readWord m' (a + i)) :
    readWords m a n = readWords m' a n := by
  unfold readWords
  apply List.map_congr_left
  intro i hi
  exact h i (List.mem_range.mp hi)

theorem readWords_writeWords {m : Memory} (hm : m.Pairwise fun c d => c.1 < d.1) (a : Nat)
    (ws : List Word) : readWords (writeWords m a ws) a ws.length = ws := by
  apply List.ext_getElem
  · simp
  · intro i h1 h2
    rw [getElem_readWords, readWord_writeWords_inside hm a ws h2]

@[simp] theorem length_drawWords (f : Nat → Word) (k n : Nat) : (drawWords f k n).length = n := by
  simp [drawWords]

theorem memory_nil_wf : Memory.wf [] := by simp [Memory.wf]

end Sys2Proof.Machine
end

