-- ==== Sys2Proof/Laws/State.lean ====
section
/-! SUPPORT. One lemma per field of State per update, true by rfl, so that no proof unfolds a
record update. -/

namespace Sys2Proof.Machine

/-! ### setAgenda -/

@[simp] theorem setAgenda_irqEn (rest : List Move) (s : State) :
    (setAgenda rest s).irqEn = s.irqEn := rfl

@[simp] theorem setAgenda_busy (rest : List Move) (s : State) :
    (setAgenda rest s).busy = s.busy := rfl

@[simp] theorem setAgenda_done (rest : List Move) (s : State) :
    (setAgenda rest s).done = s.done := rfl

@[simp] theorem setAgenda_err (rest : List Move) (s : State) :
    (setAgenda rest s).err = s.err := rfl

@[simp] theorem setAgenda_accErr (rest : List Move) (s : State) :
    (setAgenda rest s).accErr = s.accErr := rfl

@[simp] theorem setAgenda_errCode (rest : List Move) (s : State) :
    (setAgenda rest s).errCode = s.errCode := rfl

@[simp] theorem setAgenda_srcBase (rest : List Move) (s : State) :
    (setAgenda rest s).srcBase = s.srcBase := rfl

@[simp] theorem setAgenda_dstBase (rest : List Move) (s : State) :
    (setAgenda rest s).dstBase = s.dstBase := rfl

@[simp] theorem setAgenda_sum (rest : List Move) (s : State) :
    (setAgenda rest s).sum = s.sum := rfl

@[simp] theorem setAgenda_max (rest : List Move) (s : State) :
    (setAgenda rest s).max = s.max := rfl

@[simp] theorem setAgenda_lastCmd (rest : List Move) (s : State) :
    (setAgenda rest s).lastCmd = s.lastCmd := rfl

@[simp] theorem setAgenda_errCmd (rest : List Move) (s : State) :
    (setAgenda rest s).errCmd = s.errCmd := rfl

@[simp] theorem setAgenda_accInfo (rest : List Move) (s : State) :
    (setAgenda rest s).accInfo = s.accInfo := rfl

@[simp] theorem setAgenda_lcmd (rest : List Move) (s : State) :
    (setAgenda rest s).lcmd = s.lcmd := rfl

@[simp] theorem setAgenda_lsrc (rest : List Move) (s : State) :
    (setAgenda rest s).lsrc = s.lsrc := rfl

@[simp] theorem setAgenda_ldst (rest : List Move) (s : State) :
    (setAgenda rest s).ldst = s.ldst := rfl

@[simp] theorem setAgenda_dmem (rest : List Move) (s : State) :
    (setAgenda rest s).dmem = s.dmem := rfl

@[simp] theorem setAgenda_rdata (rest : List Move) (s : State) :
    (setAgenda rest s).rdata = s.rdata := rfl

@[simp] theorem setAgenda_agenda (rest : List Move) (s : State) :
    (setAgenda rest s).agenda = rest := rfl

@[simp] theorem setAgenda_draws (rest : List Move) (s : State) :
    (setAgenda rest s).draws = s.draws := rfl

/-! ### cmdFault -/

@[simp] theorem cmdFault_irqEn (c : CmdCause) (w : Word) (s : State) :
    (cmdFault c w s).irqEn = s.irqEn := rfl

@[simp] theorem cmdFault_busy (c : CmdCause) (w : Word) (s : State) :
    (cmdFault c w s).busy = s.busy := rfl

@[simp] theorem cmdFault_done (c : CmdCause) (w : Word) (s : State) :
    (cmdFault c w s).done = s.done := rfl

@[simp] theorem cmdFault_err (c : CmdCause) (w : Word) (s : State) :
    (cmdFault c w s).err = true := rfl

@[simp] theorem cmdFault_accErr (c : CmdCause) (w : Word) (s : State) :
    (cmdFault c w s).accErr = s.accErr := rfl

@[simp] theorem cmdFault_errCode (c : CmdCause) (w : Word) (s : State) :
    (cmdFault c w s).errCode = if s.err then s.errCode else cmdCode c := rfl

@[simp] theorem cmdFault_srcBase (c : CmdCause) (w : Word) (s : State) :
    (cmdFault c w s).srcBase = s.srcBase := rfl

@[simp] theorem cmdFault_dstBase (c : CmdCause) (w : Word) (s : State) :
    (cmdFault c w s).dstBase = s.dstBase := rfl

@[simp] theorem cmdFault_sum (c : CmdCause) (w : Word) (s : State) :
    (cmdFault c w s).sum = s.sum := rfl

@[simp] theorem cmdFault_max (c : CmdCause) (w : Word) (s : State) :
    (cmdFault c w s).max = s.max := rfl

@[simp] theorem cmdFault_lastCmd (c : CmdCause) (w : Word) (s : State) :
    (cmdFault c w s).lastCmd = s.lastCmd := rfl

@[simp] theorem cmdFault_errCmd (c : CmdCause) (w : Word) (s : State) :
    (cmdFault c w s).errCmd = if s.err then s.errCmd else w := rfl

@[simp] theorem cmdFault_accInfo (c : CmdCause) (w : Word) (s : State) :
    (cmdFault c w s).accInfo = s.accInfo := rfl

@[simp] theorem cmdFault_lcmd (c : CmdCause) (w : Word) (s : State) :
    (cmdFault c w s).lcmd = s.lcmd := rfl

@[simp] theorem cmdFault_lsrc (c : CmdCause) (w : Word) (s : State) :
    (cmdFault c w s).lsrc = s.lsrc := rfl

@[simp] theorem cmdFault_ldst (c : CmdCause) (w : Word) (s : State) :
    (cmdFault c w s).ldst = s.ldst := rfl

@[simp] theorem cmdFault_dmem (c : CmdCause) (w : Word) (s : State) :
    (cmdFault c w s).dmem = s.dmem := rfl

@[simp] theorem cmdFault_rdata (c : CmdCause) (w : Word) (s : State) :
    (cmdFault c w s).rdata = s.rdata := rfl

@[simp] theorem cmdFault_agenda (c : CmdCause) (w : Word) (s : State) :
    (cmdFault c w s).agenda = s.agenda := rfl

@[simp] theorem cmdFault_draws (c : CmdCause) (w : Word) (s : State) :
    (cmdFault c w s).draws = s.draws := rfl

/-! ### accFault -/

@[simp] theorem accFault_irqEn (c : AccCause) (offset : Offset) (wr : Bool) (s : State) :
    (accFault c offset wr s).irqEn = s.irqEn := rfl

@[simp] theorem accFault_busy (c : AccCause) (offset : Offset) (wr : Bool) (s : State) :
    (accFault c offset wr s).busy = s.busy := rfl

@[simp] theorem accFault_done (c : AccCause) (offset : Offset) (wr : Bool) (s : State) :
    (accFault c offset wr s).done = s.done := rfl

@[simp] theorem accFault_err (c : AccCause) (offset : Offset) (wr : Bool) (s : State) :
    (accFault c offset wr s).err = s.err := rfl

@[simp] theorem accFault_accErr (c : AccCause) (offset : Offset) (wr : Bool) (s : State) :
    (accFault c offset wr s).accErr = true := rfl

@[simp] theorem accFault_errCode (c : AccCause) (offset : Offset) (wr : Bool) (s : State) :
    (accFault c offset wr s).errCode = s.errCode := rfl

@[simp] theorem accFault_srcBase (c : AccCause) (offset : Offset) (wr : Bool) (s : State) :
    (accFault c offset wr s).srcBase = s.srcBase := rfl

@[simp] theorem accFault_dstBase (c : AccCause) (offset : Offset) (wr : Bool) (s : State) :
    (accFault c offset wr s).dstBase = s.dstBase := rfl

@[simp] theorem accFault_sum (c : AccCause) (offset : Offset) (wr : Bool) (s : State) :
    (accFault c offset wr s).sum = s.sum := rfl

@[simp] theorem accFault_max (c : AccCause) (offset : Offset) (wr : Bool) (s : State) :
    (accFault c offset wr s).max = s.max := rfl

@[simp] theorem accFault_lastCmd (c : AccCause) (offset : Offset) (wr : Bool) (s : State) :
    (accFault c offset wr s).lastCmd = s.lastCmd := rfl

@[simp] theorem accFault_errCmd (c : AccCause) (offset : Offset) (wr : Bool) (s : State) :
    (accFault c offset wr s).errCmd = s.errCmd := rfl

@[simp] theorem accFault_accInfo (c : AccCause) (offset : Offset) (wr : Bool) (s : State) :
    (accFault c offset wr s).accInfo = if s.accErr then s.accInfo else accInfoWord c offset wr := rfl

@[simp] theorem accFault_lcmd (c : AccCause) (offset : Offset) (wr : Bool) (s : State) :
    (accFault c offset wr s).lcmd = s.lcmd := rfl

@[simp] theorem accFault_lsrc (c : AccCause) (offset : Offset) (wr : Bool) (s : State) :
    (accFault c offset wr s).lsrc = s.lsrc := rfl

@[simp] theorem accFault_ldst (c : AccCause) (offset : Offset) (wr : Bool) (s : State) :
    (accFault c offset wr s).ldst = s.ldst := rfl

@[simp] theorem accFault_dmem (c : AccCause) (offset : Offset) (wr : Bool) (s : State) :
    (accFault c offset wr s).dmem = s.dmem := rfl

@[simp] theorem accFault_rdata (c : AccCause) (offset : Offset) (wr : Bool) (s : State) :
    (accFault c offset wr s).rdata = s.rdata := rfl

@[simp] theorem accFault_agenda (c : AccCause) (offset : Offset) (wr : Bool) (s : State) :
    (accFault c offset wr s).agenda = s.agenda := rfl

@[simp] theorem accFault_draws (c : AccCause) (offset : Offset) (wr : Bool) (s : State) :
    (accFault c offset wr s).draws = s.draws := rfl

/-! ### acceptCommand -/

@[simp] theorem acceptCommand_irqEn (w : Word) (s : State) :
    (acceptCommand w s).irqEn = s.irqEn := rfl

@[simp] theorem acceptCommand_busy (w : Word) (s : State) :
    (acceptCommand w s).busy = true := rfl

@[simp] theorem acceptCommand_done (w : Word) (s : State) :
    (acceptCommand w s).done = false := rfl

@[simp] theorem acceptCommand_err (w : Word) (s : State) :
    (acceptCommand w s).err = s.err := rfl

@[simp] theorem acceptCommand_accErr (w : Word) (s : State) :
    (acceptCommand w s).accErr = s.accErr := rfl

@[simp] theorem acceptCommand_errCode (w : Word) (s : State) :
    (acceptCommand w s).errCode = s.errCode := rfl

@[simp] theorem acceptCommand_srcBase (w : Word) (s : State) :
    (acceptCommand w s).srcBase = s.srcBase := rfl

@[simp] theorem acceptCommand_dstBase (w : Word) (s : State) :
    (acceptCommand w s).dstBase = s.dstBase := rfl

@[simp] theorem acceptCommand_sum (w : Word) (s : State) :
    (acceptCommand w s).sum = s.sum := rfl

@[simp] theorem acceptCommand_max (w : Word) (s : State) :
    (acceptCommand w s).max = s.max := rfl

@[simp] theorem acceptCommand_lastCmd (w : Word) (s : State) :
    (acceptCommand w s).lastCmd = w := rfl

@[simp] theorem acceptCommand_errCmd (w : Word) (s : State) :
    (acceptCommand w s).errCmd = s.errCmd := rfl

@[simp] theorem acceptCommand_accInfo (w : Word) (s : State) :
    (acceptCommand w s).accInfo = s.accInfo := rfl

@[simp] theorem acceptCommand_lcmd (w : Word) (s : State) :
    (acceptCommand w s).lcmd = w := rfl

@[simp] theorem acceptCommand_lsrc (w : Word) (s : State) :
    (acceptCommand w s).lsrc = s.srcBase := rfl

@[simp] theorem acceptCommand_ldst (w : Word) (s : State) :
    (acceptCommand w s).ldst = s.dstBase := rfl

@[simp] theorem acceptCommand_dmem (w : Word) (s : State) :
    (acceptCommand w s).dmem = s.dmem := rfl

@[simp] theorem acceptCommand_rdata (w : Word) (s : State) :
    (acceptCommand w s).rdata = s.rdata := rfl

@[simp] theorem acceptCommand_agenda (w : Word) (s : State) :
    (acceptCommand w s).agenda = s.agenda := rfl

@[simp] theorem acceptCommand_draws (w : Word) (s : State) :
    (acceptCommand w s).draws = s.draws := rfl

/-! ### finishCommand -/

@[simp] theorem finishCommand_irqEn (s : State) :
    (finishCommand s).irqEn = s.irqEn := rfl

@[simp] theorem finishCommand_busy (s : State) :
    (finishCommand s).busy = false := rfl

@[simp] theorem finishCommand_done (s : State) :
    (finishCommand s).done = true := rfl

@[simp] theorem finishCommand_err (s : State) :
    (finishCommand s).err = s.err := rfl

@[simp] theorem finishCommand_accErr (s : State) :
    (finishCommand s).accErr = s.accErr := rfl

@[simp] theorem finishCommand_errCode (s : State) :
    (finishCommand s).errCode = s.errCode := rfl

@[simp] theorem finishCommand_srcBase (s : State) :
    (finishCommand s).srcBase = s.srcBase := rfl

@[simp] theorem finishCommand_dstBase (s : State) :
    (finishCommand s).dstBase = s.dstBase := rfl

@[simp] theorem finishCommand_sum (s : State) :
    (finishCommand s).sum = s.sum := rfl

@[simp] theorem finishCommand_max (s : State) :
    (finishCommand s).max = s.max := rfl

@[simp] theorem finishCommand_lastCmd (s : State) :
    (finishCommand s).lastCmd = s.lastCmd := rfl

@[simp] theorem finishCommand_errCmd (s : State) :
    (finishCommand s).errCmd = s.errCmd := rfl

@[simp] theorem finishCommand_accInfo (s : State) :
    (finishCommand s).accInfo = s.accInfo := rfl

@[simp] theorem finishCommand_lcmd (s : State) :
    (finishCommand s).lcmd = s.lcmd := rfl

@[simp] theorem finishCommand_lsrc (s : State) :
    (finishCommand s).lsrc = s.lsrc := rfl

@[simp] theorem finishCommand_ldst (s : State) :
    (finishCommand s).ldst = s.ldst := rfl

@[simp] theorem finishCommand_dmem (s : State) :
    (finishCommand s).dmem = s.dmem := rfl

@[simp] theorem finishCommand_rdata (s : State) :
    (finishCommand s).rdata = s.rdata := rfl

@[simp] theorem finishCommand_agenda (s : State) :
    (finishCommand s).agenda = s.agenda := rfl

@[simp] theorem finishCommand_draws (s : State) :
    (finishCommand s).draws = s.draws := rfl

/-! ### statusW1C -/

@[simp] theorem statusW1C_irqEn (w : Word) (s : State) :
    (statusW1C w s).irqEn = s.irqEn := rfl

@[simp] theorem statusW1C_busy (w : Word) (s : State) :
    (statusW1C w s).busy = s.busy := rfl

@[simp] theorem statusW1C_done (w : Word) (s : State) :
    (statusW1C w s).done = (s.done && !w.getLsbD 1) := rfl

@[simp] theorem statusW1C_err (w : Word) (s : State) :
    (statusW1C w s).err = (s.err && !w.getLsbD 2) := rfl

@[simp] theorem statusW1C_accErr (w : Word) (s : State) :
    (statusW1C w s).accErr = (s.accErr && !w.getLsbD 3) := rfl

@[simp] theorem statusW1C_errCode (w : Word) (s : State) :
    (statusW1C w s).errCode = if w.getLsbD 2 then 0#4 else s.errCode := rfl

@[simp] theorem statusW1C_srcBase (w : Word) (s : State) :
    (statusW1C w s).srcBase = s.srcBase := rfl

@[simp] theorem statusW1C_dstBase (w : Word) (s : State) :
    (statusW1C w s).dstBase = s.dstBase := rfl

@[simp] theorem statusW1C_sum (w : Word) (s : State) :
    (statusW1C w s).sum = s.sum := rfl

@[simp] theorem statusW1C_max (w : Word) (s : State) :
    (statusW1C w s).max = s.max := rfl

@[simp] theorem statusW1C_lastCmd (w : Word) (s : State) :
    (statusW1C w s).lastCmd = s.lastCmd := rfl

@[simp] theorem statusW1C_errCmd (w : Word) (s : State) :
    (statusW1C w s).errCmd = if w.getLsbD 2 then 0#32 else s.errCmd := rfl

@[simp] theorem statusW1C_accInfo (w : Word) (s : State) :
    (statusW1C w s).accInfo = if w.getLsbD 3 then 0#32 else s.accInfo := rfl

@[simp] theorem statusW1C_lcmd (w : Word) (s : State) :
    (statusW1C w s).lcmd = s.lcmd := rfl

@[simp] theorem statusW1C_lsrc (w : Word) (s : State) :
    (statusW1C w s).lsrc = s.lsrc := rfl

@[simp] theorem statusW1C_ldst (w : Word) (s : State) :
    (statusW1C w s).ldst = s.ldst := rfl

@[simp] theorem statusW1C_dmem (w : Word) (s : State) :
    (statusW1C w s).dmem = s.dmem := rfl

@[simp] theorem statusW1C_rdata (w : Word) (s : State) :
    (statusW1C w s).rdata = s.rdata := rfl

@[simp] theorem statusW1C_agenda (w : Word) (s : State) :
    (statusW1C w s).agenda = s.agenda := rfl

@[simp] theorem statusW1C_draws (w : Word) (s : State) :
    (statusW1C w s).draws = s.draws := rfl

/-! ### respond -/

@[simp] theorem respond_irqEn (w : Word) (s : State) :
    (respond w s).irqEn = s.irqEn := rfl

@[simp] theorem respond_busy (w : Word) (s : State) :
    (respond w s).busy = s.busy := rfl

@[simp] theorem respond_done (w : Word) (s : State) :
    (respond w s).done = s.done := rfl

@[simp] theorem respond_err (w : Word) (s : State) :
    (respond w s).err = s.err := rfl

@[simp] theorem respond_accErr (w : Word) (s : State) :
    (respond w s).accErr = s.accErr := rfl

@[simp] theorem respond_errCode (w : Word) (s : State) :
    (respond w s).errCode = s.errCode := rfl

@[simp] theorem respond_srcBase (w : Word) (s : State) :
    (respond w s).srcBase = s.srcBase := rfl

@[simp] theorem respond_dstBase (w : Word) (s : State) :
    (respond w s).dstBase = s.dstBase := rfl

@[simp] theorem respond_sum (w : Word) (s : State) :
    (respond w s).sum = s.sum := rfl

@[simp] theorem respond_max (w : Word) (s : State) :
    (respond w s).max = s.max := rfl

@[simp] theorem respond_lastCmd (w : Word) (s : State) :
    (respond w s).lastCmd = s.lastCmd := rfl

@[simp] theorem respond_errCmd (w : Word) (s : State) :
    (respond w s).errCmd = s.errCmd := rfl

@[simp] theorem respond_accInfo (w : Word) (s : State) :
    (respond w s).accInfo = s.accInfo := rfl

@[simp] theorem respond_lcmd (w : Word) (s : State) :
    (respond w s).lcmd = s.lcmd := rfl

@[simp] theorem respond_lsrc (w : Word) (s : State) :
    (respond w s).lsrc = s.lsrc := rfl

@[simp] theorem respond_ldst (w : Word) (s : State) :
    (respond w s).ldst = s.ldst := rfl

@[simp] theorem respond_dmem (w : Word) (s : State) :
    (respond w s).dmem = s.dmem := rfl

@[simp] theorem respond_rdata (w : Word) (s : State) :
    (respond w s).rdata = w := rfl

@[simp] theorem respond_agenda (w : Word) (s : State) :
    (respond w s).agenda = s.agenda := rfl

@[simp] theorem respond_draws (w : Word) (s : State) :
    (respond w s).draws = s.draws := rfl

/-! ### irqEnWrite -/

@[simp] theorem irqEnWrite_irqEn (w : Word) (s : State) :
    (irqEnWrite w s).irqEn = w.getLsbD 0 := rfl

@[simp] theorem irqEnWrite_busy (w : Word) (s : State) :
    (irqEnWrite w s).busy = s.busy := rfl

@[simp] theorem irqEnWrite_done (w : Word) (s : State) :
    (irqEnWrite w s).done = s.done := rfl

@[simp] theorem irqEnWrite_err (w : Word) (s : State) :
    (irqEnWrite w s).err = s.err := rfl

@[simp] theorem irqEnWrite_accErr (w : Word) (s : State) :
    (irqEnWrite w s).accErr = s.accErr := rfl

@[simp] theorem irqEnWrite_errCode (w : Word) (s : State) :
    (irqEnWrite w s).errCode = s.errCode := rfl

@[simp] theorem irqEnWrite_srcBase (w : Word) (s : State) :
    (irqEnWrite w s).srcBase = s.srcBase := rfl

@[simp] theorem irqEnWrite_dstBase (w : Word) (s : State) :
    (irqEnWrite w s).dstBase = s.dstBase := rfl

@[simp] theorem irqEnWrite_sum (w : Word) (s : State) :
    (irqEnWrite w s).sum = s.sum := rfl

@[simp] theorem irqEnWrite_max (w : Word) (s : State) :
    (irqEnWrite w s).max = s.max := rfl

@[simp] theorem irqEnWrite_lastCmd (w : Word) (s : State) :
    (irqEnWrite w s).lastCmd = s.lastCmd := rfl

@[simp] theorem irqEnWrite_errCmd (w : Word) (s : State) :
    (irqEnWrite w s).errCmd = s.errCmd := rfl

@[simp] theorem irqEnWrite_accInfo (w : Word) (s : State) :
    (irqEnWrite w s).accInfo = s.accInfo := rfl

@[simp] theorem irqEnWrite_lcmd (w : Word) (s : State) :
    (irqEnWrite w s).lcmd = s.lcmd := rfl

@[simp] theorem irqEnWrite_lsrc (w : Word) (s : State) :
    (irqEnWrite w s).lsrc = s.lsrc := rfl

@[simp] theorem irqEnWrite_ldst (w : Word) (s : State) :
    (irqEnWrite w s).ldst = s.ldst := rfl

@[simp] theorem irqEnWrite_dmem (w : Word) (s : State) :
    (irqEnWrite w s).dmem = s.dmem := rfl

@[simp] theorem irqEnWrite_rdata (w : Word) (s : State) :
    (irqEnWrite w s).rdata = s.rdata := rfl

@[simp] theorem irqEnWrite_agenda (w : Word) (s : State) :
    (irqEnWrite w s).agenda = s.agenda := rfl

@[simp] theorem irqEnWrite_draws (w : Word) (s : State) :
    (irqEnWrite w s).draws = s.draws := rfl

/-! ### srcBaseWrite -/

@[simp] theorem srcBaseWrite_irqEn (w : Word) (s : State) :
    (srcBaseWrite w s).irqEn = s.irqEn := rfl

@[simp] theorem srcBaseWrite_busy (w : Word) (s : State) :
    (srcBaseWrite w s).busy = s.busy := rfl

@[simp] theorem srcBaseWrite_done (w : Word) (s : State) :
    (srcBaseWrite w s).done = s.done := rfl

@[simp] theorem srcBaseWrite_err (w : Word) (s : State) :
    (srcBaseWrite w s).err = s.err := rfl

@[simp] theorem srcBaseWrite_accErr (w : Word) (s : State) :
    (srcBaseWrite w s).accErr = s.accErr := rfl

@[simp] theorem srcBaseWrite_errCode (w : Word) (s : State) :
    (srcBaseWrite w s).errCode = s.errCode := rfl

@[simp] theorem srcBaseWrite_srcBase (w : Word) (s : State) :
    (srcBaseWrite w s).srcBase = w.setWidth 11 := rfl

@[simp] theorem srcBaseWrite_dstBase (w : Word) (s : State) :
    (srcBaseWrite w s).dstBase = s.dstBase := rfl

@[simp] theorem srcBaseWrite_sum (w : Word) (s : State) :
    (srcBaseWrite w s).sum = s.sum := rfl

@[simp] theorem srcBaseWrite_max (w : Word) (s : State) :
    (srcBaseWrite w s).max = s.max := rfl

@[simp] theorem srcBaseWrite_lastCmd (w : Word) (s : State) :
    (srcBaseWrite w s).lastCmd = s.lastCmd := rfl

@[simp] theorem srcBaseWrite_errCmd (w : Word) (s : State) :
    (srcBaseWrite w s).errCmd = s.errCmd := rfl

@[simp] theorem srcBaseWrite_accInfo (w : Word) (s : State) :
    (srcBaseWrite w s).accInfo = s.accInfo := rfl

@[simp] theorem srcBaseWrite_lcmd (w : Word) (s : State) :
    (srcBaseWrite w s).lcmd = s.lcmd := rfl

@[simp] theorem srcBaseWrite_lsrc (w : Word) (s : State) :
    (srcBaseWrite w s).lsrc = s.lsrc := rfl

@[simp] theorem srcBaseWrite_ldst (w : Word) (s : State) :
    (srcBaseWrite w s).ldst = s.ldst := rfl

@[simp] theorem srcBaseWrite_dmem (w : Word) (s : State) :
    (srcBaseWrite w s).dmem = s.dmem := rfl

@[simp] theorem srcBaseWrite_rdata (w : Word) (s : State) :
    (srcBaseWrite w s).rdata = s.rdata := rfl

@[simp] theorem srcBaseWrite_agenda (w : Word) (s : State) :
    (srcBaseWrite w s).agenda = s.agenda := rfl

@[simp] theorem srcBaseWrite_draws (w : Word) (s : State) :
    (srcBaseWrite w s).draws = s.draws := rfl

/-! ### dstBaseWrite -/

@[simp] theorem dstBaseWrite_irqEn (w : Word) (s : State) :
    (dstBaseWrite w s).irqEn = s.irqEn := rfl

@[simp] theorem dstBaseWrite_busy (w : Word) (s : State) :
    (dstBaseWrite w s).busy = s.busy := rfl

@[simp] theorem dstBaseWrite_done (w : Word) (s : State) :
    (dstBaseWrite w s).done = s.done := rfl

@[simp] theorem dstBaseWrite_err (w : Word) (s : State) :
    (dstBaseWrite w s).err = s.err := rfl

@[simp] theorem dstBaseWrite_accErr (w : Word) (s : State) :
    (dstBaseWrite w s).accErr = s.accErr := rfl

@[simp] theorem dstBaseWrite_errCode (w : Word) (s : State) :
    (dstBaseWrite w s).errCode = s.errCode := rfl

@[simp] theorem dstBaseWrite_srcBase (w : Word) (s : State) :
    (dstBaseWrite w s).srcBase = s.srcBase := rfl

@[simp] theorem dstBaseWrite_dstBase (w : Word) (s : State) :
    (dstBaseWrite w s).dstBase = w.setWidth 11 := rfl

@[simp] theorem dstBaseWrite_sum (w : Word) (s : State) :
    (dstBaseWrite w s).sum = s.sum := rfl

@[simp] theorem dstBaseWrite_max (w : Word) (s : State) :
    (dstBaseWrite w s).max = s.max := rfl

@[simp] theorem dstBaseWrite_lastCmd (w : Word) (s : State) :
    (dstBaseWrite w s).lastCmd = s.lastCmd := rfl

@[simp] theorem dstBaseWrite_errCmd (w : Word) (s : State) :
    (dstBaseWrite w s).errCmd = s.errCmd := rfl

@[simp] theorem dstBaseWrite_accInfo (w : Word) (s : State) :
    (dstBaseWrite w s).accInfo = s.accInfo := rfl

@[simp] theorem dstBaseWrite_lcmd (w : Word) (s : State) :
    (dstBaseWrite w s).lcmd = s.lcmd := rfl

@[simp] theorem dstBaseWrite_lsrc (w : Word) (s : State) :
    (dstBaseWrite w s).lsrc = s.lsrc := rfl

@[simp] theorem dstBaseWrite_ldst (w : Word) (s : State) :
    (dstBaseWrite w s).ldst = s.ldst := rfl

@[simp] theorem dstBaseWrite_dmem (w : Word) (s : State) :
    (dstBaseWrite w s).dmem = s.dmem := rfl

@[simp] theorem dstBaseWrite_rdata (w : Word) (s : State) :
    (dstBaseWrite w s).rdata = s.rdata := rfl

@[simp] theorem dstBaseWrite_agenda (w : Word) (s : State) :
    (dstBaseWrite w s).agenda = s.agenda := rfl

@[simp] theorem dstBaseWrite_draws (w : Word) (s : State) :
    (dstBaseWrite w s).draws = s.draws := rfl

/-! ### dmemWrite -/

@[simp] theorem dmemWrite_irqEn (a : Nat) (w : Word) (s : State) :
    (dmemWrite a w s).irqEn = s.irqEn := rfl

@[simp] theorem dmemWrite_busy (a : Nat) (w : Word) (s : State) :
    (dmemWrite a w s).busy = s.busy := rfl

@[simp] theorem dmemWrite_done (a : Nat) (w : Word) (s : State) :
    (dmemWrite a w s).done = s.done := rfl

@[simp] theorem dmemWrite_err (a : Nat) (w : Word) (s : State) :
    (dmemWrite a w s).err = s.err := rfl

@[simp] theorem dmemWrite_accErr (a : Nat) (w : Word) (s : State) :
    (dmemWrite a w s).accErr = s.accErr := rfl

@[simp] theorem dmemWrite_errCode (a : Nat) (w : Word) (s : State) :
    (dmemWrite a w s).errCode = s.errCode := rfl

@[simp] theorem dmemWrite_srcBase (a : Nat) (w : Word) (s : State) :
    (dmemWrite a w s).srcBase = s.srcBase := rfl

@[simp] theorem dmemWrite_dstBase (a : Nat) (w : Word) (s : State) :
    (dmemWrite a w s).dstBase = s.dstBase := rfl

@[simp] theorem dmemWrite_sum (a : Nat) (w : Word) (s : State) :
    (dmemWrite a w s).sum = s.sum := rfl

@[simp] theorem dmemWrite_max (a : Nat) (w : Word) (s : State) :
    (dmemWrite a w s).max = s.max := rfl

@[simp] theorem dmemWrite_lastCmd (a : Nat) (w : Word) (s : State) :
    (dmemWrite a w s).lastCmd = s.lastCmd := rfl

@[simp] theorem dmemWrite_errCmd (a : Nat) (w : Word) (s : State) :
    (dmemWrite a w s).errCmd = s.errCmd := rfl

@[simp] theorem dmemWrite_accInfo (a : Nat) (w : Word) (s : State) :
    (dmemWrite a w s).accInfo = s.accInfo := rfl

@[simp] theorem dmemWrite_lcmd (a : Nat) (w : Word) (s : State) :
    (dmemWrite a w s).lcmd = s.lcmd := rfl

@[simp] theorem dmemWrite_lsrc (a : Nat) (w : Word) (s : State) :
    (dmemWrite a w s).lsrc = s.lsrc := rfl

@[simp] theorem dmemWrite_ldst (a : Nat) (w : Word) (s : State) :
    (dmemWrite a w s).ldst = s.ldst := rfl

@[simp] theorem dmemWrite_dmem (a : Nat) (w : Word) (s : State) :
    (dmemWrite a w s).dmem = writeWord s.dmem a w := rfl

@[simp] theorem dmemWrite_rdata (a : Nat) (w : Word) (s : State) :
    (dmemWrite a w s).rdata = s.rdata := rfl

@[simp] theorem dmemWrite_agenda (a : Nat) (w : Word) (s : State) :
    (dmemWrite a w s).agenda = s.agenda := rfl

@[simp] theorem dmemWrite_draws (a : Nat) (w : Word) (s : State) :
    (dmemWrite a w s).draws = s.draws := rfl

/-! ### powOutput -/

@[simp] theorem powOutput_irqEn (m : BitVec 10) (s : State) :
    (powOutput m s).irqEn = s.irqEn := by
  simp only [powOutput]

@[simp] theorem powOutput_busy (m : BitVec 10) (s : State) :
    (powOutput m s).busy = s.busy := by
  simp only [powOutput]

@[simp] theorem powOutput_done (m : BitVec 10) (s : State) :
    (powOutput m s).done = s.done := by
  simp only [powOutput]

@[simp] theorem powOutput_err (m : BitVec 10) (s : State) :
    (powOutput m s).err = s.err := by
  simp only [powOutput]

@[simp] theorem powOutput_accErr (m : BitVec 10) (s : State) :
    (powOutput m s).accErr = s.accErr := by
  simp only [powOutput]

@[simp] theorem powOutput_errCode (m : BitVec 10) (s : State) :
    (powOutput m s).errCode = s.errCode := by
  simp only [powOutput]

@[simp] theorem powOutput_srcBase (m : BitVec 10) (s : State) :
    (powOutput m s).srcBase = s.srcBase := by
  simp only [powOutput]

@[simp] theorem powOutput_dstBase (m : BitVec 10) (s : State) :
    (powOutput m s).dstBase = s.dstBase := by
  simp only [powOutput]

@[simp] theorem powOutput_sum (m : BitVec 10) (s : State) :
    (powOutput m s).sum = powSum (powInput m s) := by
  simp only [powOutput]

@[simp] theorem powOutput_max (m : BitVec 10) (s : State) :
    (powOutput m s).max = powMax (powInput m s) := by
  simp only [powOutput]

@[simp] theorem powOutput_lastCmd (m : BitVec 10) (s : State) :
    (powOutput m s).lastCmd = s.lastCmd := by
  simp only [powOutput]

@[simp] theorem powOutput_errCmd (m : BitVec 10) (s : State) :
    (powOutput m s).errCmd = s.errCmd := by
  simp only [powOutput]

@[simp] theorem powOutput_accInfo (m : BitVec 10) (s : State) :
    (powOutput m s).accInfo = s.accInfo := by
  simp only [powOutput]

@[simp] theorem powOutput_lcmd (m : BitVec 10) (s : State) :
    (powOutput m s).lcmd = s.lcmd := by
  simp only [powOutput]

@[simp] theorem powOutput_lsrc (m : BitVec 10) (s : State) :
    (powOutput m s).lsrc = s.lsrc := by
  simp only [powOutput]

@[simp] theorem powOutput_ldst (m : BitVec 10) (s : State) :
    (powOutput m s).ldst = s.ldst := by
  simp only [powOutput]

@[simp] theorem powOutput_dmem (m : BitVec 10) (s : State) :
    (powOutput m s).dmem = writeWords s.dmem s.ldst.toNat ((powInput m s).map powElement) := by
  simp only [powOutput]

@[simp] theorem powOutput_rdata (m : BitVec 10) (s : State) :
    (powOutput m s).rdata = s.rdata := by
  simp only [powOutput]

@[simp] theorem powOutput_agenda (m : BitVec 10) (s : State) :
    (powOutput m s).agenda = s.agenda := by
  simp only [powOutput]

@[simp] theorem powOutput_draws (m : BitVec 10) (s : State) :
    (powOutput m s).draws = s.draws := by
  simp only [powOutput]

/-! ### fhtOutput -/

@[simp] theorem fhtOutput_irqEn (n : BitVec 10) (s : State) :
    (fhtOutput n s).irqEn = s.irqEn := by
  simp only [fhtOutput]

@[simp] theorem fhtOutput_busy (n : BitVec 10) (s : State) :
    (fhtOutput n s).busy = s.busy := by
  simp only [fhtOutput]

@[simp] theorem fhtOutput_done (n : BitVec 10) (s : State) :
    (fhtOutput n s).done = s.done := by
  simp only [fhtOutput]

@[simp] theorem fhtOutput_err (n : BitVec 10) (s : State) :
    (fhtOutput n s).err = s.err := by
  simp only [fhtOutput]

@[simp] theorem fhtOutput_accErr (n : BitVec 10) (s : State) :
    (fhtOutput n s).accErr = s.accErr := by
  simp only [fhtOutput]

@[simp] theorem fhtOutput_errCode (n : BitVec 10) (s : State) :
    (fhtOutput n s).errCode = s.errCode := by
  simp only [fhtOutput]

@[simp] theorem fhtOutput_srcBase (n : BitVec 10) (s : State) :
    (fhtOutput n s).srcBase = s.srcBase := by
  simp only [fhtOutput]

@[simp] theorem fhtOutput_dstBase (n : BitVec 10) (s : State) :
    (fhtOutput n s).dstBase = s.dstBase := by
  simp only [fhtOutput]

@[simp] theorem fhtOutput_sum (n : BitVec 10) (s : State) :
    (fhtOutput n s).sum = s.sum := by
  simp only [fhtOutput]

@[simp] theorem fhtOutput_max (n : BitVec 10) (s : State) :
    (fhtOutput n s).max = s.max := by
  simp only [fhtOutput]

@[simp] theorem fhtOutput_lastCmd (n : BitVec 10) (s : State) :
    (fhtOutput n s).lastCmd = s.lastCmd := by
  simp only [fhtOutput]

@[simp] theorem fhtOutput_errCmd (n : BitVec 10) (s : State) :
    (fhtOutput n s).errCmd = s.errCmd := by
  simp only [fhtOutput]

@[simp] theorem fhtOutput_accInfo (n : BitVec 10) (s : State) :
    (fhtOutput n s).accInfo = s.accInfo := by
  simp only [fhtOutput]

@[simp] theorem fhtOutput_lcmd (n : BitVec 10) (s : State) :
    (fhtOutput n s).lcmd = s.lcmd := by
  simp only [fhtOutput]

@[simp] theorem fhtOutput_lsrc (n : BitVec 10) (s : State) :
    (fhtOutput n s).lsrc = s.lsrc := by
  simp only [fhtOutput]

@[simp] theorem fhtOutput_ldst (n : BitVec 10) (s : State) :
    (fhtOutput n s).ldst = s.ldst := by
  simp only [fhtOutput]

@[simp] theorem fhtOutput_dmem (n : BitVec 10) (s : State) :
    (fhtOutput n s).dmem = writeWords s.dmem s.lsrc.toNat
      (fhtBuffer (fhtLength n) (readWords s.dmem s.lsrc.toNat (fhtLength n))) := by
  simp only [fhtOutput]

@[simp] theorem fhtOutput_rdata (n : BitVec 10) (s : State) :
    (fhtOutput n s).rdata = s.rdata := by
  simp only [fhtOutput]

@[simp] theorem fhtOutput_agenda (n : BitVec 10) (s : State) :
    (fhtOutput n s).agenda = s.agenda := by
  simp only [fhtOutput]

@[simp] theorem fhtOutput_draws (n : BitVec 10) (s : State) :
    (fhtOutput n s).draws = s.draws := by
  simp only [fhtOutput]

/-! ### resetRegisters -/

@[simp] theorem resetRegisters_irqEn (s : State) :
    (resetRegisters s).irqEn = false := rfl

@[simp] theorem resetRegisters_busy (s : State) :
    (resetRegisters s).busy = false := rfl

@[simp] theorem resetRegisters_done (s : State) :
    (resetRegisters s).done = false := rfl

@[simp] theorem resetRegisters_err (s : State) :
    (resetRegisters s).err = false := rfl

@[simp] theorem resetRegisters_accErr (s : State) :
    (resetRegisters s).accErr = false := rfl

@[simp] theorem resetRegisters_errCode (s : State) :
    (resetRegisters s).errCode = 0#4 := rfl

@[simp] theorem resetRegisters_srcBase (s : State) :
    (resetRegisters s).srcBase = 0#11 := rfl

@[simp] theorem resetRegisters_dstBase (s : State) :
    (resetRegisters s).dstBase = 0#11 := rfl

@[simp] theorem resetRegisters_sum (s : State) :
    (resetRegisters s).sum = 0#32 := rfl

@[simp] theorem resetRegisters_max (s : State) :
    (resetRegisters s).max = 0#32 := rfl

@[simp] theorem resetRegisters_lastCmd (s : State) :
    (resetRegisters s).lastCmd = 0#32 := rfl

@[simp] theorem resetRegisters_errCmd (s : State) :
    (resetRegisters s).errCmd = 0#32 := rfl

@[simp] theorem resetRegisters_accInfo (s : State) :
    (resetRegisters s).accInfo = 0#32 := rfl

@[simp] theorem resetRegisters_lcmd (s : State) :
    (resetRegisters s).lcmd = 0#32 := rfl

@[simp] theorem resetRegisters_lsrc (s : State) :
    (resetRegisters s).lsrc = 0#11 := rfl

@[simp] theorem resetRegisters_ldst (s : State) :
    (resetRegisters s).ldst = 0#11 := rfl

@[simp] theorem resetRegisters_dmem (s : State) :
    (resetRegisters s).dmem = s.dmem := rfl

@[simp] theorem resetRegisters_rdata (s : State) :
    (resetRegisters s).rdata = s.rdata := rfl

@[simp] theorem resetRegisters_agenda (s : State) :
    (resetRegisters s).agenda = s.agenda := rfl

@[simp] theorem resetRegisters_draws (s : State) :
    (resetRegisters s).draws = s.draws := rfl

/-! ### abortCommand -/

@[simp] theorem abortCommand_irqEn (s : State) :
    (abortCommand s).irqEn = s.irqEn := by
  simp only [abortCommand]

@[simp] theorem abortCommand_busy (s : State) :
    (abortCommand s).busy = s.busy := by
  simp only [abortCommand]

@[simp] theorem abortCommand_done (s : State) :
    (abortCommand s).done = s.done := by
  simp only [abortCommand]

@[simp] theorem abortCommand_err (s : State) :
    (abortCommand s).err = s.err := by
  simp only [abortCommand]

@[simp] theorem abortCommand_accErr (s : State) :
    (abortCommand s).accErr = s.accErr := by
  simp only [abortCommand]

@[simp] theorem abortCommand_errCode (s : State) :
    (abortCommand s).errCode = s.errCode := by
  simp only [abortCommand]

@[simp] theorem abortCommand_srcBase (s : State) :
    (abortCommand s).srcBase = s.srcBase := by
  simp only [abortCommand]

@[simp] theorem abortCommand_dstBase (s : State) :
    (abortCommand s).dstBase = s.dstBase := by
  simp only [abortCommand]

@[simp] theorem abortCommand_sum (s : State) :
    (abortCommand s).sum = s.sum := by
  simp only [abortCommand]

@[simp] theorem abortCommand_max (s : State) :
    (abortCommand s).max = s.max := by
  simp only [abortCommand]

@[simp] theorem abortCommand_lastCmd (s : State) :
    (abortCommand s).lastCmd = s.lastCmd := by
  simp only [abortCommand]

@[simp] theorem abortCommand_errCmd (s : State) :
    (abortCommand s).errCmd = s.errCmd := by
  simp only [abortCommand]

@[simp] theorem abortCommand_accInfo (s : State) :
    (abortCommand s).accInfo = s.accInfo := by
  simp only [abortCommand]

@[simp] theorem abortCommand_lcmd (s : State) :
    (abortCommand s).lcmd = s.lcmd := by
  simp only [abortCommand]

@[simp] theorem abortCommand_lsrc (s : State) :
    (abortCommand s).lsrc = s.lsrc := by
  simp only [abortCommand]

@[simp] theorem abortCommand_ldst (s : State) :
    (abortCommand s).ldst = s.ldst := by
  simp only [abortCommand]

@[simp] theorem abortCommand_dmem (s : State) :
    (abortCommand s).dmem = writeWords s.dmem (inFlightFootprint s).1
      ((drawWords Config.abortWord s.draws (inFlightFootprint s).2).take
        (Config.dmemWords - (inFlightFootprint s).1)) := by
  simp only [abortCommand]

@[simp] theorem abortCommand_rdata (s : State) :
    (abortCommand s).rdata = s.rdata := by
  simp only [abortCommand]

@[simp] theorem abortCommand_agenda (s : State) :
    (abortCommand s).agenda = s.agenda := by
  simp only [abortCommand]

@[simp] theorem abortCommand_draws (s : State) :
    (abortCommand s).draws = s.draws + (inFlightFootprint s).2 := by
  simp only [abortCommand]

/-! ### hardReset -/

@[simp] theorem hardReset_irqEn (s : State) :
    (hardReset s).irqEn = false := by
  simp only [hardReset, resetRegisters]

@[simp] theorem hardReset_busy (s : State) :
    (hardReset s).busy = false := by
  simp only [hardReset, resetRegisters]

@[simp] theorem hardReset_done (s : State) :
    (hardReset s).done = false := by
  simp only [hardReset, resetRegisters]

@[simp] theorem hardReset_err (s : State) :
    (hardReset s).err = false := by
  simp only [hardReset, resetRegisters]

@[simp] theorem hardReset_accErr (s : State) :
    (hardReset s).accErr = false := by
  simp only [hardReset, resetRegisters]

@[simp] theorem hardReset_errCode (s : State) :
    (hardReset s).errCode = 0#4 := by
  simp only [hardReset, resetRegisters]

@[simp] theorem hardReset_srcBase (s : State) :
    (hardReset s).srcBase = 0#11 := by
  simp only [hardReset, resetRegisters]

@[simp] theorem hardReset_dstBase (s : State) :
    (hardReset s).dstBase = 0#11 := by
  simp only [hardReset, resetRegisters]

@[simp] theorem hardReset_sum (s : State) :
    (hardReset s).sum = 0#32 := by
  simp only [hardReset, resetRegisters]

@[simp] theorem hardReset_max (s : State) :
    (hardReset s).max = 0#32 := by
  simp only [hardReset, resetRegisters]

@[simp] theorem hardReset_lastCmd (s : State) :
    (hardReset s).lastCmd = 0#32 := by
  simp only [hardReset, resetRegisters]

@[simp] theorem hardReset_errCmd (s : State) :
    (hardReset s).errCmd = 0#32 := by
  simp only [hardReset, resetRegisters]

@[simp] theorem hardReset_accInfo (s : State) :
    (hardReset s).accInfo = 0#32 := by
  simp only [hardReset, resetRegisters]

@[simp] theorem hardReset_lcmd (s : State) :
    (hardReset s).lcmd = 0#32 := by
  simp only [hardReset, resetRegisters]

@[simp] theorem hardReset_lsrc (s : State) :
    (hardReset s).lsrc = 0#11 := by
  simp only [hardReset, resetRegisters]

@[simp] theorem hardReset_ldst (s : State) :
    (hardReset s).ldst = 0#11 := by
  simp only [hardReset, resetRegisters]

@[simp] theorem hardReset_dmem (s : State) :
    (hardReset s).dmem = writeWords [] 0 (drawWords Config.dmemInit s.draws Config.dmemWords) := by
  simp only [hardReset, resetRegisters]

@[simp] theorem hardReset_rdata (s : State) :
    (hardReset s).rdata = s.rdata := by
  simp only [hardReset, resetRegisters]

@[simp] theorem hardReset_agenda (s : State) :
    (hardReset s).agenda = s.agenda := by
  simp only [hardReset, resetRegisters]

@[simp] theorem hardReset_draws (s : State) :
    (hardReset s).draws = s.draws + Config.dmemWords := by
  simp only [hardReset, resetRegisters]

end Sys2Proof.Machine
end

