-- ==== Sys2Proof/Laws/Ops.lean ====
section
/-! SUPPORT. What each shared operation can do, said once: the operand checks, issue, the access
check, an instruction's outcome, and the abort's footprint. -/

namespace Sys2Proof.Machine

/-! ### The operand checks -/

/-- When POWLAW's operands pass: the bound is legal, both buffers lie in DMEM, and they are the
same buffer or disjoint ones (R225). -/
theorem powlawCause_eq_none (m : BitVec 10) (src dst : WordAddr) :
    powlawCause m src dst = none ↔
      m.toNat ≤ 575 ∧ src.toNat + m.toNat ≤ 2047 ∧ dst.toNat + m.toNat ≤ 2047 ∧
        (src = dst ∨ dst.toNat + m.toNat < src.toNat ∨ src.toNat + m.toNat < dst.toNat) := by
  unfold powlawCause
  split
  · simp; omega
  · split
    · simp; omega
    · split
      · next h => simp; intros; refine ⟨h.1, ?_, ?_⟩ <;> omega
      · next h1 h2 h3 =>
        simp only [true_iff]
        refine ⟨by omega, by omega, by omega, ?_⟩
        by_cases he : src = dst
        · exact .inl he
        · right
          by_contra hc
          exact h3 ⟨he, by omega, by omega⟩

theorem legalHalfSize_pos {n : BitVec 10} (h : legalHalfSize n = true) : 8 ≤ n.toNat := by
  simp [legalHalfSize] at h
  omega

/-- When FHT's operands pass: a legal half-size and a buffer inside DMEM (R225). -/
theorem fhtCause_eq_none (n : BitVec 10) (src : WordAddr) :
    fhtCause n src = none ↔ legalHalfSize n = true ∧ src.toNat + fhtLength n ≤ Config.dmemWords := by
  unfold fhtCause
  simp only [fhtLength, Config.dmemWords]
  split
  · next h => simp [h]
  · next h =>
    simp only [Bool.not_eq_false] at h
    have := legalHalfSize_pos h
    split
    · simp [h]; omega
    · simp [h]; omega

/-- A command that passes the checks writes inside DMEM. -/
theorem footprint_le {i : Instr} {src dst : WordAddr} (h : operandCause i src dst = none) :
    (footprint i src dst).1 + (footprint i src dst).2 ≤ Config.dmemWords := by
  cases i with
  | nop => simp [footprint]
  | powlaw m =>
    have := (powlawCause_eq_none m src dst).mp h
    simp only [footprint, Config.dmemWords]
    omega
  | fht n => exact ((fhtCause_eq_none n src).mp h).2

/-! ### Issue -/

/-- A write to CMD takes a command fault or accepts the command. -/
theorem issueCommand_cases (w : Word) (s : State) :
    (∃ c, checkCommand w s.busy s.srcBase s.dstBase = some c ∧ issueCommand w s = cmdFault c w s) ∨
      (checkCommand w s.busy s.srcBase s.dstBase = none ∧ issueCommand w s = acceptCommand w s) := by
  unfold issueCommand
  split
  · next c h => exact .inl ⟨c, h, rfl⟩
  · next h => exact .inr ⟨h, rfl⟩

/-- What acceptance says of the command. -/
theorem checkCommand_eq_none {w : Word} {busy : Bool} {src dst : WordAddr}
    (h : checkCommand w busy src dst = none) :
    busy = false ∧ ∃ i, decodeWord w = .ok i ∧ operandCause i src dst = none := by
  unfold checkCommand at h
  split at h
  · simp at h
  · next hb =>
    split at h
    · simp at h
    · simp at h
    · next i hi => exact ⟨by simpa using hb, i, hi, h⟩

/-! ### An instruction's outcome -/

theorem execPowlaw_of_none {m : BitVec 10} {s : State} (h : powlawCause m s.lsrc s.ldst = none) :
    execPowlaw m s = .next (finishCommand (powOutput m s)) := by simp only [execPowlaw, h]

theorem execPowlaw_of_some {m : BitVec 10} {s : State} {c : CmdCause}
    (h : powlawCause m s.lsrc s.ldst = some c) :
    execPowlaw m s = .next (cmdFault c (encode (.powlaw m)) s) := by simp only [execPowlaw, h]

theorem execFht_of_none {n : BitVec 10} {s : State} (h : fhtCause n s.lsrc = none) :
    execFht n s = .next (finishCommand (fhtOutput n s)) := by simp only [execFht, h]

theorem execFht_of_some {n : BitVec 10} {s : State} {c : CmdCause}
    (h : fhtCause n s.lsrc = some c) :
    execFht n s = .next (cmdFault c (encode (.fht n)) s) := by simp only [execFht, h]

/-- Everything an instruction can do: latched operands that fail the checks take the command
fault; otherwise the completion step of its own. -/
theorem exec_cases {i : Instr} {s t : State} (h : exec i s = .next t) :
    (∃ c, operandCause i s.lsrc s.ldst = some c ∧ t = cmdFault c (encode i) s) ∨
    (operandCause i s.lsrc s.ldst = none ∧
      ((i = .nop ∧ t = finishCommand s) ∨
       (∃ m, i = .powlaw m ∧ t = finishCommand (powOutput m s)) ∨
       (∃ n, i = .fht n ∧ t = finishCommand (fhtOutput n s)))) := by
  cases i with
  | nop =>
    right
    refine ⟨rfl, .inl ⟨rfl, ?_⟩⟩
    simp only [exec, execNop, Host.Outcome.next.injEq] at h
    exact h.symm
  | powlaw m =>
    simp only [exec] at h
    cases hc : powlawCause m s.lsrc s.ldst with
    | some c =>
      rw [execPowlaw_of_some hc, Host.Outcome.next.injEq] at h
      exact .inl ⟨c, hc, h.symm⟩
    | none =>
      rw [execPowlaw_of_none hc, Host.Outcome.next.injEq] at h
      exact .inr ⟨hc, .inr (.inl ⟨m, rfl, h.symm⟩)⟩
  | fht n =>
    simp only [exec] at h
    cases hc : fhtCause n s.lsrc with
    | some c =>
      rw [execFht_of_some hc, Host.Outcome.next.injEq] at h
      exact .inl ⟨c, hc, h.symm⟩
    | none =>
      rw [execFht_of_none hc, Host.Outcome.next.injEq] at h
      exact .inr ⟨hc, .inr (.inr ⟨n, rfl, h.symm⟩)⟩

/-! ### Host accesses -/

/-- A refused read returns 0 and records the refusal. -/
theorem hostRead_of_some {offset : Offset} {be : BitVec 4} {s : State} {c : AccCause}
    (h : accessCause offset be s.busy = some c) :
    hostRead offset be s = respond 0#32 (accFault c offset false s) := by
  simp only [hostRead, hostReadData, recordAccess, h]

/-- A read that is not refused changes nothing but what the host receives. -/
theorem hostRead_of_none {offset : Offset} {be : BitVec 4} {s : State}
    (h : accessCause offset be s.busy = none) :
    hostRead offset be s = respond (hostReadData offset be s) s := by
  simp only [hostRead, recordAccess, h]

theorem hostWrite_of_some {offset : Offset} {be : BitVec 4} {w : Word} {s : State} {c : AccCause}
    (h : accessCause offset be s.busy = some c) :
    hostWrite offset be w s = accFault c offset true s := by simp only [hostWrite, h]

theorem hostWrite_of_none {offset : Offset} {be : BitVec 4} {w : Word} {s : State}
    (h : accessCause offset be s.busy = none) :
    hostWrite offset be w s =
      if Config.dmemBase ≤ offset.toNat then dmemWrite (dmemIndex offset) w s
      else writeRegister offset w s := by simp only [hostWrite, h]

/-- Everything a well-formed register write can do. -/
theorem writeRegister_cases (offset : Offset) (w : Word) (s : State) :
    (w.getLsbD 1 = true ∧ offset.toNat = 0x008 ∧ writeRegister offset w s = softReset s) ∨
    writeRegister offset w s = irqEnWrite w s ∨ writeRegister offset w s = statusW1C w s ∨
    writeRegister offset w s = issueCommand w s ∨ writeRegister offset w s = srcBaseWrite w s ∨
    writeRegister offset w s = dstBaseWrite w s ∨ writeRegister offset w s = s := by
  unfold writeRegister ctrlWrite
  split
  · next h8 =>
    split
    · next h1 => exact .inl ⟨h1, h8, rfl⟩
    · simp
  all_goals (repeat' split) <;> simp

theorem dmemIndex_lt (offset : Offset) : dmemIndex offset < Config.dmemWords := by
  have := offset.isLt
  simp only [dmemIndex, Config.dmemBase, Config.dmemWords]
  omega

/-- Everything one host access can do. -/
theorem hostAccess_cases (a : Access) (s : State) :
    (∃ w, hostAccess a s = respond w s) ∨
    (∃ c offset, hostAccess a s = respond 0#32 (accFault c offset false s)) ∨
    (∃ c offset, hostAccess a s = accFault c offset true s) ∨
    (s.busy = false ∧ ∃ k w, k < Config.dmemWords ∧ hostAccess a s = dmemWrite k w s) ∨
    (isSoftReset a = true ∧ hostAccess a s = softReset s) ∨
    (∃ w, hostAccess a s = irqEnWrite w s) ∨ (∃ w, hostAccess a s = statusW1C w s) ∨
    (∃ w, hostAccess a s = issueCommand w s) ∨ (∃ w, hostAccess a s = srcBaseWrite w s) ∨
    (∃ w, hostAccess a s = dstBaseWrite w s) ∨ hostAccess a s = s := by
  cases a with
  | read offset be =>
    simp only [hostAccess]
    cases h : accessCause offset be s.busy with
    | none => exact .inl ⟨_, hostRead_of_none h⟩
    | some c => exact .inr (.inl ⟨c, offset, hostRead_of_some h⟩)
  | write offset be w =>
    simp only [hostAccess]
    cases h : accessCause offset be s.busy with
    | some c => exact .inr (.inr (.inl ⟨c, offset, hostWrite_of_some h⟩))
    | none =>
      rw [hostWrite_of_none h]
      unfold accessCause at h
      split at h
      · simp at h
      · split at h
        · simp at h
        · next hbe =>
          split at h
          · simp at h
          · next hb =>
            split
            · next hd =>
              refine .inr (.inr (.inr (.inl ⟨?_, dmemIndex offset, w, dmemIndex_lt offset, rfl⟩)))
              simpa [hd] using hb
            · simp only [ne_eq, Decidable.not_not] at hbe
              rcases writeRegister_cases offset w s with ⟨h1, h2, h3⟩ | h | h | h | h | h | h
              · refine .inr (.inr (.inr (.inr (.inl ⟨?_, h3⟩))))
                have : offset = 0x008#14 := BitVec.eq_of_toNat_eq h2
                simp [isSoftReset, this, hbe, h1]
              · exact .inr (.inr (.inr (.inr (.inr (.inl ⟨w, h⟩)))))
              · exact .inr (.inr (.inr (.inr (.inr (.inr (.inl ⟨w, h⟩))))))
              · exact .inr (.inr (.inr (.inr (.inr (.inr (.inr (.inl ⟨w, h⟩)))))))
              · exact .inr (.inr (.inr (.inr (.inr (.inr (.inr (.inr (.inl ⟨w, h⟩))))))))
              · exact .inr (.inr (.inr (.inr (.inr (.inr (.inr (.inr (.inr (.inl ⟨w, h⟩)))))))))
              · exact .inr (.inr (.inr (.inr (.inr (.inr (.inr (.inr (.inr (.inr h)))))))))

/-! ### Reset -/

/-- A soft reset is a reset of the registers, after an abort when a command was in flight. -/
theorem softReset_cases (s : State) :
    (s.busy = true ∧ softReset s = resetRegisters (abortCommand s)) ∨
      (s.busy = false ∧ softReset s = resetRegisters s) := by
  unfold softReset
  cases s.busy <;> simp

/-- An abort keeps the canonical form. -/
theorem abortCommand_wf {s : State} (h : Memory.wf s.dmem)
    (hf : (inFlightFootprint s).1 ≤ Config.dmemWords) : Memory.wf (abortCommand s).dmem := by
  rw [abortCommand_dmem]
  apply writeWords_wf h
  rw [List.length_take, length_drawWords]
  omega

theorem hardReset_wf (s : State) : Memory.wf (hardReset s).dmem := by
  rw [hardReset_dmem]
  apply writeWords_wf memory_nil_wf
  rw [length_drawWords, Nat.zero_add]

end Sys2Proof.Machine
end

