-- ==== Sys2Proof/Laws/PerInstr.lean ====
section
/-! SUPPORT. A fact about every instruction, one lemma per constructor. -/

namespace Sys2Proof.Laws.EncodingSelectsRow

/-- The command word of an instruction selects the instruction's own row of the opcode table
(spec/30_encoding.md R92). -/
def Statement (i : Instr) : Prop := encode i &&& i.maskWord = i.matchWord

theorem nop : Statement .nop := by unfold Statement; decide

/-- A word of format C keeps only its OPC under the mask of R92's argument rows. -/
theorem formatC_and_mask (arg : BitVec 10) (opc : BitVec 4) :
    ((0#18 ++ arg ++ opc : BitVec 32) &&& 0xFFFFC00F#32) = opc.setWidth 32 := by
  apply BitVec.eq_of_getLsbD_eq
  intro j hj
  rw [BitVec.getLsbD_and, BitVec.getLsbD_append, BitVec.getLsbD_append, BitVec.getLsbD_setWidth]
  by_cases h4 : j < 4
  · have : (0xFFFFC00F#32 : BitVec 32).getLsbD j = true := by
      rcases (by omega : j = 0 ∨ j = 1 ∨ j = 2 ∨ j = 3) with h | h | h | h <;> subst h <;> decide
    simp [h4, this, hj]
  · by_cases h14 : j < 14
    · have : (0xFFFFC00F#32 : BitVec 32).getLsbD j = false := by
        rcases (by omega : j = 4 ∨ j = 5 ∨ j = 6 ∨ j = 7 ∨ j = 8 ∨ j = 9 ∨ j = 10 ∨ j = 11 ∨
          j = 12 ∨ j = 13) with h | h | h | h | h | h | h | h | h | h <;> subst h <;> decide
      simp [h4, this, BitVec.getLsbD_of_ge opc j (by omega)]
    · simp [h4, show ¬ j - 4 < 10 by omega, BitVec.getLsbD_of_ge opc j (by omega)]

theorem powlaw (maxNz : BitVec 10) : Statement (.powlaw maxNz) := formatC_and_mask maxNz 0x1#4

theorem fht (n : BitVec 10) : Statement (.fht n) := formatC_and_mask n 0x2#4

end Sys2Proof.Laws.EncodingSelectsRow
end

