-- ==== Sys2Proof/Laws/Powlaw.lean ====
section
/-! SUPPORT. POWLAW's lanes: eight of each, whatever the input. -/

namespace Sys2Proof.Machine

@[simp] theorem length_sumLane_lanesAdd (i : Nat) (w : Word) (l : Lanes) :
    (lanesAdd i w l).sumLane.length = l.sumLane.length := by simp [lanesAdd]

@[simp] theorem length_maxLane_lanesAdd (i : Nat) (w : Word) (l : Lanes) :
    (lanesAdd i w l).maxLane.length = l.maxLane.length := by simp [lanesAdd]

@[simp] theorem length_sumLane_lanesFrom (i : Nat) (xs : List Word) (l : Lanes) :
    (lanesFrom i xs l).sumLane.length = l.sumLane.length := by
  induction xs generalizing i l with
  | nil => rfl
  | cons w xs ih => rw [lanesFrom, ih, length_sumLane_lanesAdd]

@[simp] theorem length_maxLane_lanesFrom (i : Nat) (xs : List Word) (l : Lanes) :
    (lanesFrom i xs l).maxLane.length = l.maxLane.length := by
  induction xs generalizing i l with
  | nil => rfl
  | cons w xs ih => rw [lanesFrom, ih, length_maxLane_lanesAdd]

/-- The loop over two runs of elements is the loop over one and then over the other. -/
theorem lanesFrom_append (i : Nat) (xs ys : List Word) (l : Lanes) :
    lanesFrom i (xs ++ ys) l = lanesFrom (i + xs.length) ys (lanesFrom i xs l) := by
  induction xs generalizing i l with
  | nil => rfl
  | cons w xs ih =>
    rw [List.cons_append, lanesFrom, ih, lanesFrom, List.length_cons]
    congr 1
    omega

/-! ### Reduction trees -/

@[simp] theorem LaneTree.lanes_lane (j : Nat) : (LaneTree.lane j).lanes = [j] := rfl

@[simp] theorem LaneTree.lanes_join (l r : LaneTree) : (LaneTree.join l r).lanes = l.lanes ++ r.lanes := rfl

@[simp] theorem LaneTree.reduce_lane (op : Word → Word → Word) (v : List Word) (j : Nat) :
    (LaneTree.lane j).reduce op v = v.getD j 0#32 := rfl

@[simp] theorem LaneTree.reduce_join (op : Word → Word → Word) (v : List Word) (l r : LaneTree) :
    (LaneTree.join l r).reduce op v = op (l.reduce op v) (r.reduce op v) := rfl

/-- R156's tree of adjacent lanes. -/
theorem reduceTree_eq_reduce (op : Word → Word → Word) (v : List Word) :
    reduceTree op v = (LaneTree.join
      (.join (.join (.lane 0) (.lane 1)) (.join (.lane 2) (.lane 3)))
      (.join (.join (.lane 4) (.lane 5)) (.join (.lane 6) (.lane 7)))).reduce op v := rfl

/-- An operation that takes the greater rank: a tree's result has the greatest rank of its lanes,
whatever the tree's shape. -/
theorem LaneTree.rank_reduce_le {op : Word → Word → Word} {v : List Word} {S : Word → Prop} {rank : Word → Nat}
    (hop : ∀ a b, S a → S b → S (op a b) ∧ rank (op a b) = max (rank a) (rank b))
    (hv : ∀ j, S (v.getD j 0#32)) (T : LaneTree) :
    S (T.reduce op v) ∧ ∀ n, rank (T.reduce op v) ≤ n ↔ ∀ j ∈ T.lanes, rank (v.getD j 0#32) ≤ n := by
  induction T with
  | lane j => exact ⟨hv j, fun n => by simp⟩
  | join l r hl hr =>
    obtain ⟨hs, hm⟩ := hop _ _ hl.1 hr.1
    refine ⟨hs, fun n => ?_⟩
    rw [LaneTree.reduce_join, hm, LaneTree.lanes_join, List.forall_mem_append, ← hl.2 n, ← hr.2 n]
    exact max_le_iff

end Sys2Proof.Machine
end

