-- ==== Sys2Proof/Laws/Rounding.lean ====
section
/-! SUPPORT. What `roundMag` does, said once: the nearest magnitude field, ties to the even one, and
infinity exactly from `overflowUnits` on. -/

namespace Sys2Proof.Machine

/-- `divTiesToEven n q` is a whole number nearest to `n / 2^q`, and even when another is as near. -/
theorem divTiesToEven_nearest (n q c : Nat) :
    ((divTiesToEven n q * 2 ^ q : Nat) - (n : Int)).natAbs ≤ ((c * 2 ^ q : Nat) - (n : Int)).natAbs ∧
    (((c * 2 ^ q : Nat) - (n : Int)).natAbs = ((divTiesToEven n q * 2 ^ q : Nat) - (n : Int)).natAbs →
      c ≠ divTiesToEven n q → divTiesToEven n q % 2 = 0) := by
  have hP : 0 < 2 ^ q := Nat.two_pow_pos q
  have hn := Nat.div_add_mod' n (2 ^ q)
  have hr := Nat.mod_lt n hP
  unfold divTiesToEven
  generalize 2 ^ q = P at *
  generalize n / P = a at *
  generalize n % P = r at *
  have hs : (a + 1) * P = a * P + P := Nat.succ_mul a P
  have hc : c ≤ a - 1 ∧ 1 ≤ a ∧ c * P + P ≤ a * P ∨ c = a ∨ c = a + 1 ∨ a * P + 2 * P ≤ c * P := by
    rcases Nat.lt_trichotomy c a with h | h | h
    · left
      refine ⟨by omega, by omega, ?_⟩
      rw [← Nat.succ_mul]
      exact Nat.mul_le_mul_right P h
    · exact .inr (.inl h)
    · rcases Nat.eq_or_lt_of_le (Nat.succ_le_of_lt h) with h2 | h2
      · exact .inr (.inr (.inl h2.symm))
      · right; right; right
        rw [← Nat.add_mul]
        exact Nat.mul_le_mul_right P h2
  split <;> rename_i ht
  · rw [hs]
    rcases hc with ⟨_, _, h⟩ | h | h | h
    · constructor
      · omega
      · omega
    · subst h; constructor <;> omega
    · subst h; rw [hs]; constructor <;> omega
    · constructor <;> omega
  · rcases hc with ⟨_, _, h⟩ | h | h | h
    · constructor <;> omega
    · subst h; constructor <;> omega
    · subst h; rw [hs]; constructor <;> omega
    · constructor <;> omega

/-- The rounded quotient of a number that `dropBits` leaves 24 bits of. -/
theorem divTiesToEven_le {n q : Nat} (h : n < 2 ^ (q + 24)) : divTiesToEven n q ≤ 2 ^ 24 := by
  have : n / 2 ^ q < 2 ^ 24 := Nat.div_lt_of_lt_mul (by rwa [← Nat.pow_add])
  unfold divTiesToEven
  split <;> omega

theorem le_divTiesToEven {n q b : Nat} (h : b * 2 ^ q ≤ n) : b ≤ divTiesToEven n q := by
  have : b ≤ n / 2 ^ q := (Nat.le_div_iff_mul_le (Nat.two_pow_pos q)).mpr h
  unfold divTiesToEven
  split <;> omega

/-- The value of the magnitude field that `roundMag` builds. -/
theorem magUnits_field {d M : Nat} (hM : M ≤ 2 ^ 24) (hd : d = 0 ∨ 2 ^ 23 ≤ M) :
    magUnits (d * 2 ^ 23 + M) = M * 2 ^ d := by
  unfold magUnits
  rcases Nat.lt_or_ge M (2 ^ 23) with h | h
  · have h0 : d = 0 := by omega
    subst h0
    rw [if_pos (by omega)]
    simp
    omega
  · rw [if_neg (by omega)]
    rcases Nat.eq_or_lt_of_le hM with h2 | h2
    · subst h2
      have h3 : (d * 2 ^ 23 + 2 ^ 24) / 2 ^ 23 = d + 2 := by omega
      have h4 : (d * 2 ^ 23 + 2 ^ 24) % 2 ^ 23 = 0 := by omega
      rw [h3, h4, show d + 2 - 1 = d + 1 from rfl, Nat.pow_succ]
      omega
    · have h3 : (d * 2 ^ 23 + M) / 2 ^ 23 = d + 1 := by omega
      have h4 : 2 ^ 23 + (d * 2 ^ 23 + M) % 2 ^ 23 = M := by omega
      rw [h3, h4]
      simp

/-- From the field `(d + 1) * 2^23` on, and for every field if `d = 0`, a magnitude is a multiple of
`2^d`. -/
theorem magUnits_multiple {d k : Nat} (h : d = 0 ∨ (d + 1) * 2 ^ 23 ≤ k) : ∃ c, magUnits k = c * 2 ^ d := by
  rcases h with h | h
  · exact ⟨magUnits k, by simp [h]⟩
  · unfold magUnits
    have h1 : d + 1 ≤ k / 2 ^ 23 := (Nat.le_div_iff_mul_le (by decide)).mpr h
    rw [if_neg (by omega)]
    refine ⟨(2 ^ 23 + k % 2 ^ 23) * 2 ^ (k / 2 ^ 23 - 1 - d), ?_⟩
    rw [Nat.mul_assoc, ← Nat.pow_add]
    congr 2
    omega

/-- Facts about the quantum: `d` bits more than `j` are dropped, 24 are left, and all 24 count when
`d` is not 0. -/
theorem dropBits_spec (n j : Nat) :
    j ≤ dropBits n j ∧ n < 2 ^ (dropBits n j + 24) ∧
      (dropBits n j - j = 0 ∨ 2 ^ 23 * 2 ^ dropBits n j ≤ n) := by
  have h1 : n < 2 ^ (n.log2 + 1) := Nat.lt_log2_self
  refine ⟨Nat.le_max_left _ _, Nat.lt_of_lt_of_le h1 (Nat.pow_le_pow_right (by decide) ?_), ?_⟩
  · unfold dropBits; omega
  · by_cases h : dropBits n j - j = 0
    · exact .inl h
    · right
      have h2 : n.log2 = 23 + dropBits n j := by unfold dropBits at *; omega
      have h3 : n ≠ 0 := by
        intro h0
        subst h0
        have : Nat.log2 0 = 0 := by decide
        omega
      rw [← Nat.pow_add, ← h2]
      exact Nat.log2_self_le h3

/-- The field before the cut at infinity. -/
theorem magUnits_rounded (n j : Nat) :
    magUnits ((dropBits n j - j) * 2 ^ 23 + divTiesToEven n (dropBits n j)) * 2 ^ j =
      divTiesToEven n (dropBits n j) * 2 ^ dropBits n j := by
  obtain ⟨h1, h2, h3⟩ := dropBits_spec n j
  rw [magUnits_field (divTiesToEven_le h2) (h3.imp id le_divTiesToEven), Nat.mul_assoc, ← Nat.pow_add]
  congr 2
  omega

/-- No magnitude is nearer to `n * 2^-j` than the rounded one, and if another is as near, the rounded
field is even. -/
theorem rounded_nearest (n j k : Nat) :
    let f := (dropBits n j - j) * 2 ^ 23 + divTiesToEven n (dropBits n j)
    ((magUnits f * 2 ^ j : Nat) - (n : Int)).natAbs ≤ ((magUnits k * 2 ^ j : Nat) - (n : Int)).natAbs ∧
    (((magUnits k * 2 ^ j : Nat) - (n : Int)).natAbs = ((magUnits f * 2 ^ j : Nat) - (n : Int)).natAbs →
      k ≠ f → f % 2 = 0) := by
  intro f
  obtain ⟨h1, h2, h3⟩ := dropBits_spec n j
  have hf : magUnits f * 2 ^ j = divTiesToEven n (dropBits n j) * 2 ^ dropBits n j := magUnits_rounded n j
  have hq : 2 ^ (dropBits n j - j) * 2 ^ j = 2 ^ dropBits n j := by
    rw [← Nat.pow_add]; congr 1; omega
  have hev : f % 2 = divTiesToEven n (dropBits n j) % 2 := by
    show ((dropBits n j - j) * 2 ^ 23 + divTiesToEven n (dropBits n j)) % 2 = _
    omega
  by_cases hk : dropBits n j - j = 0 ∨ (dropBits n j - j + 1) * 2 ^ 23 ≤ k
  · obtain ⟨c, hc⟩ := magUnits_multiple hk
    have hck : magUnits k * 2 ^ j = c * 2 ^ dropBits n j := by rw [hc, Nat.mul_assoc, hq]
    obtain ⟨h4, h5⟩ := divTiesToEven_nearest n (dropBits n j) c
    rw [hf, hck, hev]
    refine ⟨h4, fun he hne => h5 he ?_⟩
    rintro rfl
    exact hne (magUnits_inj.mp (Nat.eq_of_mul_eq_mul_right (Nat.two_pow_pos j) (hck.trans hf.symm)))
  · obtain ⟨hd, hk'⟩ := not_or.mp hk
    have h6 : 2 ^ 23 * 2 ^ dropBits n j ≤ n := h3.resolve_left hd
    have h7 : magUnits k < 2 ^ 23 * 2 ^ (dropBits n j - j) := by
      have h8 := magUnits_field (d := dropBits n j - j) (M := 2 ^ 23) (by decide) (.inr (Nat.le_refl _))
      rw [← h8]
      apply magUnits_strictMono
      omega
    have h9 : magUnits k * 2 ^ j < 2 ^ 23 * 2 ^ dropBits n j := by
      rw [← hq, ← Nat.mul_assoc]
      exact Nat.mul_lt_mul_of_pos_right h7 (Nat.two_pow_pos j)
    have h10 := (divTiesToEven_nearest n (dropBits n j) (2 ^ 23)).1
    rw [hf]
    constructor
    · omega
    · omega

theorem two_mul_overflowUnits : 2 * overflowUnits = 33554431 * 2 ^ 253 := by decide

theorem le_overflowUnits : 2 ^ 24 * 2 ^ 252 ≤ overflowUnits := by decide

theorem overflowUnits_le : overflowUnits ≤ 2 ^ 23 * 2 ^ 254 := by decide

/-- At the top exponent the rounded quotient stays below 2^24 exactly below half a unit past the
largest one. -/
theorem divTiesToEven_lt_iff {n q V : Nat} (h : n < 2 ^ (q + 24)) (hV : 2 * V = 33554431 * 2 ^ q) :
    divTiesToEven n q < 2 ^ 24 ↔ n < V := by
  have hn := Nat.div_add_mod' n (2 ^ q)
  have hr := Nat.mod_lt n (Nat.two_pow_pos q)
  have ha : n / 2 ^ q < 2 ^ 24 := Nat.div_lt_of_lt_mul (by rwa [← Nat.pow_add])
  clear h
  unfold divTiesToEven
  generalize 2 ^ q = P at *
  generalize n / P = a at *
  generalize n % P = r at *
  have h6 : a = 16777215 ∨ a + 1 ≤ 16777215 := by clear hn hV; omega
  have h8 : a = 16777215 → a * P = 16777215 * P := fun h => by rw [h]
  have h7 : a + 1 ≤ 16777215 → a * P + P ≤ 16777215 * P := fun h => by
      rw [← Nat.succ_mul]
      exact Nat.mul_le_mul_right P h
  have h9 : 33554431 * P = 16777215 * P + 16777215 * P + P := by rw [← Nat.add_mul, ← Nat.succ_mul]
  rw [h9] at hV
  generalize a * P = Q at *
  generalize 16777215 * P = D at *
  clear h9
  rcases h6 with h6 | h6
  · have h8 := h8 h6
    clear h7
    by_cases hc : P < 2 * r ∨ (2 * r = P ∧ a % 2 = 1)
    · rw [if_pos hc]; omega
    · rw [if_neg hc]; omega
  · have h7 := h7 h6
    clear h8
    by_cases hc : P < 2 * r ∨ (2 * r = P ∧ a % 2 = 1)
    · rw [if_pos hc]; omega
    · rw [if_neg hc]; omega

/-- Below `overflowUnits` the rounded field is finite, and from there on it is infinity's. -/
theorem rounded_lt_infMag_iff (n j : Nat) :
    (dropBits n j - j) * 2 ^ 23 + divTiesToEven n (dropBits n j) < infMag ↔ n < overflowUnits * 2 ^ j := by
  obtain ⟨h1, h2, h3⟩ := dropBits_spec n j
  have hM := divTiesToEven_le h2
  have hM' : dropBits n j - j = 0 ∨ 2 ^ 23 ≤ divTiesToEven n (dropBits n j) := h3.imp id le_divTiesToEven
  have hq : 2 ^ (dropBits n j - j) * 2 ^ j = 2 ^ dropBits n j := by
    rw [← Nat.pow_add]; congr 1; omega
  have hinf : infMag = 255 * 2 ^ 23 := by decide
  have hj := Nat.two_pow_pos j
  rcases Nat.lt_trichotomy (dropBits n j - j) 253 with hd | hd | hd
  · have h4 : n < overflowUnits * 2 ^ j := by
      refine Nat.lt_of_lt_of_le h2 ?_
      rw [Nat.pow_add, ← hq, Nat.mul_right_comm]
      apply Nat.mul_le_mul_right
      rw [Nat.mul_comm]
      exact Nat.le_trans
        (Nat.mul_le_mul_left _ (Nat.pow_le_pow_right (by decide) (by omega))) le_overflowUnits
    constructor
    · exact fun _ => h4
    · intro _; omega
  · have h4 : 2 * (overflowUnits * 2 ^ j) = 33554431 * 2 ^ dropBits n j := by
      rw [← hq, hd, ← Nat.mul_assoc, two_mul_overflowUnits, Nat.mul_assoc]
    have h5 : ∀ M, 253 * 2 ^ 23 + M < 255 * 2 ^ 23 ↔ M < 2 ^ 24 := fun M => by clear * -; omega
    rw [hd, hinf, h5]
    exact divTiesToEven_lt_iff h2 h4
  · have h4 : overflowUnits * 2 ^ j ≤ n := by
      refine Nat.le_trans ?_ (h3.resolve_left (by omega))
      rw [← hq, ← Nat.mul_assoc]
      apply Nat.mul_le_mul_right
      exact Nat.le_trans overflowUnits_le
        (Nat.mul_le_mul_left _ (Nat.pow_le_pow_right (by decide) (by omega)))
    constructor
    · omega
    · omega

/-- `roundMag` below the overflow threshold: finite, nearest, ties to even. -/
theorem roundMag_nearest {n j : Nat} (h : n < overflowUnits * 2 ^ j) :
    roundMag n j < infMag ∧ ∀ k,
      ((magUnits (roundMag n j) * 2 ^ j : Nat) - (n : Int)).natAbs ≤
          ((magUnits k * 2 ^ j : Nat) - (n : Int)).natAbs ∧
      (((magUnits k * 2 ^ j : Nat) - (n : Int)).natAbs =
          ((magUnits (roundMag n j) * 2 ^ j : Nat) - (n : Int)).natAbs →
        k ≠ roundMag n j → roundMag n j % 2 = 0) := by
  have hlt := (rounded_lt_infMag_iff n j).mpr h
  have he : roundMag n j = (dropBits n j - j) * 2 ^ 23 + divTiesToEven n (dropBits n j) := by
    unfold roundMag
    exact Nat.min_eq_left (Nat.le_of_lt hlt)
  rw [he]
  exact ⟨hlt, rounded_nearest n j⟩

/-- `roundMag` from the overflow threshold on is infinity. -/
theorem roundMag_overflow {n j : Nat} (h : overflowUnits * 2 ^ j ≤ n) : roundMag n j = infMag := by
  unfold roundMag
  apply Nat.min_eq_right
  have := (rounded_lt_infMag_iff n j).not.mpr (by omega)
  omega

theorem fval_fpack (neg : Bool) {m : Nat} (h : m < 2 ^ 31) :
    fval (fpack neg m) = if neg then -(magUnits m : Int) else (magUnits m : Int) := by
  rw [fval, fneg_fpack neg h, fmag_fpack neg h]

theorem getLsbD_zero_fpack (neg : Bool) {m : Nat} (h : m < 2 ^ 31) (he : m % 2 = 0) :
    (fpack neg m).getLsbD 0 = false := by
  rw [BitVec.getLsbD, Nat.testBit_zero, toNat_fpack neg h]
  cases neg
  · simp [he]
  · simp; omega

/-- The word that `roundMag` builds with a sign is the nearest to the exact value of that sign,
ties to even. -/
theorem nearestEven_fpack (neg : Bool) {n k : Nat} (h : n < overflowUnits * 2 ^ k) :
    NearestEven (fpack neg (roundMag n k)) (if neg then -(n : Int) else (n : Int)) k := by
  obtain ⟨hlt, hn⟩ := roundMag_nearest h
  have h31 := roundMag_lt n k
  have hz := hn 0
  rw [magUnits_zero, Nat.zero_mul] at hz
  have hw : ∀ w : Word, fval w * 2 ^ k = ((magUnits (fmag w) * 2 ^ k : Nat) : Int) ∨
      fval w * 2 ^ k = -((magUnits (fmag w) * 2 ^ k : Nat) : Int) := by
    intro w
    unfold fval
    split
    · right; push_cast; ring
    · left; push_cast; ring
  have hsame : ∀ w : Word, fneg w = neg →
      fval w * 2 ^ k = if neg then -((magUnits (fmag w) * 2 ^ k : Nat) : Int)
        else ((magUnits (fmag w) * 2 ^ k : Nat) : Int) := by
    intro w hw
    rw [fval, hw]
    cases neg <;> simp
  have hopp : ∀ w : Word, fneg w ≠ neg →
      fval w * 2 ^ k = if neg then ((magUnits (fmag w) * 2 ^ k : Nat) : Int)
        else -((magUnits (fmag w) * 2 ^ k : Nat) : Int) := by
    intro w hw
    have : fneg w = !neg := by clear * - hw; revert hw; generalize fneg w = b; cases b <;> cases neg <;> simp
    rw [fval, this]
    cases neg <;> simp
  have hr := hsame (fpack neg (roundMag n k)) (fneg_fpack neg h31)
  rw [fmag_fpack neg h31] at hr
  refine ⟨?_, ?_, ?_⟩
  · simpa only [isFinite, fmag_fpack neg h31, decide_eq_true_eq] using hlt
  · intro w _
    rw [hr]
    by_cases hs : fneg w = neg
    · rw [hsame w hs]
      have := (hn (fmag w)).1
      cases neg <;> simp only [if_true, if_false, Bool.false_eq_true] <;> omega
    · rw [hopp w hs]
      have := hz.1
      cases neg <;> simp only [if_true, if_false, Bool.false_eq_true] <;> omega
  · intro w _ he hne
    apply getLsbD_zero_fpack neg h31
    rw [hr] at he
    by_cases hs : fneg w = neg
    · rw [hsame w hs] at he
      refine (hn (fmag w)).2 ?_ ?_
      · cases neg <;> simp only [if_true, if_false, Bool.false_eq_true] at he <;> omega
      · intro hm
        apply hne
        rw [fval, hs, hm, fval_fpack neg h31]
    · rw [hopp w hs] at he
      have h0 := hz.1
      have hu : magUnits (fmag w) * 2 ^ k = 0 := by
        cases neg <;> simp only [if_true, if_false, Bool.false_eq_true] at he <;> omega
      rw [hu] at he
      refine hz.2 ?_ ?_
      · clear * - he
        generalize magUnits (roundMag n k) * 2 ^ k = x at *
        cases neg <;> simp only [if_true, if_false, Bool.false_eq_true] at he <;> omega
      · intro hm
        apply hne
        have hk := Nat.two_pow_pos k
        have h1 : magUnits (fmag w) = 0 := by
          rcases Nat.mul_eq_zero.mp hu with h | h
          · exact h
          · omega
        rw [fval, h1, fval_fpack neg h31, ← hm, magUnits_zero]
        simp

/-! ### The square root -/

/-- A magnitude from 2^24 on is even. -/
theorem magUnits_even {k : Nat} (h : 2 ^ 24 ≤ magUnits k) : magUnits k % 2 = 0 := by
  have h1 : magUnits (2 * 2 ^ 23) ≤ magUnits k := by
    have : magUnits (2 * 2 ^ 23) = 2 ^ 24 := by decide
    omega
  have h2 : (1 + 1) * 2 ^ 23 ≤ k := magUnits_strictMono.le_iff_le.mp h1
  obtain ⟨c, hc⟩ := magUnits_multiple (.inr h2)
  omega

/-- The root with its sticky bit, rounded, is the magnitude nearest to the exact root `√N`: its
midpoint with any other magnitude lies on the other's side. -/
theorem sqrt_nearest {N : Nat} (hl : 2 ^ 149 ≤ N) (hh : N < 2 ^ 213 * 2 ^ 213) :
    let f := roundMag (isqrtSticky N) 1
    f < infMag ∧ ∀ k,
      (magUnits f < magUnits k → 4 * N ≤ (magUnits f + magUnits k) ^ 2) ∧
      (magUnits k < magUnits f → (magUnits f + magUnits k) ^ 2 ≤ 4 * N) := by
  intro f
  obtain ⟨h1, h2⟩ := isqrt_spec N
  have hs : 2 ^ 74 ≤ isqrt N := by
    by_contra hc
    have : (isqrt N + 1) * (isqrt N + 1) ≤ 2 ^ 74 * 2 ^ 74 := Nat.mul_le_mul (by omega) (by omega)
    omega
  have hs' : isqrt N < 2 ^ 213 := by
    by_contra hc
    have : 2 ^ 213 * 2 ^ 213 ≤ isqrt N * isqrt N := Nat.mul_le_mul (by omega) (by omega)
    omega
  have hS : isqrtSticky N < overflowUnits * 2 ^ 1 := by
    have h3 : 2 ^ 215 ≤ overflowUnits * 2 ^ 1 := by decide
    have h4 : (2 : Nat) ^ 215 = 4 * 2 ^ 213 := by decide
    have h5 : isqrtSticky N ≤ 2 * isqrt N + 1 := by unfold isqrtSticky; split <;> omega
    omega
  obtain ⟨hf, hn⟩ := roundMag_nearest hS
  refine ⟨hf, fun k => ?_⟩
  have hk := (hn k).1
  have hw := (hn (52 * 2 ^ 23)).1
  rw [show magUnits (52 * 2 ^ 23) = 2 ^ 74 by decide] at hw
  have he1 := @magUnits_even f
  have he2 := @magUnits_even k
  change ((magUnits f * 2 ^ 1 : Nat) - (isqrtSticky N : Int)).natAbs ≤ _ at hk hw
  generalize magUnits f = u at *
  generalize magUnits k = u' at *
  unfold isqrtSticky at hk hw
  clear hf hn hS hs' hh hl
  generalize isqrt N = r at *
  by_cases hx : r * r = N
  · rw [if_pos hx] at hk hw
    have h4 : 4 * N = (2 * r) ^ 2 := by rw [← hx]; ring
    rw [h4]
    constructor
    · intro hlt
      exact Nat.pow_le_pow_left (by omega) 2
    · intro hlt
      exact Nat.pow_le_pow_left (by omega) 2
  · rw [if_neg hx] at hk hw
    have hne : u + u' ≠ 2 * r + 1 := by omega
    constructor
    · intro hlt
      have h4 : 4 * N ≤ (2 * r + 2) ^ 2 := by
        have : (2 * r + 2) ^ 2 = 4 * ((r + 1) * (r + 1)) := by ring
        omega
      exact Nat.le_trans h4 (Nat.pow_le_pow_left (by omega) 2)
    · intro hlt
      have h4 : (2 * r) ^ 2 ≤ 4 * N := by
        have : (2 * r) ^ 2 = 4 * (r * r) := by ring
        omega
      exact Nat.le_trans (Nat.pow_le_pow_left (by omega) 2) h4

end Sys2Proof.Machine
end

