-- ==== Sys2Proof/Laws/Step.lean ====
section
/-! SUPPORT. Everything one step can do, said once. -/

namespace Sys2Proof.Machine

/-- The engine's turn with a command in flight runs the command that LCMD holds. -/
theorem engineTurn_of_decode {s : State} {i : Instr} (hb : s.busy = true)
    (hi : decodeWord s.lcmd = .ok i) : engineTurn s = exec i s := by
  simp only [engineTurn, hb, hi, if_true]

theorem engineTurn_idle {s : State} (hb : s.busy = false) : engineTurn s = .next s := by
  simp [engineTurn, hb]

/-- Everything the engine's turn can answer a next state by. -/
theorem engineTurn_cases {s t : State} (h : engineTurn s = .next t) :
    (s.busy = false ∧ t = s) ∨
      (s.busy = true ∧ ∃ i, decodeWord s.lcmd = .ok i ∧ exec i s = .next t) := by
  unfold engineTurn at h
  split at h
  · next hb =>
    split at h
    · next i hi => exact .inr ⟨hb, i, hi, h⟩
    · simp at h
  · next hb =>
    simp only [Host.Outcome.next.injEq] at h
    exact .inl ⟨by simpa using hb, h.symm⟩

theorem step_host {s : State} {a : Access} {rest : List Move} (h : s.agenda = .host a :: rest) :
    step s = .next (hostAccess a (setAgenda rest s)) := by simp only [step, h]

theorem step_engine {s : State} {rest : List Move} (h : s.agenda = .engine :: rest) :
    step s = engineTurn (setAgenda rest s) := by simp only [step, h]

theorem step_hardReset {s : State} {rest : List Move} (h : s.agenda = .hardReset :: rest) :
    step s = .next (hardReset (setAgenda rest s)) := by simp only [step, h]

theorem step_empty {s : State} (h : s.agenda = []) : step s = engineTurn s := by
  simp only [step, h]

/-- Everything a step can answer a next state by. -/
theorem step_cases {s t : State} (h : step s = .next t) :
    (∃ a rest, s.agenda = .host a :: rest ∧ t = hostAccess a (setAgenda rest s)) ∨
    (∃ rest, s.agenda = .hardReset :: rest ∧ t = hardReset (setAgenda rest s)) ∨
    (∃ rest, s.agenda = .engine :: rest ∧ engineTurn (setAgenda rest s) = .next t) ∨
    (s.agenda = [] ∧ engineTurn s = .next t) := by
  unfold step at h
  split at h
  · next ha => exact .inr (.inr (.inr ⟨ha, h⟩))
  · next a rest ha =>
    simp only [Host.Outcome.next.injEq] at h
    exact .inl ⟨a, rest, ha, h.symm⟩
  · next rest ha => exact .inr (.inr (.inl ⟨rest, ha, h⟩))
  · next rest ha =>
    simp only [Host.Outcome.next.injEq] at h
    exact .inr (.inl ⟨rest, ha, h.symm⟩)

end Sys2Proof.Machine
end

