-- ==== Sys2Proof/Tests/Slice0.lean ====
section
/-! SUPPORT. The model's own tests: ill-formed arguments, words written out in bits, one step on a
small state, and the arithmetic. Every expected value is a number of spec/30_encoding.md R98,
spec/60_exceptions.md or spec/95_test_vectors.md, named beside it. -/

namespace Sys2Proof.Machine.Tests

/-- `o` is a next state that `p` holds of. -/
def nextHolds (o : Host.Outcome State Fault Refusal) (p : State → Bool) : Bool :=
  match o with
  | .next t => p t
  | .fault _ => false
  | .refused _ => false

theorem exists_of_nextHolds {o : Host.Outcome State Fault Refusal} {p : State → Bool}
    (h : nextHolds o p = true) : ∃ t, o = .next t ∧ p t = true := by
  cases o with
  | next t => exact ⟨t, rfl, h⟩
  | fault _ => cases h
  | refused _ => cases h

/-- After reset, with `ws` loaded at `DMEM[a]` and the two bases set. -/
def loaded (src dst : WordAddr) (a : Nat) (ws : List Word) : State :=
  { State.reset with srcBase := src, dstBase := dst, dmem := writeWords [] a ws }

/-- The word `w` run as the next step, and `p` of the state after it. -/
def runs (s : State) (w : Nat) (p : State → Bool) : Bool := nextHolds (step (s.withFetchWord 32 w)) p

/-! ### Well-formedness: each check refuses an ill-formed term (R95) -/

theorem test_wf_powlaw_bound : (Instr.powlaw 575#10).wf = true ∧ (Instr.powlaw 576#10).wf = false := by
  decide

theorem test_wf_fht_sizes :
    ([8#10, 32#10, 128#10, 512#10].all fun n => (Instr.fht n).wf) = true ∧
    ([0#10, 4#10, 16#10, 64#10, 256#10, 511#10, 1023#10].all fun n => !(Instr.fht n).wf) = true := by
  decide

/-! ### Decoding: words written out in bits, RSVD ARG OPC (R90, R92, R98) -/

theorem test_decode_nop : decodeWord 0b000000000000000000_0000000000_0000#32 = .ok .nop := by decide

theorem test_decode_powlaw :
    decodeWord 0b000000000000000000_1000111111_0001#32 = .ok (.powlaw 575#10) := by decide

theorem test_decode_fht : decodeWord 0b000000000000000000_0000001000_0010#32 = .ok (.fht 8#10) := by decide

/-- ARG's top and bottom bits, each alone. -/
theorem test_decode_arg_ends :
    decodeWord 0b000000000000000000_1000000000_0001#32 = .ok (.powlaw 512#10) ∧
    decodeWord 0b000000000000000000_0000000001_0010#32 = .ok (.fht 1#10) := by decide

/-- R93, R94, R98: OPC 3 and 15 are illegal, whatever RSVD holds; a reserved bit is E_RSVD. -/
theorem test_decode_rejects :
    ([0x00000003#32, 0xFFFFFFFF#32, 0x00004093#32].map decodeWord = [.error .opcode, .error .opcode, .error .opcode]) ∧
    ([0x00000010#32, 0x00004091#32, 0x00004002#32, 0x80000000#32].map decodeWord =
      [.error .reserved, .error .reserved, .error .reserved, .error .reserved]) := by decide

/-- R62: the low byte is at the lowest address; the rest of the bytes are left. -/
theorem test_decode_bytes :
    decodeBytes [0x91#8, 0x00#8, 0x00#8, 0x00#8, 0xAB#8] = .ok (.powlaw 9#10, [0xAB#8]) ∧
    decodeBytes [0x91#8, 0x00#8, 0x00#8] = .error .truncated := by decide

theorem test_decode_table_word :
    decodeTableWord 32 0x2002 = some (.fht 512#10) ∧ decodeTableWord 32 0x4093 = none ∧
    decodeTableWord 32 0 = some .nop := by decide

/-! ### The arithmetic -/

/-- L1 S2 and PVT1 to PVT4: 3.0, the two thresholds and their neighbours. -/
theorem test_pow_elements :
    ([0x40400000#32, 0x6A214517#32, 0x6A214518#32, 0x0D800001#32, 0x0D800000#32].map powElement =
      [0x4011E371#32, 0x5F7FFFFF#32, 0x7F800000#32, 0x1A3504F3#32, 0x00000000#32]) := by decide +kernel

/-- PV11: the lane sums and the tree, where a serial sum would give 0x4B800000. -/
theorem test_pow_sum_by_lanes :
    powSum (0x4B800000#32 :: List.replicate 15 0x3F800000#32) = 0x4B800007#32 := by decide +kernel

/-- PV12: nine elements; lane 0 rounds 2^24 + 1 to 2^24. -/
theorem test_pow_sum_remainder :
    powSum (0x4B800000#32 :: List.replicate 8 0x3F800000#32) = 0x4B800003#32 := by decide +kernel

/-- FV10, k1 = 16, i = 4: the recurrence's drift, before and after the double-angle update. -/
theorem test_rotation_drift :
    let r := rotationNext 1 (rotationNext 1 (rotationNext 1 (rotationSeed 1)))
    r.c1 = 0x3F6C835E#32 ∧ r.s1 = 0x3EC3EF16#32 ∧ r.c2 = 0x3F3504F2#32 ∧ r.s2 = 0x3F3504F4#32 := by
  decide +kernel

/-- FV16: sixteen words FLT_MAX overflow into infinities of both signs and NaNs. -/
theorem test_fht_overflow :
    fhtBuffer 16 (List.replicate 16 0x7F7FFFFF#32) =
      [0x7F800000#32, 0x7F800000#32, 0x7F800000#32, 0xFF800000#32, 0x00000000#32, 0x7FC00000#32,
       0x7F800000#32, 0x7FC00000#32] ++
      [0x7FC00000#32, 0x7FC00000#32, 0x7FC00000#32, 0x7F800000#32, 0x00000000#32, 0xFF800000#32,
       0xFF800000#32, 0x7FC00000#32] := by decide +kernel

/-- FV16: sixteen smallest subnormals. -/
theorem test_fht_subnormals :
    fhtBuffer 16 (List.replicate 16 0x00000001#32) =
      [0x00000004#32, 0x00000006#32, 0x00000003#32, 0x00000000#32, 0x00000000#32, 0x00000000#32,
       0x00000001#32, 0x00000001#32] ++
      [0x00000000#32, 0x00000000#32, 0x00000001#32, 0x00000002#32, 0x00000000#32, 0x80000002#32,
       0x80000001#32, 0x00000001#32] := by decide +kernel

/-- R13: the first operand wins only when it is greater; +0 and -0 compare equal. -/
theorem test_fmax_ties :
    fmax 0x00000000#32 0x80000000#32 = 0x80000000#32 ∧ fmax 0x80000000#32 0x00000000#32 = 0x00000000#32 ∧
    fmax 0xFF800000#32 0x80000001#32 = 0x80000001#32 ∧ fmax 0x3F800000#32 0x7F800001#32 = 0x7FC00000#32 := by
  decide

/-! ### One step -/

/-- R124: NOP changes BUSY, DONE and, at its acceptance, the latches and LASTCMD only. -/
theorem test_step_nop :
    runs (loaded 3#11 5#11 0 [0x3F800000#32]) 0 (fun t =>
      t = { loaded 3#11 5#11 0 [0x3F800000#32] with
        done := true, lsrc := 3#11, ldst := 5#11 }) = true := by decide +kernel

/-- PV2 and R163: 16 and -81, out of place, with SUM 97 and MAX 27. -/
theorem test_step_powlaw :
    runs (loaded 7#11 2046#11 7 [0x41800000#32, 0xC2A20000#32]) 0x11 (fun t =>
      readWords t.dmem 2046 2 = [0x41000000#32, 0x41D80000#32] &&
      readWords t.dmem 7 2 = [0x41800000#32, 0xC2A20000#32] &&
      t.sum = 0x42C20000#32 && t.max = 0x41D80000#32 && t.done && !t.busy && t.lastCmd = 0x11#32) = true := by
  decide +kernel

/-- P6: in place, with an untouched tail. -/
theorem test_step_powlaw_in_place :
    runs (loaded 100#11 100#11 100 [0xC1800000#32, 0x3E800000#32, 0x3A83126F#32, 0xDEADBEEF#32]) 0x21 (fun t =>
      readWords t.dmem 100 4 = [0x41000000#32, 0x3EB504F3#32, 0x3BB8449D#32, 0xDEADBEEF#32] &&
      t.sum = 0x4182020C#32 && t.max = 0x41000000#32) = true := by decide +kernel

/-- FV3 at the top of DMEM (E11): the ramp 1.0 to 16.0. -/
theorem test_step_fht :
    runs (loaded 2032#11 0#11 2032
      ([0x3F800000#32, 0x40000000#32, 0x40400000#32, 0x40800000#32, 0x40A00000#32, 0x40C00000#32,
        0x40E00000#32, 0x41000000#32] ++
       [0x41100000#32, 0x41200000#32, 0x41300000#32, 0x41400000#32, 0x41500000#32, 0x41600000#32,
        0x41700000#32, 0x41800000#32])) 0x82 (fun t =>
      readWords t.dmem 2032 16 =
        [0x41E00000#32, 0x42377B03#32, 0x41CC7367#32, 0xC06E434E#32, 0xC1000000#32, 0x40C57DC4#32,
         0x4189B4A4#32, 0x409EE86C#32] ++
        [0xC1800000#32, 0xC1B091B2#32, 0xC0B1CD9C#32, 0x410E4F96#32, 0x00000000#32, 0xC1AFC3C6#32,
         0xC1C9B4A4#32, 0x40BB9A10#32] &&
      t.sum = 0#32 && t.max = 0#32 && t.done && !t.busy) = true := by decide +kernel

/-- FV5: two infinities; Butterfly0 computes ∞ - ∞. -/
theorem test_step_fht_infinities :
    runs { loaded 0#11 0#11 0 [0x7F800000#32, 0#32, 0#32, 0#32, 0x7F800000#32] with irqEn := true } 0x82 (fun t =>
      readWords t.dmem 0 16 =
        [0x7F800000#32, 0#32, 0#32, 0#32, 0x7FC00000#32, 0#32, 0#32, 0#32] ++
        [0x7F800000#32, 0#32, 0#32, 0#32, 0x7FC00000#32, 0#32, 0#32, 0#32] && irq t) = true := by
  decide +kernel

/-! ### Host accesses (H8 to H18, E1 to E17) -/

/-- H8: a base register keeps bits 10:0. -/
theorem test_host_base : (hostAccess (.read 0x014#14 0b1111#4)
    (hostAccess (.write 0x014#14 0b1111#4 0xFFFFFFFF#32) State.reset)).rdata = 0x000007FF#32 := by decide

/-- H9, H10: a misaligned read is refused, and a later refusal keeps the first record. -/
theorem test_host_first_refusal :
    let s := hostAccess (.read 0x002#14 0b1111#4) State.reset
    s.rdata = 0#32 ∧ s.accErr = true ∧ s.accInfo = 0x00010002#32 ∧
    (hostAccess (.write 0x014#14 0b0011#4 0x12#32) s).accInfo = 0x00010002#32 := by decide

/-- H13: a narrow write of SRC_BASE. -/
theorem test_host_narrow_write :
    (hostAccess (.write 0x014#14 0b0011#4 0x12#32) State.reset).accInfo = 0x00024014#32 ∧
    (hostAccess (.write 0x014#14 0b0011#4 0x12#32) State.reset).srcBase = 0#11 := by decide

/-- H17, H18: while a NOP is in flight a DMEM write is refused, and reading SUM is not. -/
theorem test_host_dmem_busy :
    let s := issueCommand 0x00000000#32 State.reset
    (hostAccess (.write 0x200C#14 0b1111#4 0x3F800000#32) s).accInfo = 0x0003600C#32 ∧
    (hostAccess (.write 0x200C#14 0b1111#4 0x3F800000#32) s).dmem = [] ∧
    (hostAccess (.read 0x01C#14 0b1111#4) s).accErr = false := by decide

/-- H14, H15: IRQ_EN is bit 0, and SRST clears it and SRC_BASE. -/
theorem test_host_ctrl :
    let s := hostAccess (.write 0x008#14 0b1111#4 0xFFFFFFFD#32) { State.reset with srcBase := 9#11 }
    (hostAccess (.read 0x008#14 0b1111#4) s).rdata = 0x00000001#32 ∧
    hostAccess (.write 0x008#14 0b1111#4 0x00000003#32) s = State.reset := by decide

/-- H16: a DMEM word written and read back; its bytes are little-endian. -/
theorem test_host_dmem :
    let s := hostAccess (.write 0x2014#14 0b1111#4 0x40000000#32) State.reset
    (hostAccess (.read 0x2014#14 0b1111#4) s).rdata = 0x40000000#32 ∧ s.dmem = [(0x2017, 0x40#8)] := by decide

/-- E1 to E17: the verdict of each row, 0 for acceptance. -/
theorem test_acceptance_vectors :
    ([(0x00000000#32, false, 0, 0), (0x00000000#32, true, 0, 0), (0xFFFFFFFF#32, false, 0, 0),
      (0x000023F1#32, false, 0, 1024), (0x000023F1#32, false, 1473, 0), (0x000023F1#32, false, 1472, 0),
      (0x00000091#32, false, 0, 9), (0x00000091#32, false, 0, 10), (0x00000091#32, false, 5, 5)] ++
     [(0x00002002#32, false, 1024, 0), (0x00002002#32, false, 1025, 0), (0x00000082#32, false, 2032, 0),
      (0x00000082#32, false, 2033, 0), (0x00000002#32, false, 0, 0), (0x00004002#32, false, 0, 0),
      (0x00002581#32, false, 2000, 0), (0x00000010#32, false, 0, 0), (0x00004093#32, false, 0, 0)]).map
      (fun (r : Word × Bool × Nat × Nat) => match checkCommand r.1 r.2.1 (BitVec.ofNat 11 r.2.2.1) (BitVec.ofNat 11 r.2.2.2) with
        | none => 0
        | some c => (cmdCode c).toNat) =
      [0, 1, 2, 0, 5, 0, 6, 0, 0, 0, 5, 0, 5, 4, 3, 4, 3, 2] := by decide

/-- P3: a rejected size is recorded, a second rejection keeps the record, and STATUS bit 2 clears
it. -/
theorem test_host_command_fault :
    let s := issueCommand 0x00000003#32 (issueCommand 0x00000042#32 State.reset)
    statusWord s = 0x00000404#32 ∧ s.errCmd = 0x00000042#32 ∧
    (hostAccess (.write 0x00C#14 0b1111#4 0x4#32) s).errCmd = 0#32 := by decide

/-- P4: the three placements of the completion, as agendas: v, STATUS and ACCINFO of each. -/
theorem test_three_schedules :
    ([[Move.host (.read 0x2000#14 0b1111#4), .host (.write 0x010#14 0b1111#4 0#32), .engine],
      [Move.engine, .host (.read 0x2000#14 0b1111#4), .host (.write 0x010#14 0b1111#4 0#32)],
      [Move.host (.read 0x2000#14 0b1111#4), .engine, .host (.write 0x010#14 0b1111#4 0#32)]].map
      fun as =>
        let s := { issueCommand 1#32 (loaded 0#11 1#11 0 [0x40000000#32]) with agenda := as }
        match Host.Core.run Sys2Proof.core 4 s with
        | .next t => some (statusWord t, t.accInfo, readWord t.dmem 1, t.sum, t.max)
        | .fault _ => none
        | .refused _ => none) =
    [some (0x10E#32, 0x00032000#32, 0x3FD744FD#32, 0x40000000#32, 0x3FD744FD#32),
     some (0x002#32, 0x00000000#32, 0x3FD744FD#32, 0x40000000#32, 0x3FD744FD#32),
     some (0x00A#32, 0x00032000#32, 0x3FD744FD#32, 0x40000000#32, 0x3FD744FD#32)] := by decide +kernel

/-! ### Witnesses: concrete states and operands that meet a statement's hypotheses, at the ends of
their ranges -/

/-- A NOP, POWLAW or FHT word in flight with both bases 0. -/
def inFlight (w : Word) : State := { State.reset with lcmd := w, lastCmd := w, busy := true }

/-- A rejected `FHT 4` on record. -/
def rejected : State := { State.reset with err := true, errCode := 4#4, errCmd := 0x42#32 }

/-- The invariant of a state with no fault on record. -/
theorem inv_of_no_fault {s : State} (hm : Memory.wf s.dmem) (hf : s.busy = true → inFlightOk s = true)
    (hd : s.done = false) (hl : s.lastCmd = s.lcmd) (he : s.err = false ∧ s.errCode = 0#4 ∧ s.errCmd = 0#32)
    (ha : s.accErr = false ∧ s.accInfo = 0#32) (hs : s.sum = 0#32 ∧ s.max = 0#32) : s.Inv where
  memory := hm
  inFlight := hf
  busyNotDone := fun _ => hd
  lastCmd := hl
  cmdRecord := ⟨fun _ => he.2, fun h => by simp [he.1] at h⟩
  accRecord := ⟨fun _ => ha.2, fun h => by simp [ha.1] at h⟩
  sumNonneg := by rw [hs.1]; decide
  maxNonneg := by rw [hs.2]; decide

/-- An acceptable word in flight is a state of the invariant with BUSY = 1. -/
theorem test_witness_inv_in_flight {w : Word} (h : inFlightOk (inFlight w) = true) : (inFlight w).Inv :=
  inv_of_no_fault memory_nil_wf (fun _ => h) rfl rfl ⟨rfl, rfl, rfl⟩ ⟨rfl, rfl⟩ ⟨rfl, rfl⟩

theorem test_witness_inv_rejected : rejected.Inv where
  memory := memory_nil_wf
  inFlight := by decide
  busyNotDone := by decide
  lastCmd := rfl
  cmdRecord := ⟨by decide, fun _ => ⟨.eArg, rfl⟩⟩
  accRecord := ⟨fun _ => rfl, fun h => by cases h⟩
  sumNonneg := by decide
  maxNonneg := by decide

/-- AcceptedCommandAlwaysCompletes, MachineNeverHalts, StepKeepsInvariant, EngineTurnFrame,
AgendaDrainsAndEngineIdles, CompletionSetBeatsHostClear: a state of the invariant with each command
in flight; PowlawCompletes in place at its longest. -/
theorem test_witness_busy_states :
    (inFlight 0x00000000#32).Inv ∧ (inFlight 0x000023F1#32).Inv ∧ (inFlight 0x00002002#32).Inv :=
  ⟨test_witness_inv_in_flight (by decide), test_witness_inv_in_flight (by decide),
    test_witness_inv_in_flight (by decide)⟩

/-- StepKeepsInvariant, EngineTurnFrame: the engine's turn of a state of the invariant. -/
theorem test_witness_engine_turn :
    ∃ t, engineTurn (inFlight 0#32) = .next t ∧ step (inFlight 0#32) = .next t ∧ (inFlight 0#32).Inv :=
  ⟨_, rfl, rfl, test_witness_busy_states.1⟩

/-- NopHasOneEncoding, NopCompletes: the least and the greatest single bit beyond OPC. -/
theorem test_witness_nop_words :
    (0x00000010#32).extractLsb' 0 4 = 0#4 ∧ (0x80000000#32).extractLsb' 0 4 = 0#4 ∧
    (0x00000010#32).toNat % 16 = 0 ∧ (0x80000000#32).toNat % 16 = 0 ∧
    (0x00000010#32 : Word) ≠ 0x00000000#32 ∧ (0x80000000#32 : Word) ≠ 0x00000000#32 := by decide

/-- HostReadFollowsTheMap, RefusedAccessIsRecordedFirst: each cause of refusal, each at an offset
where the earlier causes do not apply, and offsets at the map's ends that no cause applies to. -/
theorem test_witness_refusals :
    accessCause 0x3FFF#14 0b0000#4 true = some .misaligned ∧
    accessCause 0x3FFC#14 0b0111#4 true = some .narrow ∧
    accessCause 0x2000#14 0b1111#4 true = some .dmemBusy ∧
    accessCause 0x3FFC#14 0b1111#4 true = some .dmemBusy ∧
    ([0x000#14, 0x03C#14, 0x040#14, 0x05C#14, 0x060#14, 0x1FFC#14].map fun o => accessCause o 0b1111#4 true) =
      [none, none, none, none, none, none] ∧
    ([0x2000#14, 0x3FFC#14].map fun o => accessCause o 0b1111#4 false) = [none, none] := by decide

/-- HostReadFollowsTheMap, ReadOnlyAndReservedIgnoreWrites: the ends of the two reserved ranges are
below DMEM, and none of them is a writable register. -/
theorem test_witness_reserved_ends :
    [0x030#14, 0x03C#14, 0x060#14, 0x1FFC#14, 0x000#14, 0x05C#14].all (fun o : Offset =>
      o.toNat % 4 = 0 && o.toNat < 0x2000 && !([0x008, 0x00C, 0x010, 0x014, 0x018].contains o.toNat)) = true ∧
    [0x030#14, 0x03C#14, 0x060#14, 0x1FFC#14].all (fun o : Offset =>
      (0x030 ≤ o.toNat && o.toNat ≤ 0x03C) || (0x060 ≤ o.toNat && o.toNat ≤ 0x1FFC)) = true := by decide

/-- RefusedAccessIsRecordedFirst, StatusWriteClearsByOne, FirstRejectedCommandIsKept,
CtrlWriteEnablesOrSoftResets, IdempotentAccesses: a word for each bit that a hypothesis names. -/
theorem test_witness_bits :
    (0x8#32).getLsbD 3 = true ∧ (0x4#32).getLsbD 2 = true ∧ (0x3#32).getLsbD 1 = true ∧
    (0xFFFFFFFD#32).getLsbD 1 = false ∧ State.reset.busy = false ∧ (inFlight 0#32).busy = true ∧
    Memory.wf State.reset.dmem := by
  refine ⟨by decide, by decide, by decide, by decide, rfl, rfl, memory_nil_wf⟩

/-- IdempotentAccesses: an offset and a word for each of its four kinds of write, DMEM's last word the
fourth. -/
theorem test_witness_idempotent_writes :
    [(0x014#14, 0xFFFFFFFF#32), (0x018#14, 0#32), (0x008#14, 1#32), (0x3FFC#14, 1#32)].all
      (fun (r : Offset × Word) => r.1 = 0x014#14 || r.1 = 0x018#14 ||
        (r.1 = 0x008#14 && r.2.getLsbD 1 = false) ||
        (0x2000 ≤ r.1.toNat && r.1.toNat % 4 = 0)) = true := by decide

/-- DmemWindowReadsAndWrites: DMEM's first and last words, with a canonical memory, BUSY 0 and 1,
and no refusal on record. -/
theorem test_witness_dmem_ends :
    (0 < 2048 ∧ 2047 < 2048) ∧ Memory.wf State.reset.dmem ∧ State.reset.busy = false ∧
    Memory.wf (inFlight 0#32).dmem ∧ (inFlight 0#32).busy = true ∧ (inFlight 0#32).accErr = false :=
  ⟨by decide, memory_nil_wf, rfl, memory_nil_wf, rfl, rfl⟩

/-- IssueAcceptsOrRejects: an accepted word, a rejected word, and BUSY = 1. -/
theorem test_witness_issue :
    checkCommand 0x00002002#32 State.reset.busy State.reset.srcBase State.reset.dstBase = none ∧
    checkCommand 0x00000042#32 State.reset.busy State.reset.srcBase State.reset.dstBase = some .eArg ∧
    (inFlight 0#32).busy = true := by decide

/-- FirstRejectedCommandIsKept: a step with ERR = 1 that is neither a clear of ERR nor a reset, its
last clause an acceptance with ERR = 1. -/
theorem test_witness_first_rejected :
    rejected.Inv ∧ rejected.err = true ∧ (∃ t, step rejected = .next t) ∧ rejected.agenda = [] ∧
    checkCommand 0#32 rejected.busy rejected.srcBase rejected.dstBase = none :=
  ⟨test_witness_inv_rejected, rfl, ⟨_, rfl⟩, rfl, by decide⟩

/-- FirstRejectedCommandIsKept: the same with a host access next, a second rejected command. -/
theorem test_witness_first_rejected_host :
    ∃ a rest t, ({ rejected with agenda := [.host (.write 0x010#14 0b1111#4 3#32)] } : State).agenda
      = .host a :: rest ∧ isSoftReset a = false ∧
      (∀ w, a = .write 0x00C#14 0b1111#4 w → w.getLsbD 2 = false) ∧
      step { rejected with agenda := [.host (.write 0x010#14 0b1111#4 3#32)] } = .next t :=
  ⟨.write 0x010#14 0b1111#4 3#32, [], _, rfl, by decide, by simp, rfl⟩

/-- PowlawCompletes, PowlawReadsOnlyItsInput: the longest buffers below and above each other (E4,
E6), in place at DMEM's last word, and ranges that just miss each other (E8). -/
theorem test_witness_powlaw_operands :
    ([(575#10, 0#11, 1024#11), (575#10, 1472#11, 0#11), (0#10, 2047#11, 2047#11), (9#10, 0#11, 10#11)].all
      fun (r : BitVec 10 × WordAddr × WordAddr) =>
        r.1.toNat ≤ 575 && r.2.1.toNat + r.1.toNat ≤ 2047 && r.2.2.toNat + r.1.toNat ≤ 2047 &&
        (r.2.1 = r.2.2 || r.2.1.toNat + r.1.toNat < r.2.2.toNat || r.2.2.toNat + r.1.toNat < r.2.1.toNat) &&
        powlawCause r.1 r.2.1 r.2.2 = none) = true ∧ Memory.wf State.reset.dmem :=
  ⟨by decide, memory_nil_wf⟩

/-- PowlawReadsOnlyItsInput: two states that agree on the one word read and differ past it, both
completing. -/
theorem test_witness_powlaw_agreeing_states :
    powlawCause 0#10 0#11 0#11 = none ∧ readWord (writeWord [] 1 1#32) 0 = readWord [] 0 ∧
    (∃ t, exec (.powlaw 0#10) State.reset = .next t) ∧
    (∃ t, exec (.powlaw 0#10) { State.reset with dmem := writeWord [] 1 1#32 } = .next t) ∧
    Memory.wf (writeWord [] 1 1#32) :=
  ⟨by decide, by decide,
    ⟨_, execPowlaw_of_none (show powlawCause 0#10 State.reset.lsrc State.reset.ldst = none by decide)⟩,
    ⟨_, execPowlaw_of_none (m := 0#10) (s := { State.reset with dmem := writeWord [] 1 1#32 }) (by decide)⟩,
    writeWord_wf memory_nil_wf _ (by decide)⟩

/-- FhtCompletes, FhtOfZeroIsZero: the largest buffer and the smallest one, each ending at DMEM's
last word (E9, E11), all words +0. -/
theorem test_witness_fht_operands :
    512 ∈ [8, 32, 128, 512] ∧ 1024 + 2 * 512 ≤ 2048 ∧ 8 ∈ [8, 32, 128, 512] ∧ 2032 + 2 * 8 ≤ 2048 ∧
    Memory.wf State.reset.dmem ∧ ∀ a, readWord State.reset.dmem a = 0x00000000#32 :=
  ⟨by decide, by decide, by decide, by decide, memory_nil_wf, fun _ =>
    (by decide : wordOfBytes Memory.unlisted Memory.unlisted Memory.unlisted Memory.unlisted = 0#32)⟩

/-- InadmissibleLatchedOperandsTakeCmdFault: each operand cause at its first value. -/
theorem test_witness_inadmissible :
    powlawCause 576#10 0#11 0#11 = some .eArg ∧ powlawCause 575#10 1473#11 0#11 = some .eRange ∧
    powlawCause 575#10 0#11 1473#11 = some .eRange ∧ powlawCause 9#10 0#11 9#11 = some .eOverlap ∧
    fhtCause 16#10 0#11 = some .eArg ∧ fhtCause 8#10 2033#11 = some .eRange ∧
    (16#10 : BitVec 10).toNat ∉ [8, 32, 128, 512] ∧ State.reset.err = false := by decide

/-- CompletionUsesLatchedOperands: each command with admitted operands completes. -/
theorem test_witness_admitted :
    [Instr.nop, .powlaw 575#10, .fht 512#10].all (fun i => operandCause i 0#11 1024#11 = none) = true ∧
    (∃ t, exec .nop State.reset = .next t) ∧
    (∃ t, exec (.powlaw 575#10) { State.reset with ldst := 1024#11 } = .next t) ∧
    (∃ t, exec (.fht 512#10) State.reset = .next t) :=
  ⟨by decide, ⟨_, rfl⟩,
    ⟨_, execPowlaw_of_none (m := 575#10) (s := { State.reset with ldst := 1024#11 }) (by decide)⟩,
    ⟨_, execFht_of_none (n := 512#10) (s := State.reset) (by decide)⟩⟩

/-- FhtStageRunsInOrder, Butterfly0WritesFourWords, ButterflySqrt2WritesFourWords, ButterflyRotWritesEightWords: the
first and the last places of a butterfly in sixteen words with k1 = 4. -/
theorem test_witness_butterflies :
    0 < 4 ∧ 0 + 3 * 4 < (List.replicate 16 0#32).length ∧ 3 + 3 * 4 < (List.replicate 16 0#32).length ∧
    (0 ≤ 1 ∧ 1 < 0 + 4 ∧ 0 ≤ 3 ∧ 3 < 0 + 4 ∧ 1 ≠ 3 ∧ 0 + 4 * 4 ≤ (List.replicate 16 0#32).length) := by
  decide

/-- RotationRecurrence: the last stage's pair. -/
theorem test_witness_rotation :
    (3, 0x3F7FFEC4#32, 0x3BC90F88#32) ∈ [(0, 0x3F6C835E#32, 0x3EC3EF15#32), (3, 0x3F7FFEC4#32, 0x3BC90F88#32)] := by
  decide

/-- GroupOrderDoesNotMatter: the first stage of N = 64 with its groups in the reverse order, at its
only sub-index. -/
theorem test_witness_group_order :
    (64, 4) ∈ [(16, 4), (64, 4), (64, 16)] ∧ (List.replicate 64 0#32).length = 64 ∧
    [48, 32, 16, 0].Perm (groupBases 64 (4 * 4)) ∧ [48, 32, 16, 0] ≠ groupBases 64 (4 * 4) ∧
    1 ≤ 1 ∧ 1 < 4 / 2 := by decide

/-- PowlawCornerInputs: words at the ends of each range of magnitudes, and the NaN next to
infinity. -/
theorem test_witness_powlaw_corners :
    isNan 0x7F800001#32 = true ∧ isNan 0xFFFFFFFF#32 = true ∧ fmag 0x8D800000#32 ≤ 0x0D800000 ∧
    0x6A214518 ≤ fmag 0x6A214518#32 ∧ fmag 0xFF800000#32 ≤ 0x7F800000 ∧
    0x0D800001 ≤ fmag 0x0D800001#32 ∧ fmag 0xEA214517#32 ≤ 0x6A214517 := by decide

/-- FmaxIsTheOrderedMaximum: words with the first value above, not above (two zeros; an infinity
and itself), and a NaN. -/
theorem test_witness_fmax :
    isNan 0x7FC00001#32 = true ∧ isNan 0x7F800000#32 = false ∧ ValueAbove 0x3F800000#32 0xBF800000#32 ∧
    ValueAbove 0x7F800000#32 0x7F7FFFFF#32 ∧ ¬ ValueAbove 0x7F800000#32 0x7F800000#32 ∧
    ¬ ValueAbove 0x00000000#32 0x80000000#32 ∧ ValueAbove 0xFF7FFFFF#32 0xFF800000#32 := by
  unfold ValueAbove
  decide

/-- MaxIsIndependentOfTheTree: R156's own tree, and a serial one over the lanes in reverse. -/
theorem test_witness_lane_trees :
    (LaneTree.join
      (.join (.join (.lane 0) (.lane 1)) (.join (.lane 2) (.lane 3)))
      (.join (.join (.lane 4) (.lane 5)) (.join (.lane 6) (.lane 7)))).lanes.Perm (List.range 8) ∧
    (LaneTree.join (.lane 7) (.join (.lane 6) (.join (.lane 5) (.join (.lane 4) (.join (.lane 3)
      (.join (.lane 2) (.join (.lane 1) (.lane 0)))))))).lanes.Perm (List.range 8) := by decide

/-- NanResultsAreCanonical, OperandOrderAndZeroAreNeutral: each operation has a NaN result. -/
theorem test_witness_nan_results :
    isNan (fadd 0x7F800000#32 0xFF800000#32) = true ∧ isNan (fsub 0x7F800000#32 0x7F800000#32) = true ∧
    isNan (fmul 0x80000000#32 0x7F800000#32) = true ∧ isNan (fsqrt 0xBF800000#32) = true := by
  decide +kernel

/-- FaddIsCorrectlyRounded, FmulIsCorrectlyRounded: finite words on both sides of overflow. -/
theorem test_witness_overflow_sides :
    isFinite 0x7F7FFFFF#32 = true ∧ isFinite 0x73000000#32 = true ∧ isFinite 0x72FFFFFF#32 = true ∧
    overflowUnits ≤ (fval 0x7F7FFFFF#32 + fval 0x73000000#32).natAbs ∧
    (fval 0x7F7FFFFF#32 + fval 0x72FFFFFF#32).natAbs < overflowUnits ∧
    overflowUnits * 2 ^ 149 ≤ (fval 0x7F7FFFFF#32 * fval 0x3F800001#32).natAbs ∧
    (fval 0x7F7FFFFF#32 * fval 0x3F800000#32).natAbs < overflowUnits * 2 ^ 149 := by decide +kernel

/-- FsqrtIsCorrectlyRounded: the least subnormal, and words on both sides of its root. -/
theorem test_witness_sqrt :
    isFinite 0x00000001#32 = true ∧ isZero 0x00000001#32 = false ∧ fneg 0x00000001#32 = false ∧
    fval (fsqrt 0x00000001#32) < fval 0x7F7FFFFF#32 ∧ fval 0x00000000#32 < fval (fsqrt 0x00000001#32) := by
  decide +kernel

/-- SpecialCasesOfSignedZeroAndInfinity, OperandOrderAndZeroAreNeutral: a word for each premise. -/
theorem test_witness_special_cases :
    isFinite 0xFF7FFFFF#32 = true ∧ isInf 0xFF800000#32 = true ∧ isNan (fmul 0x80000000#32 0x3F800000#32) = false ∧
    isNan 0xFF800000#32 = false ∧ isZero 0xFF800000#32 = false ∧ fneg 0xFF800000#32 = true ∧
    isNonnegOrQnan 0x7FC00000#32 = true ∧ isNonnegOrQnan 0x00000000#32 = true ∧
    ¬ (isZero 0x00000000#32 = true ∧ isZero 0x80000001#32 = true) := by decide +kernel

/-- StepRunsTheDecodedCommand, FetchedWordRunsNext: a command in flight with each agenda, an idle
engine, and a host access next. -/
theorem test_witness_steps :
    (inFlight 0x2002#32).busy = true ∧ decodeWord (inFlight 0x2002#32).lcmd = .ok (.fht 512#10) ∧
    (inFlight 0x2002#32).agenda = [] ∧ State.reset.busy = false ∧
    ({ State.reset with agenda := [.engine, .hardReset] } : State).agenda = .engine :: [.hardReset] ∧
    ({ State.reset with agenda := [.host (.read 0#14 0xF#4)] } : State).agenda
      = .host (.read 0#14 0xF#4) :: [] := by decide

/-- HardResetValues: the reset input with a command in flight. -/
theorem test_witness_hard_reset :
    ({ inFlight 0x2002#32 with agenda := [.hardReset] } : State).agenda = .hardReset :: [] := rfl

/-- AbortChangesOnlyTheFootprint: a soft reset of each command in flight, an FHT at its largest. -/
theorem test_witness_abort :
    (inFlight 0x2002#32).Inv ∧ (inFlight 0x2002#32).busy = true ∧ (0x2#32).getLsbD 1 = true ∧
    decodeWord (inFlight 0x2002#32).lcmd = .ok (.fht 512#10) ∧
    (0, 1024) = ((inFlight 0x2002#32).lsrc.toNat, 2 * (512#10 : BitVec 10).toNat) ∧
    decodeWord (inFlight 0x23F1#32).lcmd = .ok (.powlaw 575#10) :=
  ⟨test_witness_busy_states.2.2, rfl, by decide, by decide, by decide, by decide⟩

/-- BusyFreezesTheCommandsInput: accesses that are no soft reset, a CTRL write with SRST = 0 and
a narrow one with SRST = 1 among them. -/
theorem test_witness_no_soft_reset :
    ∀ a ∈ [Access.write 0x008#14 0b1111#4 0x1#32, .write 0x008#14 0b0001#4 0x2#32, .read 0x008#14 0b1111#4],
      isSoftReset a = false := by decide

/-- OnlyPowlawWritesSumAndMax: a POWLAW in flight over one word 1.0, whose completion changes SUM. -/
theorem test_witness_sum_changes :
    let s := { inFlight 0x1#32 with dmem := writeWord [] 0 0x3F800000#32 }
    s.Inv ∧ ∃ t, step s = .next t ∧ t.sum ≠ s.sum := by
  refine ⟨inv_of_no_fault (writeWord_wf memory_nil_wf _ (by decide)) (fun _ => by decide) rfl rfl
    ⟨rfl, rfl, rfl⟩ ⟨rfl, rfl⟩ ⟨rfl, rfl⟩, ?_⟩
  obtain ⟨t, ht, hp⟩ := exists_of_nextHolds (p := fun t => t.sum ≠ 0#32)
    (o := step { inFlight 0x1#32 with dmem := writeWord [] 0 0x3F800000#32 }) (by decide +kernel)
  exact ⟨t, ht, of_decide_eq_true hp⟩

/-- LastCmdIsTheLastAccepted: an accepted POWLAW, which changes LASTCMD. -/
theorem test_witness_last_cmd_changes :
    let s := { State.reset with agenda := [.host (.write 0x010#14 0b1111#4 0x1#32)] }
    s.Inv ∧ ∃ t, step s = .next t ∧ t.lastCmd ≠ s.lastCmd :=
  ⟨inv_of_no_fault memory_nil_wf (by decide) rfl rfl ⟨rfl, rfl, rfl⟩ ⟨rfl, rfl⟩ ⟨rfl, rfl⟩, _, rfl,
    by decide⟩

/-- PlatformParameters: the first address past the window. -/
theorem test_witness_outside_window : Config.baseAddr + 0x4000 ≤ Config.baseAddr + 0x4000 := Nat.le_refl _

end Sys2Proof.Machine.Tests
end

section
/-! PROOFS. Binary32 (spec/00_scope.md R9 to R13): what each primitive answers on each class of
operands, and the obligations that follow. -/

namespace Sys2Proof.Machine

/-! ### Classes of words -/

theorem isInf_of_isFinite {w : Word} (h : isFinite w = true) : isInf w = false := by
  simp only [isFinite, isInf, decide_eq_true_eq, decide_eq_false_iff_not] at *
  omega

theorem isZero_of_isInf {w : Word} (h : isInf w = true) : isZero w = false := by
  have : infMag ≠ 0 := by decide
  simp only [isInf, isZero, decide_eq_true_eq, decide_eq_false_iff_not] at *
  omega

theorem isNan_either_or_neither (a b : Word) :
    (isNan a = true ∨ isNan b = true) ∨ (isNan a = false ∧ isNan b = false) := by
  cases isNan a <;> cases isNan b <;> simp

@[simp] theorem isInf_fnegate (w : Word) : isInf (fnegate w) = isInf w := by simp [isInf]
@[simp] theorem isFinite_fnegate (w : Word) : isFinite (fnegate w) = isFinite w := by
  simp [isFinite]

/-- Two infinities of one sign are one word. -/
theorem eq_of_isInf {a b : Word} (ha : isInf a = true) (hb : isInf b = true)
    (hs : fneg a = fneg b) : a = b := by
  simp only [isInf, decide_eq_true_eq] at ha hb
  exact word_ext hs (ha.trans hb.symm)

/-- A zero that is not negative is +0. -/
theorem eq_posZero {w : Word} (hz : fmag w = 0) (hs : fneg w = false) : w = 0x00000000#32 :=
  word_ext hs hz

theorem eq_fpack_iff (w : Word) (neg : Bool) {m : Nat} (h : m < 2 ^ 31) :
    w = fpack neg m ↔ fneg w = neg ∧ fmag w = m := by
  constructor
  · rintro rfl
    exact ⟨fneg_fpack neg h, fmag_fpack neg h⟩
  · rintro ⟨hs, hm⟩
    rw [← hs, ← hm, fpack_self]

theorem eq_iff_fneg_fmag (a b : Word) : a = b ↔ fneg a = fneg b ∧ fmag a = fmag b :=
  ⟨fun h => h ▸ ⟨rfl, rfl⟩, fun h => word_ext h.1 h.2⟩

/-! ### Exact values -/

theorem fval_nonneg {w : Word} (h : fneg w = false) : fval w = magUnits (fmag w) := by
  simp [fval, h]

@[simp] theorem fval_fnegate (w : Word) : fval (fnegate w) = -fval w := by
  simp only [fval, fneg_fnegate, fmag_fnegate]
  cases fneg w
  · rfl
  · simp

/-- The product of two values has the product of the magnitudes and the XOR of the signs. -/
theorem fval_mul (a b : Word) :
    fval a * fval b = if fneg a != fneg b
      then -((magUnits (fmag a) * magUnits (fmag b) : Nat) : Int)
      else ((magUnits (fmag a) * magUnits (fmag b) : Nat) : Int) := by
  simp only [fval]
  cases fneg a <;> cases fneg b <;> simp

theorem natAbs_fval_mul (a b : Word) :
    (fval a * fval b).natAbs = magUnits (fmag a) * magUnits (fmag b) := by
  rw [fval_mul]
  split
  · exact Int.natAbs_neg _
  · rfl

theorem magUnits_infMag : magUnits infMag = 2 ^ 23 * 2 ^ 254 := by decide

/-- A finite magnitude is at most the largest one, half a unit in the last place short of
overflow. -/
theorem magUnits_lt_overflowUnits {m : Nat} (h : m < infMag) : magUnits m < overflowUnits := by
  have hmax : magUnits m ≤ magUnits (infMag - 1) := magUnits_strictMono.monotone (by omega)
  have hlt : magUnits (infMag - 1) < overflowUnits := by decide
  exact Nat.lt_of_le_of_lt hmax hlt

/-- A finite magnitude is its own rounding. -/
theorem roundMag_magUnits {m : Nat} (h : m < infMag) : roundMag (magUnits m) 0 = m := by
  have hlt : magUnits m < overflowUnits * 2 ^ 0 := by
    simpa using magUnits_lt_overflowUnits h
  have hnear := ((roundMag_nearest hlt).2 m).1
  exact magUnits_inj.mp (by omega)

theorem roundMag_zero (k : Nat) : roundMag 0 k = 0 := by
  simp [roundMag, dropBits, divTiesToEven]

/-! ### The order of values -/

/-- Among finite words the key orders as the values do. -/
theorem fval_lt_iff_forder_lt (a b : Word) : fval b < fval a ↔ forder b < forder a := by
  have hab := magUnits_strictMono.lt_iff_lt (a := fmag a) (b := fmag b)
  have hba := magUnits_strictMono.lt_iff_lt (a := fmag b) (b := fmag a)
  have ha := @magUnits_eq_zero (fmag a)
  have hb := @magUnits_eq_zero (fmag b)
  unfold fval forder
  split <;> split <;> omega

/-- The key orders the words that are no NaN as R13's comparison does, infinities included. -/
theorem valueAbove_iff_forder_lt {a b : Word} (ha : isNan a = false) (hb : isNan b = false) :
    ValueAbove a b ↔ forder b < forder a := by
  unfold ValueAbove
  split
  · exact fval_lt_iff_forder_lt a b
  · next hfin =>
    have hinf : 0 < infMag := by decide
    simp only [isNan, isFinite, decide_eq_true_eq, decide_eq_false_iff_not] at ha hb hfin
    rw [Ne, eq_iff_fneg_fmag, eq_fpack_iff a _ infMag_lt, eq_fpack_iff b _ infMag_lt]
    unfold forder
    cases fneg a <;> cases fneg b <;>
      simp only [if_true, if_false, Bool.false_eq_true, reduceCtorEq, true_and, false_and,
        or_false, false_or, or_self, not_false_eq_true, false_iff] <;>
      omega

/-- Two words of one key are equal, or both zeros. -/
theorem eq_or_isZero_of_forder_eq {a b : Word} (h : forder a = forder b) :
    a = b ∨ (isZero a = true ∧ isZero b = true) := by
  rw [eq_iff_fneg_fmag]
  simp only [isZero, decide_eq_true_eq]
  revert h
  unfold forder
  cases fneg a <;> cases fneg b <;>
    simp only [if_true, if_false, Bool.false_eq_true, reduceCtorEq, true_and, false_and,
      false_or] <;>
    omega

/-! ### What each primitive answers, by the classes of its operands -/

theorem fadd_of_isNan {a b : Word} (h : isNan a = true ∨ isNan b = true) : fadd a b = qnan := by
  unfold fadd
  exact if_pos (by simpa using h)

theorem fadd_of_isInf_left {a b : Word} (ha : isInf a = true) (hb : isNan b = false) :
    fadd a b = if isInf b && fneg a != fneg b then qnan else a := by
  simp [fadd, ha, hb, isNan_of_isInf ha]

theorem fadd_of_isInf_right {a b : Word} (ha : isFinite a = true) (hb : isInf b = true) :
    fadd a b = b := by
  simp [fadd, hb, isNan_of_isFinite ha, isInf_of_isFinite ha, isNan_of_isInf hb]

theorem fadd_of_isFinite {a b : Word} (ha : isFinite a = true) (hb : isFinite b = true) :
    fadd a b = faddFinite a b := by
  simp [fadd, isNan_of_isFinite ha, isNan_of_isFinite hb, isInf_of_isFinite ha,
    isInf_of_isFinite hb]

theorem fmul_of_isNan {a b : Word} (h : isNan a = true ∨ isNan b = true) : fmul a b = qnan := by
  unfold fmul
  exact if_pos (by simpa using h)

theorem fmul_of_isInf {a b : Word} (ha : isNan a = false) (hb : isNan b = false)
    (h : isInf a = true ∨ isInf b = true) :
    fmul a b = if isZero a || isZero b then qnan else fpack (fneg a != fneg b) infMag := by
  simp [fmul, ha, hb, h]

theorem fmul_of_isFinite {a b : Word} (ha : isFinite a = true) (hb : isFinite b = true) :
    fmul a b =
      fpack (fneg a != fneg b) (roundMag (magUnits (fmag a) * magUnits (fmag b)) 149) := by
  simp [fmul, isNan_of_isFinite ha, isNan_of_isFinite hb, isInf_of_isFinite ha,
    isInf_of_isFinite hb]

theorem fsqrt_of_isNan {a : Word} (h : isNan a = true) : fsqrt a = qnan := by
  simp [fsqrt, h]

theorem fsqrt_of_isZero {a : Word} (h : isZero a = true) : fsqrt a = a := by
  have hn : isNan a = false := by
    simp only [isZero, isNan, decide_eq_true_eq, decide_eq_false_iff_not] at *
    omega
  simp [fsqrt, hn, h]

theorem fsqrt_of_fneg {a : Word} (hz : isZero a = false) (hs : fneg a = true) :
    fsqrt a = qnan := by
  simp [fsqrt, hz, hs]

theorem fsqrt_of_isInf {a : Word} (h : isInf a = true) (hs : fneg a = false) : fsqrt a = a := by
  simp [fsqrt, h, hs, isNan_of_isInf h, isZero_of_isInf h]

theorem fsqrt_of_isFinite {a : Word} (h : isFinite a = true) (hz : isZero a = false)
    (hs : fneg a = false) :
    fsqrt a = fpack false (roundMag (isqrtSticky (magUnits (fmag a) * 2 ^ 149)) 1) := by
  simp [fsqrt, hz, hs, isNan_of_isFinite h, isInf_of_isFinite h]

theorem fmax_of_isNan {a b : Word} (h : isNan a = true ∨ isNan b = true) : fmax a b = qnan := by
  unfold fmax
  exact if_pos (by simpa using h)

theorem fmax_of_not_isNan {a b : Word} (ha : isNan a = false) (hb : isNan b = false) :
    fmax a b = if forder b < forder a then a else b := by
  simp [fmax, ha, hb]

/-! ### Where a result is a NaN -/

theorem isNan_fadd_iff (a b : Word) :
    isNan (fadd a b) = true ↔
      isNan a = true ∨ isNan b = true ∨ (isInf a = true ∧ isInf b = true ∧ fneg a ≠ fneg b) := by
  rcases isNan_either_or_neither a b with hn | ⟨ha, hb⟩
  · rw [fadd_of_isNan hn, ← or_assoc]
    exact iff_of_true isNan_qnan (.inl hn)
  rcases isFinite_or_isInf ha with hfa | hia
  · have hra : isInf a = false := isInf_of_isFinite hfa
    rcases isFinite_or_isInf hb with hfb | hib
    · simp [fadd_of_isFinite hfa hfb, isNan_faddFinite, ha, hb, hra]
    · simp [fadd_of_isInf_right hfa hib, ha, hb, hra]
  · rw [fadd_of_isInf_left hia hb]
    split
    · next h => simpa [isNan_qnan, ha, hb, hia] using h
    · next h => simpa [ha, hb, hia] using h

theorem isNan_fsub_iff (a b : Word) :
    isNan (fsub a b) = true ↔
      isNan a = true ∨ isNan b = true ∨ (isInf a = true ∧ isInf b = true ∧ fneg a = fneg b) := by
  rw [fsub, isNan_fadd_iff, isNan_fnegate, isInf_fnegate, fneg_fnegate, Bool.ne_not]

theorem isNan_fmul_iff (a b : Word) :
    isNan (fmul a b) = true ↔
      isNan a = true ∨ isNan b = true ∨ (isInf a = true ∧ isZero b = true) ∨
        (isZero a = true ∧ isInf b = true) := by
  rcases isNan_either_or_neither a b with hn | ⟨ha, hb⟩
  · rw [fmul_of_isNan hn, ← or_assoc]
    exact iff_of_true isNan_qnan (.inl hn)
  by_cases hi : isInf a = true ∨ isInf b = true
  · have hinf : isNan (fpack (fneg a != fneg b) infMag) = false := isNan_fpack _ (Nat.le_refl _)
    rw [fmul_of_isInf ha hb hi]
    rcases hi with hi | hi
    · cases isZero b <;> simp [ha, hb, hi, hinf, isZero_of_isInf hi, isNan_qnan]
    · cases isZero a <;> simp [ha, hb, hi, hinf, isZero_of_isInf hi, isNan_qnan]
  · obtain ⟨hfa, hfb⟩ : isInf a = false ∧ isInf b = false := by simpa using hi
    have hfa' := (isFinite_or_isInf ha).resolve_right (by simp [hfa])
    have hfb' := (isFinite_or_isInf hb).resolve_right (by simp [hfb])
    simp [fmul_of_isFinite hfa' hfb', isNan_fpack _ (roundMag_le _ _), ha, hb, hfa, hfb]

theorem isNan_fsqrt_iff (a : Word) :
    isNan (fsqrt a) = true ↔ isNan a = true ∨ (fneg a = true ∧ isZero a = false) := by
  by_cases hn : isNan a = true
  · simp [fsqrt_of_isNan hn, isNan_qnan, hn]
  rw [Bool.not_eq_true] at hn
  by_cases hz : isZero a = true
  · simp [fsqrt_of_isZero hz, hn, hz]
  rw [Bool.not_eq_true] at hz
  cases hs : fneg a
  · rcases isFinite_or_isInf hn with hf | hi
    · simp [fsqrt_of_isFinite hf hz hs, isNan_fpack _ (roundMag_le _ _), hn]
    · simp [fsqrt_of_isInf hi hs, hn]
  · simp [fsqrt_of_fneg hz hs, isNan_qnan, hz]

/-! ### Rounding of finite sums, products and roots -/

/-- The word of a sum: the sign is the exact sum's, or any sign with magnitude 0 for a sum of
0. -/
theorem faddFinite_eq_fpack (a b : Word) :
    ∃ neg, faddFinite a b = fpack neg (roundMag (fval a + fval b).natAbs 0) ∧
      (if neg then -((fval a + fval b).natAbs : Int) else ((fval a + fval b).natAbs : Int)) =
        fval a + fval b ∧
      (fval a + fval b ≠ 0 → neg = decide (fval a + fval b < 0)) := by
  unfold faddFinite
  split
  · next h =>
    exact ⟨_, by rw [h, Int.natAbs_zero, roundMag_zero], by simp [h], fun hne => absurd h hne⟩
  · refine ⟨_, rfl, ?_, fun _ => rfl⟩
    simp only [decide_eq_true_eq]
    split <;> omega

theorem fadd_nearestEven {a b : Word} (ha : isFinite a = true) (hb : isFinite b = true)
    (h : (fval a + fval b).natAbs < overflowUnits) :
    NearestEven (fadd a b) (fval a + fval b) 0 := by
  obtain ⟨neg, heq, hval, -⟩ := faddFinite_eq_fpack a b
  have hr := nearestEven_fpack neg (n := (fval a + fval b).natAbs) (k := 0) (by simpa using h)
  rwa [hval, ← heq, ← fadd_of_isFinite ha hb] at hr

theorem fadd_overflow {a b : Word} (ha : isFinite a = true) (hb : isFinite b = true)
    (h : overflowUnits ≤ (fval a + fval b).natAbs) :
    fadd a b = if fval a + fval b < 0 then 0xFF800000#32 else 0x7F800000#32 := by
  obtain ⟨neg, heq, -, hneg⟩ := faddFinite_eq_fpack a b
  have hpos : 0 < overflowUnits := by decide
  rw [fadd_of_isFinite ha hb, heq, hneg (by omega), roundMag_overflow (by simpa using h)]
  split
  · next hlt => simp only [hlt, decide_true]; rfl
  · next hlt => simp only [hlt, decide_false]; rfl

theorem fmul_nearestEven {a b : Word} (ha : isFinite a = true) (hb : isFinite b = true)
    (h : (fval a * fval b).natAbs < overflowUnits * 2 ^ 149) :
    NearestEven (fmul a b) (fval a * fval b) 149 := by
  rw [natAbs_fval_mul] at h
  rw [fmul_of_isFinite ha hb, fval_mul]
  exact nearestEven_fpack _ h

theorem fmul_overflow {a b : Word} (ha : isFinite a = true) (hb : isFinite b = true)
    (h : overflowUnits * 2 ^ 149 ≤ (fval a * fval b).natAbs) : isInf (fmul a b) = true := by
  rw [natAbs_fval_mul] at h
  rw [fmul_of_isFinite ha hb, roundMag_overflow h, isInf, fmag_fpack _ infMag_lt]
  rfl

/-- The radicand of a positive finite word, in the range where a root neither underflows nor
overflows. -/
theorem radicand_bounds {a : Word} (h : isFinite a = true) (hz : isZero a = false) :
    2 ^ 149 ≤ magUnits (fmag a) * 2 ^ 149 ∧ magUnits (fmag a) * 2 ^ 149 < 2 ^ 213 * 2 ^ 213 := by
  simp only [isFinite, isZero, decide_eq_true_eq, decide_eq_false_iff_not] at h hz
  have hpos : magUnits (fmag a) ≠ 0 := fun h0 => hz (magUnits_eq_zero.mp h0)
  have hlt : magUnits (fmag a) < 2 ^ 23 * 2 ^ 254 := magUnits_infMag ▸ magUnits_strictMono h
  omega

/-! ### Operand order, and +0 -/

theorem faddFinite_comm (a b : Word) : faddFinite a b = faddFinite b a := by
  simp only [faddFinite, Int.add_comm (fval a), Bool.and_comm (fneg a)]

/-- Two infinities with a sum that is no NaN are one word, so either may be the answer. -/
theorem fadd_comm (a b : Word) : fadd a b = fadd b a := by
  rcases isNan_either_or_neither a b with hn | ⟨ha, hb⟩
  · rw [fadd_of_isNan hn, fadd_of_isNan hn.symm]
  rcases isFinite_or_isInf ha with hfa | hia <;> rcases isFinite_or_isInf hb with hfb | hib
  · rw [fadd_of_isFinite hfa hfb, fadd_of_isFinite hfb hfa, faddFinite_comm]
  · rw [fadd_of_isInf_right hfa hib, fadd_of_isInf_left hib ha]
    simp [isInf_of_isFinite hfa]
  · rw [fadd_of_isInf_right hfb hia, fadd_of_isInf_left hia hb]
    simp [isInf_of_isFinite hfb]
  · by_cases hs : fneg a = fneg b
    · rw [eq_of_isInf hia hib hs]
    · simp [fadd_of_isInf_left hia hb, fadd_of_isInf_left hib ha, hia, hib, hs, Ne.symm hs]

theorem fmul_comm (a b : Word) : fmul a b = fmul b a := by
  have hsign : (fneg a != fneg b) = (fneg b != fneg a) := bne_comm
  simp only [fmul, Bool.or_comm (isNan a), Bool.or_comm (isInf a), Bool.or_comm (isZero a),
    Nat.mul_comm (magUnits (fmag a)), hsign]

theorem fsub_eq_qnan_of_isNan {a b : Word} (h : isNan (fsub a b) = true) : fsub a b = qnan :=
  (fadd_qnan_or a (fnegate b)).resolve_right (by simpa [fsub] using h)

theorem fsub_comm_of_isNan {a b : Word} (h : isNan (fsub a b) = true) : fsub b a = fsub a b := by
  have h' : isNan (fsub b a) = true := by
    rw [isNan_fsub_iff] at h ⊢
    rcases h with h | h | ⟨ha, hb, hs⟩
    · exact .inr (.inl h)
    · exact .inl h
    · exact .inr (.inr ⟨hb, ha, hs.symm⟩)
  rw [fsub_eq_qnan_of_isNan h, fsub_eq_qnan_of_isNan h']

/-- Only the zeros have one key without being one word, so only their maximum depends on the
order. -/
theorem fmax_comm {a b : Word} (hz : ¬ (isZero a = true ∧ isZero b = true)) :
    fmax a b = fmax b a := by
  rcases isNan_either_or_neither a b with hn | ⟨ha, hb⟩
  · rw [fmax_of_isNan hn, fmax_of_isNan hn.symm]
  rw [fmax_of_not_isNan ha hb, fmax_of_not_isNan hb ha]
  rcases Int.lt_trichotomy (forder a) (forder b) with h | h | h
  · rw [if_neg (by omega), if_pos h]
  · rw [(eq_or_isZero_of_forder_eq h).resolve_right hz]
  · rw [if_pos h, if_neg (by omega)]

/-- Adding +0 to a finite non-negative word is exact. -/
theorem faddFinite_posZero {v : Word} (hf : isFinite v = true) (hs : fneg v = false) :
    faddFinite v 0x00000000#32 = v := by
  have hm : fmag v < infMag := by simpa [isFinite] using hf
  have hsum : fval v + fval 0x00000000#32 = (magUnits (fmag v) : Int) := by
    rw [fval_nonneg hs]
    exact Int.add_zero _
  unfold faddFinite
  rw [hsum]
  split
  · next h0 =>
    have hz : fmag v = 0 := magUnits_eq_zero.mp (by exact_mod_cast h0)
    rw [hs, eq_posZero hz hs]
    rfl
  · have hnl : ¬ (magUnits (fmag v) : Int) < 0 := by omega
    rw [Int.natAbs_natCast, roundMag_magUnits hm, decide_eq_false hnl, ← hs, fpack_self]

theorem fadd_posZero {v : Word} (h : isNonnegOrQnan v = true) : fadd v 0x00000000#32 = v := by
  rcases (isNonnegOrQnan_iff v).mp h with rfl | ⟨hs, hn⟩
  · exact fadd_of_isNan (.inl isNan_qnan)
  rcases isFinite_or_isInf hn with hf | hi
  · rw [fadd_of_isFinite hf (by decide), faddFinite_posZero hf hs]
  · have h0 : isInf 0x00000000#32 = false := by decide
    rw [fadd_of_isInf_left hi (by decide), h0]
    rfl

theorem fmax_posZero {v : Word} (h : isNonnegOrQnan v = true) : fmax v 0x00000000#32 = v := by
  rcases (isNonnegOrQnan_iff v).mp h with rfl | ⟨hs, hn⟩
  · exact fmax_of_isNan (.inl isNan_qnan)
  have hv : forder v = fmag v := by simp [forder, hs]
  have h0 : forder 0x00000000#32 = 0 := by decide
  rw [fmax_of_not_isNan hn (by decide), hv, h0]
  split
  · rfl
  · next hle => exact (eq_posZero (by omega) hs).symm

/-! ### The obligations -/

/-- Settles O35: the mask's bit 31 is 0 and its other bits are 1. -/
theorem fabsClearsOnlyTheSign : Obligations.FabsClearsOnlyTheSign := by
  intro w
  have hmask : ∀ j, j < 31 → (0x7FFFFFFF#32 : Word).getLsbD j = true := by decide
  refine ⟨fneg_fabs w, fun j hj => ?_⟩
  rw [fabs, BitVec.getLsbD_and, hmask j hj, Bool.and_true]

/-- Settles O36: the key that `fmax` compares orders words as their values. -/
theorem fmaxIsTheOrderedMaximum : Obligations.FmaxIsTheOrderedMaximum := by
  intro a b
  refine ⟨fmax_of_isNan, fun ha hb => ?_⟩
  rw [valueAbove_iff_forder_lt ha hb, fmax_of_not_isNan ha hb]
  exact ⟨fun h => if_pos h, fun h => if_neg h⟩

/-- Settles O37: each operation's NaNs, class by class of its operands. -/
theorem nanResultsAreCanonical : Obligations.NanResultsAreCanonical := by
  intro a b
  exact ⟨isNan_fadd_iff a b, isNan_fsub_iff a b, isNan_fmul_iff a b, isNan_fsqrt_iff a,
    fun h => (fadd_qnan_or a b).resolve_right (by simp [h]),
    fsub_eq_qnan_of_isNan,
    fun h => (fmul_qnan_or a b).resolve_right (by simp [h]),
    fun h => (fsqrt_qnan_or a).resolve_right (by simp [h])⟩

/-- Settles O38: a difference is the sum with the negated operand, whose value is exact. -/
theorem faddIsCorrectlyRounded : Obligations.FaddIsCorrectlyRounded := by
  intro a b ha hb
  have hnb : isFinite (fnegate b) = true := by rwa [isFinite_fnegate]
  have hsub : fval a - fval b = fval a + fval (fnegate b) := by
    rw [fval_fnegate, Int.sub_eq_add_neg]
  rw [hsub]
  exact ⟨fadd_nearestEven ha hb, fadd_overflow ha hb, fadd_nearestEven ha hnb,
    fadd_overflow ha hnb⟩

/-- Settles O39: the exact product's magnitude is what `roundMag` rounds. -/
theorem fmulIsCorrectlyRounded : Obligations.FmulIsCorrectlyRounded := by
  intro a b ha hb
  refine ⟨?_, fmul_nearestEven ha hb, fmul_overflow ha hb⟩
  rw [fmul_of_isFinite ha hb, fneg_fpack _ (roundMag_lt _ _)]

/-- Settles O40: the root with its sticky bit rounds to the word nearest to the exact root. -/
theorem fsqrtIsCorrectlyRounded : Obligations.FsqrtIsCorrectlyRounded := by
  intro a hf hz hs
  obtain ⟨hlow, hhigh⟩ := radicand_bounds hf hz
  obtain ⟨hlt, hnear⟩ := sqrt_nearest hlow hhigh
  rw [fsqrt_of_isFinite hf hz hs, fval_nonneg hs]
  generalize roundMag (isqrtSticky (magUnits (fmag a) * 2 ^ 149)) 1 = r at hlt hnear
  have hr : r < 2 ^ 31 := Nat.lt_trans hlt infMag_lt
  refine ⟨by simpa [isFinite, fmag_fpack false hr] using hlt, fneg_fpack false hr, ?_⟩
  intro w _ hw
  rw [fval_fpack false hr, if_neg Bool.false_ne_true, fval_nonneg hw]
  exact_mod_cast hnear (fmag w)

/-- Settles O42: an infinite sum's operands have one sign, and only the two zeros share a key. -/
theorem operandOrderAndZeroAreNeutral : Obligations.OperandOrderAndZeroAreNeutral :=
  ⟨fun a b => ⟨fadd_comm a b, fmul_comm a b⟩, fun _ _ => fsub_comm_of_isNan,
    fun _ _ => fmax_comm, fun _ hv => ⟨fadd_posZero hv, fmax_posZero hv⟩⟩

end Sys2Proof.Machine
end

section
/-! PROOFS. The window, the interrupt line and the latency, for any value of the open parameters
(spec/00_scope.md R7; spec/20_memory.md R66). -/

namespace Sys2Proof.Machine

/-- R66: the base is a whole number of windows, whatever the open frame number. -/
theorem baseAddr_aligned : Config.baseAddr % 0x4000 = 0 := by
  unfold Config.baseAddr Config.windowBytes
  exact Nat.mul_mod_left _ _

theorem windowOffset_inside (offset : Offset) :
    windowOffset (Config.baseAddr + offset.toNat) = some offset := by
  have hlt : offset.toNat < Config.windowBytes := offset.isLt
  unfold windowOffset
  rw [if_pos ⟨Nat.le_add_right _ _, Nat.add_lt_add_left hlt _⟩, Nat.add_sub_cancel_left,
    BitVec.ofNat_toNat, BitVec.setWidth_eq]

theorem windowOffset_outside {a : Nat} (h : a < Config.baseAddr ∨ Config.baseAddr + 0x4000 ≤ a) :
    windowOffset a = none := by
  unfold windowOffset Config.windowBytes
  exact if_neg (by omega)

theorem activeIrqLine_eq_some_iff (s : State) :
    activeIrqLine s = some Config.irqLine ↔ irq s = true := by
  simp [activeIrqLine]

theorem latency_pos (i : Instr) : 1 ≤ latency i := Nat.le_add_left 1 _

/-- Settles O58: the open frame number, line and latency are left free throughout. -/
theorem platformParameters : Obligations.PlatformParameters :=
  ⟨baseAddr_aligned, windowOffset_inside, fun _ => windowOffset_outside,
    activeIrqLine_eq_some_iff, latency_pos⟩

end Sys2Proof.Machine
end

section
/-! PROOFS. The signs of the binary32 primitives on operands whose sign bit is clear, and with them
SUM and MAX: non-negative or QNAN, whatever the input (spec/41_powlaw.md R154). -/

namespace Sys2Proof.Machine

/-! ### Primitives on operands with a clear sign bit -/

theorem isNonnegOrQnan_of_fneg {w : Word} (hs : fneg w = false)
    (h : w = qnan ∨ isNan w = false) : isNonnegOrQnan w = true :=
  (isNonnegOrQnan_iff w).mpr (h.imp_right fun hn => ⟨hs, hn⟩)

/-- QNAN's sign bit is clear, so the sign bit of every non-negative value or QNAN is. -/
theorem fneg_of_isNonnegOrQnan {w : Word} (h : isNonnegOrQnan w = true) : fneg w = false := by
  rcases (isNonnegOrQnan_iff w).mp h with rfl | ⟨hs, -⟩
  · decide
  · exact hs

theorem fneg_faddFinite {a b : Word} (ha : fneg a = false) (hb : fneg b = false) :
    fneg (faddFinite a b) = false := by
  have hsum : ¬ fval a + fval b < 0 := by
    rw [fval_nonneg ha, fval_nonneg hb]
    omega
  unfold faddFinite
  split
  · rw [fneg_fpack _ (by decide), ha, Bool.false_and]
  · rw [fneg_fpack _ (roundMag_lt _ _), decide_eq_false hsum]

theorem fneg_fadd {a b : Word} (ha : fneg a = false) (hb : fneg b = false) :
    fneg (fadd a b) = false := by
  rcases isNan_either_or_neither a b with hn | ⟨hna, hnb⟩
  · rw [fadd_of_isNan hn]
    decide
  rcases isFinite_or_isInf hna with hfa | hia
  · rcases isFinite_or_isInf hnb with hfb | hib
    · rw [fadd_of_isFinite hfa hfb]
      exact fneg_faddFinite ha hb
    · rwa [fadd_of_isInf_right hfa hib]
  · simp [fadd_of_isInf_left hia hnb, ha, hb]

theorem fneg_fmul {a b : Word} (ha : fneg a = false) (hb : fneg b = false) :
    fneg (fmul a b) = false := by
  have hsign : (fneg a != fneg b) = false := by rw [ha, hb, bne_self_eq_false]
  unfold fmul
  rw [hsign]
  split
  · decide
  · split
    · split
      · decide
      · exact fneg_fpack _ infMag_lt
    · exact fneg_fpack _ (roundMag_lt _ _)

theorem fneg_fsqrt {a : Word} (ha : fneg a = false) : fneg (fsqrt a) = false := by
  unfold fsqrt
  split
  · decide
  · split
    · exact ha
    · split
      · decide
      · split
        · exact ha
        · exact fneg_fpack _ (roundMag_lt _ _)

theorem fneg_fmax {a b : Word} (ha : fneg a = false) (hb : fneg b = false) :
    fneg (fmax a b) = false := by
  unfold fmax
  split
  · decide
  · split
    · exact ha
    · exact hb

theorem isNonnegOrQnan_fadd {a b : Word} (ha : fneg a = false) (hb : fneg b = false) :
    isNonnegOrQnan (fadd a b) = true :=
  isNonnegOrQnan_of_fneg (fneg_fadd ha hb) (fadd_qnan_or a b)

theorem isNonnegOrQnan_fmax {a b : Word} (ha : fneg a = false) (hb : fneg b = false) :
    isNonnegOrQnan (fmax a b) = true :=
  isNonnegOrQnan_of_fneg (fneg_fmax ha hb) (fmax_qnan_or a b)

/-! ### POWLAW's elements, lanes and reductions -/

/-- R154: a transformed word is non-negative or QNAN. -/
theorem isNonnegOrQnan_powElement (w : Word) : isNonnegOrQnan (powElement w) = true :=
  isNonnegOrQnan_of_fneg (fneg_fsqrt (fneg_fmul (fneg_fabs w) (fneg_fsqrt (fneg_fabs w))))
    (fsqrt_qnan_or _)

/-- Every lane that `v` has holds a non-negative value or QNAN. -/
def LanesNonneg (v : List Word) : Prop := ∀ x ∈ v, isNonnegOrQnan x = true

theorem lanesNonneg_replicate_zero (n : Nat) : LanesNonneg (List.replicate n 0x00000000#32) := by
  intro x hx
  rw [List.eq_of_mem_replicate hx]
  decide

theorem lanesNonneg_modify {v : List Word} {f : Word → Word} (i : Nat) (hv : LanesNonneg v)
    (hf : ∀ x, isNonnegOrQnan x = true → isNonnegOrQnan (f x) = true) :
    LanesNonneg (v.modify i f) := by
  intro x hx
  obtain ⟨j, hj, rfl⟩ := List.getElem_of_mem hx
  rw [List.length_modify] at hj
  rw [List.getElem_modify]
  split
  · exact hf _ (hv _ (List.getElem_mem hj))
  · exact hv _ (List.getElem_mem hj)

theorem isNonnegOrQnan_getD {v : List Word} (hv : LanesNonneg v) (j : Nat) :
    isNonnegOrQnan (v.getD j 0#32) = true := by
  rw [List.getD_eq_getElem?_getD]
  cases h : v[j]? with
  | none => decide
  | some x => exact hv x (List.mem_of_getElem? h)

theorem lanesNonneg_lanesFrom (i : Nat) (xs : List Word) {l : Lanes}
    (hs : LanesNonneg l.sumLane) (hm : LanesNonneg l.maxLane) :
    LanesNonneg (lanesFrom i xs l).sumLane ∧ LanesNonneg (lanesFrom i xs l).maxLane := by
  induction xs generalizing i l with
  | nil => exact ⟨hs, hm⟩
  | cons w xs ih =>
    refine ih (i + 1) (lanesNonneg_modify _ hs fun x hx => ?_)
      (lanesNonneg_modify _ hm fun x hx => ?_)
    · exact isNonnegOrQnan_fadd (fneg_of_isNonnegOrQnan hx) (fneg_fabs w)
    · exact isNonnegOrQnan_fmax (fneg_of_isNonnegOrQnan hx)
        (fneg_of_isNonnegOrQnan (isNonnegOrQnan_powElement w))

theorem lanesNonneg_lanesFrom_start (xs : List Word) :
    LanesNonneg (lanesFrom 0 xs Lanes.start).sumLane ∧
      LanesNonneg (lanesFrom 0 xs Lanes.start).maxLane :=
  lanesNonneg_lanesFrom 0 xs (lanesNonneg_replicate_zero 8) (lanesNonneg_replicate_zero 8)

/-- R156's tree of an operation that keeps the sign bit clear. -/
theorem isNonnegOrQnan_reduceTree {op : Word → Word → Word} {v : List Word}
    (hop : ∀ {a b}, fneg a = false → fneg b = false → isNonnegOrQnan (op a b) = true)
    (hv : LanesNonneg v) : isNonnegOrQnan (reduceTree op v) = true := by
  have lane (j : Nat) : fneg (v.getD j 0#32) = false :=
    fneg_of_isNonnegOrQnan (isNonnegOrQnan_getD hv j)
  have join {a b : Word} (ha : fneg a = false) (hb : fneg b = false) : fneg (op a b) = false :=
    fneg_of_isNonnegOrQnan (hop ha hb)
  exact hop (join (join (lane 0) (lane 1)) (join (lane 2) (lane 3)))
    (join (join (lane 4) (lane 5)) (join (lane 6) (lane 7)))

/-- R154: SUM is non-negative or QNAN. -/
theorem isNonnegOrQnan_powSum (xs : List Word) : isNonnegOrQnan (powSum xs) = true := by
  unfold powSum
  exact isNonnegOrQnan_reduceTree isNonnegOrQnan_fadd (lanesNonneg_lanesFrom_start xs).1

/-- R154: MAX is non-negative or QNAN. -/
theorem isNonnegOrQnan_powMax (xs : List Word) : isNonnegOrQnan (powMax xs) = true := by
  unfold powMax
  exact isNonnegOrQnan_reduceTree isNonnegOrQnan_fmax (lanesNonneg_lanesFrom_start xs).2

end Sys2Proof.Machine
end

section
/-! PROOFS. What every step keeps (Safety.lean's invariant), one lemma per operation on the state,
and what a step leaves alone: SUM and MAX, LASTCMD, the host's registers, and the operands that a
completion does not read (spec/10_state.md R27 to R37; spec/40_command_control.md R120 to R122). -/

namespace Sys2Proof.Machine

/-! ### Operations that touch no field of the invariant -/

section
variable {s : State} (h : s.Inv)
include h

theorem inv_setAgenda (rest : List Move) : (setAgenda rest s).Inv := { h with }

theorem inv_respond (data : Word) : (respond data s).Inv := { h with }

theorem inv_irqEnWrite (w : Word) : (irqEnWrite w s).Inv := { h with }

theorem inv_srcBaseWrite (w : Word) : (srcBaseWrite w s).Inv := { h with }

theorem inv_dstBaseWrite (w : Word) : (dstBaseWrite w s).Inv := { h with }

/-! ### The fault records -/

/-- An access fault fills an empty record and keeps a full one (R230). -/
theorem inv_accFault (c : AccCause) (offset : Offset) (wr : Bool) :
    (accFault c offset wr s).Inv :=
  { h with
    accRecord := by
      refine ⟨fun hn => by simp at hn, fun _ => ?_⟩
      rw [accFault_accInfo]
      split
      · next he => exact h.accRecord.2 he
      · exact ⟨c, offset, wr, rfl⟩ }

/-- A command fault fills an empty record and keeps a full one (R222, R224). -/
theorem inv_cmdFault (c : CmdCause) (w : Word) : (cmdFault c w s).Inv :=
  { h with
    cmdRecord := by
      refine ⟨fun hn => by simp at hn, fun _ => ?_⟩
      rw [cmdFault_errCode]
      split
      · next he => exact h.cmdRecord.2 he
      · exact ⟨c, rfl⟩ }

theorem cmdRecordOk_statusW1C (w : Word) : cmdRecordOk (statusW1C w s) := by
  unfold cmdRecordOk
  rw [statusW1C_err, statusW1C_errCode, statusW1C_errCmd]
  cases w.getLsbD 2
  · simpa [cmdRecordOk] using h.cmdRecord
  · simp

theorem accRecordOk_statusW1C (w : Word) : accRecordOk (statusW1C w s) := by
  unfold accRecordOk
  rw [statusW1C_accErr, statusW1C_accInfo]
  cases w.getLsbD 3
  · simpa [accRecordOk] using h.accRecord
  · simp

/-- A STATUS write empties a record together with its flag, and DONE it can only clear (R114). -/
theorem inv_statusW1C (w : Word) : (statusW1C w s).Inv :=
  { h with
    busyNotDone := fun hb => by rw [statusW1C_done, h.busyNotDone hb, Bool.false_and]
    cmdRecord := cmdRecordOk_statusW1C h w
    accRecord := accRecordOk_statusW1C h w }

/-! ### Acceptance -/

theorem inv_acceptCommand {w : Word}
    (hc : checkCommand w s.busy s.srcBase s.dstBase = none) : (acceptCommand w s).Inv :=
  { h with
    inFlight := fun _ => by
      obtain ⟨-, i, hi, hop⟩ := checkCommand_eq_none hc
      simp [inFlightOk, hi, hop]
    busyNotDone := fun _ => rfl
    lastCmd := rfl }

theorem inv_issueCommand (w : Word) : (issueCommand w s).Inv := by
  rcases issueCommand_cases w s with ⟨c, -, he⟩ | ⟨hc, he⟩
  · rw [he]
    exact inv_cmdFault h c w
  · rw [he]
    exact inv_acceptCommand h hc

/-! ### DMEM and the resets -/

theorem inv_dmemWrite {k : Nat} (w : Word) (hk : k < Config.dmemWords) :
    (dmemWrite k w s).Inv :=
  { h with memory := writeWord_wf h.memory w hk }

end

/-- Reset values meet the invariant over any canonical DMEM. -/
theorem inv_resetRegisters {s : State} (hm : Memory.wf s.dmem) : (resetRegisters s).Inv where
  memory := hm
  inFlight hb := by simp at hb
  busyNotDone _ := rfl
  lastCmd := rfl
  cmdRecord := ⟨fun _ => ⟨rfl, rfl⟩, fun he => by simp at he⟩
  accRecord := ⟨fun _ => rfl, fun he => by simp at he⟩
  sumNonneg := by rw [resetRegisters_sum]; decide
  maxNonneg := by rw [resetRegisters_max]; decide

/-- The command in flight decodes, and its latched operands pass the checks (R97, R122). -/
theorem decode_of_inv_busy {s : State} (h : s.Inv) (hb : s.busy = true) :
    ∃ i, decodeWord s.lcmd = .ok i ∧ operandCause i s.lsrc s.ldst = none := by
  have hf := h.inFlight hb
  unfold inFlightOk at hf
  split at hf
  · next i hi => exact ⟨i, hi, by simpa using hf⟩
  · simp at hf

/-- The footprint of the command in flight begins inside DMEM, so an abort writes only there. -/
theorem abortCommand_wf_of_inv {s : State} (h : s.Inv) (hb : s.busy = true) :
    Memory.wf (abortCommand s).dmem := by
  obtain ⟨i, hi, hop⟩ := decode_of_inv_busy h hb
  have hle := footprint_le hop
  apply abortCommand_wf h.memory
  simp only [inFlightFootprint, hi]
  omega

theorem inv_softReset {s : State} (h : s.Inv) : (softReset s).Inv := by
  rcases softReset_cases s with ⟨hb, he⟩ | ⟨-, he⟩
  · rw [he]
    exact inv_resetRegisters (abortCommand_wf_of_inv h hb)
  · rw [he]
    exact inv_resetRegisters h.memory

theorem inv_hardReset (s : State) : (hardReset s).Inv := by
  have hm := hardReset_wf s
  unfold hardReset at hm ⊢
  rw [resetRegisters_dmem] at hm
  exact inv_resetRegisters hm

/-! ### Completion -/

section
variable {s : State} (h : s.Inv)
include h

theorem inv_finishCommand : (finishCommand s).Inv :=
  { h with
    inFlight := fun hb => by simp at hb
    busyNotDone := fun hb => by simp at hb }

theorem inv_powOutput {m : BitVec 10} (hc : powlawCause m s.lsrc s.ldst = none) :
    (powOutput m s).Inv :=
  { h with
    memory := by
      have hin := (powlawCause_eq_none m s.lsrc s.ldst).mp hc
      rw [powOutput_dmem]
      apply writeWords_wf h.memory
      simp only [List.length_map, powInput, length_readWords, Config.dmemWords]
      omega
    sumNonneg := isNonnegOrQnan_powSum _
    maxNonneg := isNonnegOrQnan_powMax _ }

theorem inv_fhtOutput {n : BitVec 10} (hc : fhtCause n s.lsrc = none) :
    (fhtOutput n s).Inv :=
  { h with
    memory := by
      rw [fhtOutput_dmem]
      apply writeWords_wf h.memory
      rw [length_fhtBuffer, length_readWords]
      exact ((fhtCause_eq_none n s.lsrc).mp hc).2 }

/-- Under the invariant the engine's turn takes no fault: it is idle, or it completes the command
in flight (R122). -/
theorem engineTurn_cases_of_inv {t : State} (ht : engineTurn s = .next t) :
    (s.busy = false ∧ t = s) ∨
    (s.busy = true ∧ decodeWord s.lcmd = .ok .nop ∧ t = finishCommand s) ∨
    (s.busy = true ∧ ∃ m, decodeWord s.lcmd = .ok (.powlaw m) ∧
      powlawCause m s.lsrc s.ldst = none ∧ t = finishCommand (powOutput m s)) ∨
    (s.busy = true ∧ ∃ n, decodeWord s.lcmd = .ok (.fht n) ∧
      fhtCause n s.lsrc = none ∧ t = finishCommand (fhtOutput n s)) := by
  rcases engineTurn_cases ht with hidle | ⟨hb, i, hi, hx⟩
  · exact .inl hidle
  obtain ⟨j, hj, hop⟩ := decode_of_inv_busy h hb
  obtain rfl : j = i := Except.ok.inj (hj.symm.trans hi)
  rcases exec_cases hx with ⟨c, hc, -⟩ | ⟨-, ⟨rfl, ht⟩ | ⟨m, rfl, ht⟩ | ⟨n, rfl, ht⟩⟩
  · simp [hop] at hc
  · exact .inr (.inl ⟨hb, hi, ht⟩)
  · exact .inr (.inr (.inl ⟨hb, m, hi, hop, ht⟩))
  · exact .inr (.inr (.inr ⟨hb, n, hi, hop, ht⟩))

/-! ### One step -/

theorem inv_engineTurn {t : State} (ht : engineTurn s = .next t) : t.Inv := by
  rcases engineTurn_cases_of_inv h ht with
    ⟨-, rfl⟩ | ⟨-, -, rfl⟩ | ⟨-, m, -, hc, rfl⟩ | ⟨-, n, -, hc, rfl⟩
  · exact h
  · exact inv_finishCommand h
  · exact inv_finishCommand (inv_powOutput h hc)
  · exact inv_finishCommand (inv_fhtOutput h hc)

theorem inv_hostAccess (a : Access) : (hostAccess a s).Inv := by
  rcases hostAccess_cases a s with ⟨w, he⟩ | ⟨c, offset, he⟩ | ⟨c, offset, he⟩ |
    ⟨-, k, w, hk, he⟩ | ⟨-, he⟩ | ⟨w, he⟩ | ⟨w, he⟩ | ⟨w, he⟩ | ⟨w, he⟩ | ⟨w, he⟩ | he
  all_goals rw [he]
  · exact inv_respond h w
  · exact inv_respond (inv_accFault h c offset false) 0#32
  · exact inv_accFault h c offset true
  · exact inv_dmemWrite h w hk
  · exact inv_softReset h
  · exact inv_irqEnWrite h w
  · exact inv_statusW1C h w
  · exact inv_issueCommand h w
  · exact inv_srcBaseWrite h w
  · exact inv_dstBaseWrite h w
  · exact h

theorem inv_step {t : State} (ht : step s = .next t) : t.Inv := by
  rcases step_cases ht with ⟨a, rest, -, rfl⟩ | ⟨rest, -, rfl⟩ | ⟨rest, -, he⟩ | ⟨-, he⟩
  · exact inv_hostAccess (inv_setAgenda h rest) a
  · exact inv_hardReset _
  · exact inv_engineTurn (inv_setAgenda h rest) he
  · exact inv_engineTurn h he

end

/-! ### The frame of the engine's turn (R37) -/

/-- Whatever the host alone writes, the latches, the records, the bus and the agenda: an engine's
turn keeps them. -/
theorem engineTurn_frame {s t : State} (h : s.Inv) (ht : engineTurn s = .next t) :
    t = { s with dmem := t.dmem, sum := t.sum, max := t.max, busy := t.busy, done := t.done } := by
  rcases engineTurn_cases_of_inv h ht with
    ⟨-, rfl⟩ | ⟨-, -, rfl⟩ | ⟨-, m, -, -, rfl⟩ | ⟨-, n, -, -, rfl⟩
  all_goals rfl

/-! ### SUM and MAX (R27) -/

@[simp] theorem issueCommand_sum (w : Word) (s : State) : (issueCommand w s).sum = s.sum := by
  rcases issueCommand_cases w s with ⟨c, -, he⟩ | ⟨-, he⟩ <;> rw [he] <;> rfl

@[simp] theorem issueCommand_max (w : Word) (s : State) : (issueCommand w s).max = s.max := by
  rcases issueCommand_cases w s with ⟨c, -, he⟩ | ⟨-, he⟩ <;> rw [he] <;> rfl

/-- A host access that is no soft reset leaves SUM and MAX alone. -/
theorem hostAccess_sum_max {a : Access} (s : State) (ha : isSoftReset a = false) :
    (hostAccess a s).sum = s.sum ∧ (hostAccess a s).max = s.max := by
  have hcases := hostAccess_cases a s
  rw [ha] at hcases
  rcases hcases with ⟨w, he⟩ | ⟨c, offset, he⟩ | ⟨c, offset, he⟩ | ⟨-, k, w, -, he⟩ | ⟨⟨⟩, -⟩ |
    ⟨w, he⟩ | ⟨w, he⟩ | ⟨w, he⟩ | ⟨w, he⟩ | ⟨w, he⟩ | he
  all_goals simp [he]

/-- An engine's turn that changes SUM or MAX completes a POWLAW. -/
theorem powlaw_of_sum_max_ne {s t : State} (h : s.Inv) (ht : engineTurn s = .next t)
    (hne : t.sum ≠ s.sum ∨ t.max ≠ s.max) :
    s.busy = true ∧ (∃ m, decodeWord s.lcmd = .ok (.powlaw m)) ∧ t.done = true := by
  rcases engineTurn_cases_of_inv h ht with
    ⟨-, rfl⟩ | ⟨-, -, rfl⟩ | ⟨hb, m, hm, -, rfl⟩ | ⟨-, n, -, -, rfl⟩
  · simp at hne
  · simp at hne
  · exact ⟨hb, ⟨m, hm⟩, rfl⟩
  · simp at hne

/-! ### LASTCMD (R28) -/

/-- A register write changes LASTCMD by a CMD write or a soft reset only. -/
theorem writeRegister_lastCmd {offset : Offset} {w : Word} (s : State)
    (hcmd : offset.toNat ≠ 0x010) (hrst : offset.toNat = 0x008 → w.getLsbD 1 = false) :
    (writeRegister offset w s).lastCmd = s.lastCmd := by
  unfold writeRegister
  rw [if_neg hcmd]
  split
  · next h8 => rw [ctrlWrite, hrst h8]; rfl
  · split
    · rfl
    · split
      · rfl
      · split <;> rfl

theorem be_of_accessCause_eq_none {offset : Offset} {be : BitVec 4} {busy : Bool}
    (h : accessCause offset be busy = none) : be = 0b1111#4 := by
  by_contra hbe
  unfold accessCause at h
  rw [if_pos hbe] at h
  split at h <;> simp at h

theorem hostRead_lastCmd (offset : Offset) (be : BitVec 4) (s : State) :
    (hostRead offset be s).lastCmd = s.lastCmd := by
  cases hc : accessCause offset be s.busy with
  | none => rw [hostRead_of_none hc]; rfl
  | some c => rw [hostRead_of_some hc]; rfl

/-- The host changes LASTCMD by a well-formed CMD write or a soft reset only. -/
theorem hostAccess_lastCmd_cases (a : Access) (s : State) :
    (hostAccess a s).lastCmd = s.lastCmd ∨ isSoftReset a = true ∨
      ∃ w, a = .write 0x010#14 0b1111#4 w := by
  cases a with
  | read offset be => exact .inl (hostRead_lastCmd offset be s)
  | write offset be w =>
    simp only [hostAccess]
    cases hc : accessCause offset be s.busy with
    | some c => exact .inl (by rw [hostWrite_of_some hc]; rfl)
    | none =>
      obtain rfl := be_of_accessCause_eq_none hc
      by_cases hcmd : offset.toNat = 0x010
      · obtain rfl : offset = 0x010#14 := BitVec.eq_of_toNat_eq hcmd
        exact .inr (.inr ⟨w, rfl⟩)
      by_cases hrst : offset.toNat = 0x008 ∧ w.getLsbD 1 = true
      · obtain rfl : offset = 0x008#14 := BitVec.eq_of_toNat_eq hrst.1
        exact .inr (.inl (by simpa [isSoftReset] using hrst.2))
      left
      rw [hostWrite_of_none hc]
      split
      · rfl
      · exact writeRegister_lastCmd s hcmd fun h8 => by simpa [h8] using hrst

/-- A CMD write that changes LASTCMD is accepted, and LASTCMD takes the written word. -/
theorem accepted_of_lastCmd_ne {w : Word} {s : State} (h : (issueCommand w s).lastCmd ≠ s.lastCmd) :
    checkCommand w s.busy s.srcBase s.dstBase = none ∧ (issueCommand w s).lastCmd = w := by
  rcases issueCommand_cases w s with ⟨c, -, he⟩ | ⟨hc, he⟩
  · simp [he] at h
  · exact ⟨hc, by rw [he, acceptCommand_lastCmd]⟩

/-! ### The obligations -/

/-- Settles O49: each operation of a step keeps the invariant. -/
theorem stepKeepsInvariant : Obligations.StepKeepsInvariant := fun _ _ h ht => inv_step h ht

/-- Settles O22: an admitted command's completion reads DMEM, LSRC and LDST only. -/
theorem completionUsesLatchedOperands : Obligations.CompletionUsesLatchedOperands := by
  intro i s t irqEn err accErr errCode src dst lastCmd errCmd accInfo hop hx
  rcases exec_cases hx with ⟨c, hc, -⟩ | ⟨-, ⟨rfl, rfl⟩ | ⟨m, rfl, rfl⟩ | ⟨n, rfl, rfl⟩⟩
  · simp [hop] at hc
  · rfl
  · exact execPowlaw_of_none hop
  · exact execFht_of_none hop

/-- Settles O55: of the host's accesses only a soft reset reaches SUM and MAX, and of the engine's
completions only a POWLAW's. -/
theorem onlyPowlawWritesSumAndMax : Obligations.OnlyPowlawWritesSumAndMax := by
  intro s t h ht hne
  rcases step_cases ht with
    ⟨a, rest, ha, rfl⟩ | ⟨rest, ha, -⟩ | ⟨rest, ha, he⟩ | ⟨ha, he⟩
  · refine .inr (.inl ⟨a, rest, ha, ?_⟩)
    by_contra hr
    have hkeep := hostAccess_sum_max (setAgenda rest s) (Bool.eq_false_of_not_eq_true hr)
    simp [hkeep] at hne
  · exact .inl ⟨rest, ha⟩
  · obtain ⟨hb, hm, hd⟩ := powlaw_of_sum_max_ne (inv_setAgenda h rest) he hne
    exact .inr (.inr ⟨hb, hm, .inr ⟨rest, ha⟩, hd⟩)
  · obtain ⟨hb, hm, hd⟩ := powlaw_of_sum_max_ne h he hne
    exact .inr (.inr ⟨hb, hm, .inl ha, hd⟩)

/-- Settles O56: an engine's turn keeps LASTCMD, and the host reaches it by CMD or a reset. -/
theorem lastCmdIsTheLastAccepted : Obligations.LastCmdIsTheLastAccepted := by
  intro s t h ht hne
  rcases step_cases ht with
    ⟨a, rest, ha, rfl⟩ | ⟨rest, ha, -⟩ | ⟨rest, -, he⟩ | ⟨-, he⟩
  · rcases hostAccess_lastCmd_cases a (setAgenda rest s) with hkeep | hr | ⟨w, rfl⟩
    · exact absurd hkeep hne
    · exact .inr (.inl ⟨a, rest, ha, hr⟩)
    · rw [hostAccess_write_cmd] at hne ⊢
      exact .inr (.inr ⟨w, rest, ha, accepted_of_lastCmd_ne hne⟩)
  · exact .inl ⟨rest, ha⟩
  · exact absurd (congrArg State.lastCmd (engineTurn_frame (inv_setAgenda h rest) he)) hne
  · exact absurd (congrArg State.lastCmd (engineTurn_frame h he)) hne

/-- Settles O57: each completion writes its output, BUSY and DONE. -/
theorem engineTurnFrame : Obligations.EngineTurnFrame := fun _ _ h ht => engineTurn_frame h ht

/-- Settles O13: a STATUS write of 0xE clears the three flags, a CTRL write of 0 IRQ_EN. -/
theorem irqFollowsStatus : Obligations.IrqFollowsStatus := by
  intro s
  refine ⟨by simp [irq, or_assoc], ?_, ?_⟩
  · rw [hostAccess_write_status]
    simp [irq]
  · rw [hostAccess_write_ctrl]
    simp [ctrlWrite, irq]

end Sys2Proof.Machine
end

section
/-! PROOFS. Host accesses made twice (spec/20_memory.md R65), and whose turn a step is
(spec/20_memory.md R68; spec/40_command_control.md R110, R120, R122). -/

namespace Sys2Proof.Machine

/-! ### One DMEM word written twice -/

/-- An offset lies below a word, above it, or in one of its four lanes. -/
theorem outside_or_lane (a c : Nat) :
    (c < byteOffset a 0 ∨ byteOffset (a + 1) 0 ≤ c) ∨ ∃ k, k < 4 ∧ c = byteOffset a k := by
  by_cases h : c < byteOffset a 0 ∨ byteOffset (a + 1) 0 ≤ c
  · exact .inl h
  · refine .inr ⟨c - byteOffset a 0, ?_⟩
    unfold byteOffset at h ⊢
    omega

/-- The last word written is the one that stays. -/
theorem writeWord_writeWord_same {m : Memory} (hm : Memory.wf m) {a : Nat} (v w : Word)
    (ha : a < Config.dmemWords) : writeWord (writeWord m a v) a w = writeWord m a w := by
  have hv := writeWord_wf hm v ha
  refine Memory.ext_of_wf (writeWord_wf hv w ha) (writeWord_wf hm w ha) fun c => ?_
  rcases outside_or_lane a c with hout | ⟨k, hk, rfl⟩
  · simp only [readByte_writeWord_outside _ a _ hout]
  · rw [readByte_writeWord_lane hv.1 a w hk, readByte_writeWord_lane hm.1 a w hk]

theorem dmemWrite_dmemWrite_same {s : State} (hm : Memory.wf s.dmem) {a : Nat} (v w : Word)
    (ha : a < Config.dmemWords) : dmemWrite a w (dmemWrite a v s) = dmemWrite a w s := by
  simp only [dmemWrite, writeWord_writeWord_same hm v w ha]

/-! ### One access made twice (R65) -/

/-- A refusal that follows another records nothing (R230). -/
theorem accFault_accFault (c d : AccCause) (offset p : Offset) (wr wr' : Bool) (s : State) :
    accFault d p wr' (accFault c offset wr s) = accFault c offset wr s := rfl

/-- A read returns nothing that an earlier read left behind. -/
theorem hostReadData_respond (offset : Offset) (be : BitVec 4) (data : Word) (s : State) :
    hostReadData offset be (respond data s) = hostReadData offset be s := rfl

theorem hostRead_hostRead (offset : Offset) (be : BitVec 4) (s : State) :
    hostRead offset be (hostRead offset be s) = hostRead offset be s := by
  cases hc : accessCause offset be s.busy with
  | some c =>
    have hagain : accessCause offset be (respond 0#32 (accFault c offset false s)).busy = some c := hc
    rw [hostRead_of_some hc, hostRead_of_some hagain]
    rfl
  | none =>
    have hagain : accessCause offset be (respond (hostReadData offset be s) s).busy = none := hc
    rw [hostRead_of_none hc, hostRead_of_none hagain, hostReadData_respond]
    rfl

/-- A DMEM write is taken twice or, with BUSY = 1, refused twice (R117). -/
theorem hostWrite_hostWrite_dmem {offset : Offset} (be : BitVec 4) (w : Word) {s : State}
    (hm : Memory.wf s.dmem) (ho : Config.dmemBase ≤ offset.toNat) :
    hostWrite offset be w (hostWrite offset be w s) = hostWrite offset be w s := by
  cases hc : accessCause offset be s.busy with
  | some c =>
    have hagain : accessCause offset be (accFault c offset true s).busy = some c := hc
    rw [hostWrite_of_some hc, hostWrite_of_some hagain, accFault_accFault]
  | none =>
    have hagain : accessCause offset be (dmemWrite (dmemIndex offset) w s).busy = none := hc
    rw [hostWrite_of_none hc, if_pos ho, hostWrite_of_none hagain, if_pos ho,
      dmemWrite_dmemWrite_same hm w w (dmemIndex_lt offset)]

/-- Without SRST a CTRL write reaches IRQ_EN only (R115). -/
theorem ctrlWrite_of_no_srst {w : Word} (h : w.getLsbD 1 = false) (s : State) :
    ctrlWrite w s = irqEnWrite w s := by
  rw [ctrlWrite, h]
  rfl

/-- A word accepted and written again finds BUSY = 1 and is rejected with E_BUSY (R97, R120). -/
theorem issueCommand_of_accepted {w : Word} {s : State}
    (h : checkCommand w s.busy s.srcBase s.dstBase = none) :
    issueCommand w (issueCommand w s) = cmdFault .eBusy w (acceptCommand w s) := by
  simp only [issueCommand, h]
  rfl

/-! ### The word that the next step runs -/

/-- At 32 bits the word put before the engine is the word given. -/
theorem withFetchWord_toNat (s : State) (w : Word) :
    s.withFetchWord 32 w.toNat = setAgenda (.engine :: s.agenda) (acceptCommand w s) := by
  rw [State.withFetchWord, Nat.mod_eq_of_lt w.isLt, BitVec.ofNat_toNat, BitVec.setWidth_eq]

/-! ### The obligations -/

/-- Settles O8: a second refusal records nothing, and a register or DMEM word written twice keeps the
last value; a NOP accepted from reset and written again sets ERR. -/
theorem idempotentAccesses : Obligations.IdempotentAccesses := by
  have hreset : State.reset.Inv := inv_resetRegisters (s := State.reset) memory_nil_wf
  refine ⟨hostRead_hostRead, ?_, 0x00000000#32, State.reset, hreset, ?_⟩
  · rintro offset w s hm (rfl | rfl | ⟨rfl, hw⟩ | ⟨ho, -⟩)
    · simp only [hostAccess_write_srcBase]
      rfl
    · simp only [hostAccess_write_dstBase]
      rfl
    · simp only [hostAccess_write_ctrl, ctrlWrite_of_no_srst hw]
      rfl
    · exact hostWrite_hostWrite_dmem _ w hm ho
  · have haccept : checkCommand 0x00000000#32 State.reset.busy State.reset.srcBase
        State.reset.dstBase = none := by decide
    rw [hostAccess_write_cmd, hostAccess_write_cmd, issueCommand_of_accepted haccept]
    exact fun h => absurd (congrArg State.err h) (by decide)

/-- Settles O43: the head of the agenda says whose step it is, and an engine's turn runs what LCMD
decodes to. -/
theorem stepRunsTheDecodedCommand : Obligations.StepRunsTheDecodedCommand := by
  refine ⟨fun s i hb hi => ⟨fun ha => ?_, fun rest ha => ?_⟩,
    fun s hb => ⟨fun ha => ?_, fun rest ha => ?_⟩, fun s a rest ha => step_host ha⟩
  · rw [step_empty ha, engineTurn_of_decode hb hi]
  · rw [step_engine ha]
    exact engineTurn_of_decode (s := setAgenda rest s) hb hi
  · rw [step_empty ha, engineTurn_idle hb]
  · rw [step_engine ha]
    exact engineTurn_idle (s := setAgenda rest s) hb

/-- Settles O44: acceptance latches the word into LCMD with BUSY = 1, and the engine's turn is next. -/
theorem fetchedWordRunsNext : Obligations.FetchedWordRunsNext := by
  intro s w i hi
  rw [withFetchWord_toNat, step_engine (setAgenda_agenda _ _)]
  exact engineTurn_of_decode (s := setAgenda s.agenda (acceptCommand w s)) rfl hi

end Sys2Proof.Machine
end

section
/-! PROOFS. Command words: which command or error the decoder answers, the decoder and the encoder as
inverses, and the code that `CheckCommand` records (spec/30_encoding.md R90 to R98). -/

namespace Sys2Proof.Machine

/-! ### The decoder -/

/-- The row of POWLAW (R92). -/
theorem decodeWord_of_opc_one {w : Word} (hopc : w.toNat % 16 = 1) (hrsvd : w.toNat / 16384 = 0) :
    decodeWord w = .ok (.powlaw (argField w)) := by
  have hnop : ¬ selects w .nop = true := by rw [selects_nop]; omega
  rw [decodeWord, if_neg hnop, if_pos ((selects_powlaw w _).mpr ⟨hopc, hrsvd⟩)]

/-- The row of FHT (R92). -/
theorem decodeWord_of_opc_two {w : Word} (hopc : w.toNat % 16 = 2) (hrsvd : w.toNat / 16384 = 0) :
    decodeWord w = .ok (.fht (argField w)) := by
  have hnop : ¬ selects w .nop = true := by rw [selects_nop]; omega
  have hpowlaw : ¬ selects w (.powlaw (argField w)) = true := by rw [selects_powlaw]; omega
  rw [decodeWord, if_neg hnop, if_neg hpowlaw, if_pos ((selects_fht w _).mpr ⟨hopc, hrsvd⟩)]

/-- Everything the decoder answers, by the word's OPC, ARG and RSVD as numbers (R92 to R94). -/
theorem decodeWord_cases (w : Word) :
    (w.toNat = 0 ∧ decodeWord w = .ok .nop) ∨
    (w.toNat % 16 = 1 ∧ w.toNat / 16384 = 0 ∧ decodeWord w = .ok (.powlaw (argField w))) ∨
    (w.toNat % 16 = 2 ∧ w.toNat / 16384 = 0 ∧ decodeWord w = .ok (.fht (argField w))) ∨
    (2 < w.toNat % 16 ∧ decodeWord w = .error .opcode) ∨
    (w.toNat % 16 ≤ 2 ∧ (w.toNat / 16384 ≠ 0 ∨ (w.toNat % 16 = 0 ∧ w.toNat / 16 % 1024 ≠ 0)) ∧
      decodeWord w = .error .reserved) := by
  simp only [decodeWord, selects_nop, selects_powlaw, selects_fht, toNat_opcField]
  split_ifs with hnop hpowlaw hfht hopc
  · exact .inl ⟨hnop, rfl⟩
  · exact .inr (.inl ⟨hpowlaw.1, hpowlaw.2, rfl⟩)
  · exact .inr (.inr (.inl ⟨hfht.1, hfht.2, rfl⟩))
  · exact .inr (.inr (.inr (.inl ⟨hopc, rfl⟩)))
  · exact .inr (.inr (.inr (.inr ⟨by omega, by omega, rfl⟩)))

/-- A word with OPC = 0 is NOP's or E_RSVD (R93). -/
theorem decodeWord_of_opc_zero {w : Word} (hopc : w.toNat % 16 = 0) (hw : w ≠ 0x00000000#32) :
    decodeWord w = .error .reserved := by
  obtain ⟨hzero, -⟩ | ⟨hone, -⟩ | ⟨htwo, -⟩ | ⟨hbig, -⟩ | ⟨-, -, hd⟩ := decodeWord_cases w
  · exact absurd (BitVec.eq_of_toNat_eq hzero) hw
  · omega
  · omega
  · omega
  · exact hd

/-! ### The decoder and the encoder -/

/-- The fields of a command's word (R90). -/
theorem encode_fields (i : Instr) :
    (encode i).toNat % 16 = i.opc.toNat ∧ (encode i).toNat / 16384 = 0 ∧
      argField (encode i) = i.arg := by
  have harg := i.arg.isLt
  have hopc := i.opc.isLt
  rw [← BitVec.toNat_inj, toNat_argField, toNat_encode]
  omega

/-- Format C holds nothing but OPC, ARG and RSVD (R90). -/
theorem eq_encode_of_fields {w : Word} {i : Instr} (hopc : w.toNat % 16 = i.opc.toNat)
    (hrsvd : w.toNat / 16384 = 0) (harg : argField w = i.arg) : w = encode i := by
  have hargNat := toNat_argField w
  rw [harg] at hargNat
  rw [← BitVec.toNat_inj, toNat_encode]
  omega

theorem decodeWord_encode (i : Instr) : decodeWord (encode i) = .ok i := by
  obtain ⟨hopc, hrsvd, harg⟩ := encode_fields i
  cases i with
  | nop => decide
  | powlaw m => rw [decodeWord_of_opc_one hopc hrsvd, harg]; rfl
  | fht n => rw [decodeWord_of_opc_two hopc hrsvd, harg]; rfl

theorem eq_encode_of_decodeWord {w : Word} {i : Instr} (h : decodeWord w = .ok i) :
    w = encode i := by
  obtain ⟨hw, hd⟩ | ⟨hopc, hrsvd, hd⟩ | ⟨hopc, hrsvd, hd⟩ | ⟨-, hd⟩ | ⟨-, -, hd⟩ :=
    decodeWord_cases w <;> cases hd.symm.trans h
  · exact BitVec.eq_of_toNat_eq hw
  · exact eq_encode_of_fields hopc hrsvd rfl
  · exact eq_encode_of_fields hopc hrsvd rfl

/-- Decoding and encoding a word are inverses. -/
theorem decodeWord_eq_ok_iff (i : Instr) (w : Word) : decodeWord w = .ok i ↔ w = encode i :=
  ⟨eq_encode_of_decodeWord, fun h => h ▸ decodeWord_encode i⟩

/-- Four bytes are one command word, whatever follows (R96). -/
theorem decodeBytes_wordBytes_append (i : Instr) (w : Word) (rest rest' : List Byte) :
    decodeBytes (wordBytes w ++ rest) = .ok (i, rest') ↔ decodeWord w = .ok i ∧ rest = rest' := by
  have h : decodeBytes (wordBytes w ++ rest) = (decodeWord w).map (·, rest) := by
    simp only [wordBytes, List.cons_append, List.nil_append, decodeBytes, wordOfBytes_byteLane]
    cases decodeWord w <;> rfl
  rw [h]
  cases decodeWord w <;> simp [Except.map]

/-- A list that decodes begins with the bytes of a word (R96). -/
theorem exists_word_of_decodeBytes {bs rest : List Byte} {i : Instr}
    (h : decodeBytes bs = .ok (i, rest)) : ∃ w rest', bs = wordBytes w ++ rest' := by
  match bs, h with
  | b0 :: b1 :: b2 :: b3 :: rest', _ =>
    exact ⟨wordOfBytes b0 b1 b2 b3, rest', by rw [wordBytes_wordOfBytes]; rfl⟩

theorem decodeBytes_eq_ok_iff (i : Instr) (bs rest : List Byte) :
    decodeBytes bs = .ok (i, rest) ↔ bs = wordBytes (encode i) ++ rest := by
  constructor
  · intro h
    obtain ⟨w, rest', rfl⟩ := exists_word_of_decodeBytes h
    obtain ⟨hw, rfl⟩ := (decodeBytes_wordBytes_append i w rest' rest).mp h
    rw [eq_encode_of_decodeWord hw]
  · rintro rfl
    exact (decodeBytes_wordBytes_append i _ rest rest).mpr ⟨decodeWord_encode i, rfl⟩

/-! ### CheckCommand -/

/-- With BUSY = 0 a decoded command is checked on its operands (R97). -/
theorem checkCommand_of_ok {w : Word} {i : Instr} (h : decodeWord w = .ok i) (src dst : WordAddr) :
    checkCommand w false src dst = operandCause i src dst := by
  simp only [checkCommand, h]
  rfl

theorem checkCommand_of_opcode {w : Word} (h : decodeWord w = .error .opcode) (src dst : WordAddr) :
    checkCommand w false src dst = some .eOpcode := by
  simp only [checkCommand, h]
  rfl

theorem checkCommand_of_reserved {w : Word} (h : decodeWord w = .error .reserved)
    (src dst : WordAddr) : checkCommand w false src dst = some .eRsvd := by
  simp only [checkCommand, h]
  rfl

/-- The code that a verdict of `CheckCommand` is written as: R221's, or 0 for acceptance (R97). -/
def verdictCode : Option CmdCause → Nat
  | none => 0
  | some c => (cmdCode c).toNat

/-- POWLAW's checks as codes, on unbounded integers (R97). -/
theorem verdictCode_powlawCause (m : BitVec 10) (src dst : WordAddr) :
    verdictCode (powlawCause m src dst) =
      if 575 < m.toNat then 4
      else if 2047 < src.toNat + m.toNat ∨ 2047 < dst.toNat + m.toNat then 5
      else if src.toNat ≠ dst.toNat ∧ src.toNat ≤ dst.toNat + m.toNat ∧
        dst.toNat ≤ src.toNat + m.toNat then 6
      else 0 := by
  simp only [powlawCause, ne_eq, ← BitVec.toNat_inj, apply_ite verdictCode]
  rfl

/-- FHT's checks as codes, on unbounded integers (R97). -/
theorem verdictCode_fhtCause (n : BitVec 10) (src : WordAddr) :
    verdictCode (fhtCause n src) =
      if n.toNat ∉ [8, 32, 128, 512] then 4
      else if 2047 < src.toNat + 2 * n.toNat - 1 then 5
      else 0 := by
  have hlegal : legalHalfSize n = false ↔ n.toNat ∉ [8, 32, 128, 512] := by
    simp [legalHalfSize, and_assoc]
  simp only [fhtCause, hlegal, apply_ite verdictCode]
  rfl

/-! ### The obligations -/

/-- Settles O1: the fields of format C determine the word, and four bytes are one word. -/
theorem decodeEncodeAgree : Obligations.DecodeEncodeAgree :=
  ⟨decodeWord_eq_ok_iff, decodeBytes_eq_ok_iff⟩

/-- Settles O3: NOP's encoding is 0, and OPC = 0 selects no other row. -/
theorem nopHasOneEncoding : Obligations.NopHasOneEncoding := by
  refine ⟨fun w => decodeWord_eq_ok_iff .nop w, fun w src dst hopc hw => ?_⟩
  have hopcNat : w.toNat % 16 = 0 := by
    rw [← toNat_opcField, opcField, hopc]
    rfl
  exact checkCommand_of_reserved (decodeWord_of_opc_zero hopcNat hw) src dst

/-- Settles O4: the decoder's five answers, and then the operand checks of the command. -/
theorem checkCommandFollowsPriority : Obligations.CheckCommandFollowsPriority := by
  intro w busy src dst opc arg rsvd s d
  change verdictCode (checkCommand w busy src dst) = _
  have harg : arg = (argField w).toNat := (toNat_argField w).symm
  cases busy with
  | true => rfl
  | false =>
    rw [if_neg Bool.false_ne_true]
    obtain ⟨hw, hd⟩ | ⟨hopc, hrsvd, hd⟩ | ⟨hopc, hrsvd, hd⟩ | ⟨hopc, hd⟩ | ⟨hopc, hrsvd, hd⟩ :=
      decodeWord_cases w
    · have hfields : opc = 0 ∧ arg = 0 ∧ rsvd = 0 := by omega
      rw [checkCommand_of_ok hd]
      simp [hfields, operandCause, verdictCode]
    · rw [checkCommand_of_ok hd, operandCause, verdictCode_powlawCause, ← harg]
      simp [opc, rsvd, hopc, hrsvd, s, d]
    · rw [checkCommand_of_ok hd, operandCause, verdictCode_fhtCause, ← harg]
      simp [opc, rsvd, hopc, hrsvd, s, d]
    · rw [checkCommand_of_opcode hd, if_pos hopc]
      rfl
    · rw [checkCommand_of_reserved hd, if_neg (Nat.not_lt.mpr hopc)]
      by_cases hzero : rsvd = 0
      · rw [if_neg (not_not.mpr hzero), if_pos (hrsvd.resolve_left (not_not.mpr hzero))]
        rfl
      · rw [if_pos hzero]
        rfl

/-- Settles O2: each row of the table, evaluated. -/
theorem exampleWordVerdicts : Obligations.ExampleWordVerdicts := by
  unfold Obligations.ExampleWordVerdicts
  decide

end Sys2Proof.Machine
end

section
/-! PROOFS. The host's bus transactions: what each read returns, what each register write does, and
the DMEM window (spec/40_command_control.md R110 to R120, R124). -/

namespace Sys2Proof.Machine

/-! ### The access check (R111) -/

/-- The accesses that are not refused. -/
theorem accessCause_eq_none {offset : Offset} {busy : Bool} (halign : offset.toNat % 4 = 0)
    (hfree : ¬ (0x2000 ≤ offset.toNat ∧ busy = true)) :
    accessCause offset 0b1111#4 busy = none := by
  rw [accessCause, if_neg (not_not.mpr halign), if_neg (not_not.mpr rfl), Config.dmemBase,
    if_neg hfree]

/-- A refused access has the first cause that applies, and its code (R231). -/
theorem accessCause_of_refused {offset : Offset} {be : BitVec 4} {busy : Bool}
    (h : offset.toNat % 4 ≠ 0 ∨ be ≠ 0b1111#4 ∨ (0x2000 ≤ offset.toNat ∧ busy = true)) :
    ∃ c, accessCause offset be busy = some c ∧
      (accCode c).toNat = if offset.toNat % 4 ≠ 0 then 1 else if be ≠ 0b1111#4 then 2 else 3 := by
  unfold accessCause
  split
  · exact ⟨.misaligned, rfl, rfl⟩
  · next halign =>
    split
    · exact ⟨.narrow, rfl, rfl⟩
    · next hbe =>
      exact ⟨.dmemBusy, if_pos ((h.resolve_left halign).resolve_left hbe), rfl⟩

/-- ACCINFO as a number (R31). -/
theorem accInfoWord_eq_ofNat (c : AccCause) (offset : Offset) (wr : Bool) :
    accInfoWord c offset wr =
      BitVec.ofNat 32 (65536 * (accCode c).toNat + 16384 * wr.toNat + offset.toNat) := by
  rw [← toNat_accInfoWord, BitVec.ofNat_toNat, BitVec.setWidth_eq]

/-! ### Reads (R112) -/

theorem hostReadData_dmem {offset : Offset} {s : State}
    (hc : accessCause offset 0b1111#4 s.busy = none) (ho : 0x2000 ≤ offset.toNat) :
    hostReadData offset 0b1111#4 s = readWord s.dmem (dmemIndex offset) := by
  simp only [hostReadData, hc]
  exact if_pos ho

theorem hostReadData_register {offset : Offset} {s : State}
    (hc : accessCause offset 0b1111#4 s.busy = none) (ho : offset.toNat < 0x2000) :
    hostReadData offset 0b1111#4 s = readRegister offset s := by
  simp only [hostReadData, hc]
  exact if_neg (Nat.not_le.mpr ho)

/-- Reserved space reads as zero (R34). -/
theorem readRegister_reserved {offset : Offset} (s : State)
    (h : 0x030 ≤ offset.toNat ∧ offset.toNat ≤ 0x03C ∨
      0x060 ≤ offset.toNat ∧ offset.toNat ≤ 0x1FFC) :
    readRegister offset s = 0x00000000#32 := by
  unfold readRegister
  iterate 13 rw [if_neg (by omega)]

/-- A base register reads as its value (R29). -/
theorem toNat_setWidth_wordAddr (base : WordAddr) : (base.setWidth 32).toNat = base.toNat :=
  BitVec.toNat_setWidth_of_le (show 11 ≤ 32 by decide)

/-! ### Register writes (R113 to R118) -/

theorem hostAccess_write_register {offset : Offset} {s : State} (w : Word)
    (halign : offset.toNat % 4 = 0) (ho : offset.toNat < 0x2000) :
    hostAccess (.write offset 0b1111#4 w) s = writeRegister offset w s := by
  have hc : accessCause offset 0b1111#4 s.busy = none := accessCause_eq_none halign (by omega)
  rw [hostAccess, hostWrite_of_none hc, Config.dmemBase, if_neg (Nat.not_le.mpr ho)]

/-- Only CTRL, STATUS, CMD, SRC_BASE and DST_BASE take a write (R118). -/
theorem writeRegister_of_not_writable {offset : Offset} (w : Word) (s : State)
    (h : offset.toNat ∉ [0x008, 0x00C, 0x010, 0x014, 0x018]) : writeRegister offset w s = s := by
  simp only [List.mem_cons, List.not_mem_nil, or_false, not_or] at h
  obtain ⟨hctrl, hstatus, hcmd, hsrc, hdst⟩ := h
  rw [writeRegister, if_neg hctrl, if_neg hstatus, if_neg hcmd, if_neg hsrc, if_neg hdst]

/-- A base register keeps bits 10:0 (R29). -/
theorem setWidth_eq_ofNat_mod (w : Word) : w.setWidth 11 = BitVec.ofNat 11 (w.toNat % 2048) := by
  rw [← BitVec.toNat_inj, BitVec.toNat_setWidth, BitVec.toNat_ofNat, Nat.mod_mod]

/-! ### CTRL and the soft reset (R115, R262) -/

theorem ctrlWrite_of_srst {w : Word} (h : w.getLsbD 1 = true) (s : State) :
    ctrlWrite w s = softReset s := by
  rw [ctrlWrite, if_pos h]

/-- A reset leaves DMEM, the draws, the bus and the agenda only. -/
theorem resetRegisters_eq (s : State) :
    resetRegisters s =
      { State.reset with
        dmem := s.dmem, draws := s.draws, rdata := s.rdata, agenda := s.agenda } := rfl

theorem softReset_eq (s : State) :
    softReset s =
      { State.reset with
        dmem := (softReset s).dmem
        draws := (softReset s).draws
        rdata := s.rdata
        agenda := s.agenda } := by
  rcases softReset_cases s with ⟨-, he⟩ | ⟨-, he⟩
  · rw [he]
    exact resetRegisters_eq (abortCommand s)
  · rw [he]
    exact resetRegisters_eq s

theorem softReset_of_idle {s : State} (h : s.busy = false) : softReset s = resetRegisters s := by
  simp [softReset, h]

/-! ### The DMEM window (R117) -/

/-- The window offset of DMEM word `a` (R60). -/
abbrev dmemOffset (a : Nat) : Offset := BitVec.ofNat 14 (0x2000 + 4 * a)

section
variable {a : Nat} (ha : a < 2048)
include ha

theorem toNat_dmemOffset : (dmemOffset a).toNat = 0x2000 + 4 * a := by
  rw [BitVec.toNat_ofNat, Nat.mod_eq_of_lt (by omega)]

theorem dmemIndex_dmemOffset : dmemIndex (dmemOffset a) = a := by
  rw [dmemIndex, toNat_dmemOffset ha, Config.dmemBase]
  omega

theorem dmemBase_le_dmemOffset : 0x2000 ≤ (dmemOffset a).toNat := by
  rw [toNat_dmemOffset ha]
  exact Nat.le_add_right _ _

theorem dmemOffset_aligned : (dmemOffset a).toNat % 4 = 0 := by
  rw [toNat_dmemOffset ha]
  omega

theorem accessCause_dmemOffset_idle {busy : Bool} (hb : busy = false) :
    accessCause (dmemOffset a) 0b1111#4 busy = none :=
  accessCause_eq_none (dmemOffset_aligned ha) (by simp [hb])

theorem accessCause_dmemOffset_busy {busy : Bool} (hb : busy = true) :
    accessCause (dmemOffset a) 0b1111#4 busy = some .dmemBusy := by
  rw [accessCause, if_neg (not_not.mpr (dmemOffset_aligned ha)), if_neg (not_not.mpr rfl)]
  exact if_pos ⟨dmemBase_le_dmemOffset ha, hb⟩

theorem hostAccess_read_dmem {s : State} (hb : s.busy = false) :
    hostAccess (.read (dmemOffset a) 0b1111#4) s = respond (readWord s.dmem a) s := by
  have hc := accessCause_dmemOffset_idle ha hb
  rw [hostAccess, hostRead_of_none hc, hostReadData_dmem hc (dmemBase_le_dmemOffset ha),
    dmemIndex_dmemOffset ha]

theorem hostAccess_write_dmem {s : State} (w : Word) (hb : s.busy = false) :
    hostAccess (.write (dmemOffset a) 0b1111#4 w) s = dmemWrite a w s := by
  rw [hostAccess, hostWrite_of_none (accessCause_dmemOffset_idle ha hb), Config.dmemBase,
    if_pos (dmemBase_le_dmemOffset ha), dmemIndex_dmemOffset ha]

theorem hostAccess_read_dmem_busy {s : State} (hb : s.busy = true) :
    hostAccess (.read (dmemOffset a) 0b1111#4) s =
      respond 0#32 (accFault .dmemBusy (dmemOffset a) false s) :=
  hostRead_of_some (accessCause_dmemOffset_busy ha hb)

theorem hostAccess_write_dmem_busy {s : State} (w : Word) (hb : s.busy = true) :
    hostAccess (.write (dmemOffset a) 0b1111#4 w) s =
      accFault .dmemBusy (dmemOffset a) true s :=
  hostWrite_of_some (accessCause_dmemOffset_busy ha hb)

/-- The record of a refused DMEM access (R31, R231). -/
theorem accInfoWord_dmemBusy (wr : Bool) :
    accInfoWord .dmemBusy (dmemOffset a) wr =
      BitVec.ofNat 32 (0x32000 + 16384 * wr.toNat + 4 * a) := by
  rw [accInfoWord_eq_ofNat, toNat_dmemOffset ha]
  congr 1
  simp only [accCode, BitVec.toNat_ofNat]
  omega

end

/-- Byte lane `k` of a word as a number (R62). -/
theorem byteLane_eq_ofNat (w : Word) (k : Nat) :
    byteLane w k = BitVec.ofNat 8 (w.toNat / 2 ^ (8 * k)) := by
  rw [← BitVec.toNat_inj, byteLane, BitVec.extractLsb'_toNat, Nat.shiftRight_eq_div_pow,
    BitVec.toNat_ofNat]

/-! ### Issue (R97, R120) -/

theorem checkCommand_busy (w : Word) (src dst : WordAddr) :
    checkCommand w true src dst = some .eBusy := rfl

theorem issueCommand_of_none {w : Word} {s : State}
    (h : checkCommand w s.busy s.srcBase s.dstBase = none) :
    issueCommand w s = acceptCommand w s := by
  simp only [issueCommand, h]

theorem issueCommand_of_some {w : Word} {s : State} {c : CmdCause}
    (h : checkCommand w s.busy s.srcBase s.dstBase = some c) :
    issueCommand w s = cmdFault c w s := by
  simp only [issueCommand, h]

/-! ### The obligations -/

/-- Settles O5: a refusal's cause is the first that applies; a read that is not refused returns the
word of DMEM or the register at its offset. -/
theorem hostReadFollowsTheMap : Obligations.HostReadFollowsTheMap := by
  refine ⟨fun offset be s hrefused => ?_, fun offset s halign hfree => ?_⟩
  · obtain ⟨c, hc, hcode⟩ := accessCause_of_refused hrefused
    have hinfo := accInfoWord_eq_ofNat c offset false
    rw [hcode] at hinfo
    rw [hostAccess, hostRead_of_some hc, respond, accFault, hinfo]
    rfl
  · have hc := accessCause_eq_none halign hfree
    have hreg : ∀ {p : Offset}, offset = p → p.toNat < 0x2000 →
        hostReadData offset 0b1111#4 s = readRegister p s := by
      rintro p rfl hp
      exact hostReadData_register hc hp
    refine ⟨_, hostRead_of_none hc, hostReadData_dmem hc, fun h => hreg h (by decide),
      fun h => hreg h (by decide), fun h => ?ctrl, fun h => ?status, fun h => hreg h (by decide),
      fun h => ?srcBase, fun h => ?dstBase, fun h => hreg h (by decide),
      fun h => hreg h (by decide), fun h => hreg h (by decide), fun h => hreg h (by decide),
      fun h => hreg h (by decide), fun p hp h => ?costab, fun h => ?reserved⟩
    case ctrl =>
      rw [hreg h (by decide)]
      exact toNat_ctrlWord s
    case status =>
      rw [hreg h (by decide)]
      exact toNat_statusWord s
    case srcBase =>
      rw [hreg h (by decide)]
      exact toNat_setWidth_wordAddr _
    case dstBase =>
      rw [hreg h (by decide)]
      exact toNat_setWidth_wordAddr _
    case costab => fin_cases hp <;> exact hreg h (by decide)
    case reserved => rw [hreg rfl (by omega), readRegister_reserved s h]

/-- Settles O12: the offsets of the window are the words' own, each byte lane lands at its own offset,
and BUSY = 1 refuses both accesses. -/
theorem dmemWindowReadsAndWrites : Obligations.DmemWindowReadsAndWrites := by
  intro a w s ha hm
  refine ⟨fun hb => ⟨hostAccess_read_dmem ha hb, writeWord s.dmem a w,
    hostAccess_write_dmem ha w hb, writeWord_wf hm w ha, readWord_writeWord_same hm.1 a w,
    fun k hk => ?lane, fun c hout => ?outside⟩, fun hb => ?busy⟩
  case lane =>
    rw [← byteLane_eq_ofNat]
    exact readByte_writeWord_lane hm.1 a w hk
  case outside =>
    apply readByte_writeWord_outside
    simp only [byteOffset, Config.dmemBase]
    omega
  case busy =>
    rw [hostAccess_read_dmem_busy ha hb, hostAccess_write_dmem_busy ha w hb]
    refine ⟨rfl, rfl, rfl, rfl, rfl, fun hrec => ?_⟩
    rw [respond_accInfo, accFault_accInfo, accFault_accInfo, hrec]
    exact ⟨accInfoWord_dmemBusy ha true, accInfoWord_dmemBusy ha false⟩

/-- Settles O6: no branch of a register write or read is at such an offset. -/
theorem readOnlyAndReservedIgnoreWrites : Obligations.ReadOnlyAndReservedIgnoreWrites := by
  refine ⟨fun offset w s halign hlow hreg => ?_, fun offset s halign hres => ?_⟩
  · rw [hostAccess_write_register w halign hlow, writeRegister_of_not_writable w s hreg]
  · have hlow : offset.toNat < 0x2000 := by omega
    have hc : accessCause offset 0b1111#4 s.busy = none := accessCause_eq_none halign (by omega)
    rw [hostAccess, hostRead_of_none hc, hostReadData_register hc hlow,
      readRegister_reserved s hres, respond]

/-- Settles O9: each flag's bit of the data, 0 or 1. -/
theorem statusWriteClearsByOne : Obligations.StatusWriteClearsByOne := by
  intro w s
  have hclear : ∀ flag bit : Bool, (flag && !bit) = if bit then false else flag := by decide
  simp only [hostAccess_write_status, statusW1C, hclear]

/-- Settles O10: a base register keeps its data modulo 2^11. -/
theorem baseWritesStoreElevenBits : Obligations.BaseWritesStoreElevenBits := by
  intro w s
  rw [hostAccess_write_srcBase, hostAccess_write_dstBase, srcBaseWrite, dstBaseWrite,
    setWidth_eq_ofNat_mod]
  exact ⟨rfl, rfl⟩

/-- Settles O11: SRST decides between an IRQ_EN write and a soft reset, which aborts nothing with
BUSY = 0. -/
theorem ctrlWriteEnablesOrSoftResets : Obligations.CtrlWriteEnablesOrSoftResets := by
  intro w s
  rw [hostAccess_write_ctrl]
  refine ⟨ctrlWrite_of_no_srst (s := s), fun hsrst => ?_⟩
  rw [ctrlWrite_of_srst hsrst]
  refine ⟨softReset_eq s, fun hidle => ?_⟩
  rw [softReset_of_idle hidle]
  exact ⟨rfl, rfl⟩

/-- Settles O14: the verdict of `CheckCommand` decides between acceptance and the fault. -/
theorem issueAcceptsOrRejects : Obligations.IssueAcceptsOrRejects := by
  intro w s
  rw [hostAccess_write_cmd]
  exact ⟨fun hb => by rw [hb, checkCommand_busy], issueCommand_of_none,
    fun _ => issueCommand_of_some⟩

/-- Settles O17: NOP's word decodes to NOP, whose operands always pass. -/
theorem nopCompletes : Obligations.NopCompletes := by
  refine ⟨fun w src dst hopc hw => checkCommand_of_reserved (decodeWord_of_opc_zero hopc hw) src dst,
    fun s hb => ?_, checkCommand_busy _, fun _ => rfl⟩
  have hc : checkCommand 0x00000000#32 s.busy s.srcBase s.dstBase = none := by
    rw [hb]
    exact checkCommand_of_ok (decodeWord_encode .nop) s.srcBase s.dstBase
  rw [hostAccess_write_cmd, issueCommand_of_none hc, acceptCommand]

end Sys2Proof.Machine
end

section
/-! PROOFS. The host while BUSY = 1, and the agenda run to its end (spec/20_memory.md R68, R69;
spec/40_command_control.md R122, R123). -/

namespace Sys2Proof.Machine

/-! ### What the host cannot change while BUSY = 1 (R69) -/

/-- The command in flight with its operands, the memory it reads, and the last results. -/
def commandInput (s : State) :
    Bool × Memory × Word × WordAddr × WordAddr × Word × Word × Word :=
  (s.busy, s.dmem, s.lcmd, s.lsrc, s.ldst, s.sum, s.max, s.lastCmd)

theorem issueCommand_busy (w : Word) {s : State} (hb : s.busy = true) :
    issueCommand w s = cmdFault .eBusy w s :=
  issueCommand_of_some (by rw [hb, checkCommand_busy])

/-- While BUSY = 1 a DMEM write is refused and a CMD write rejected (R117, R97). -/
theorem commandInput_hostAccess {a : Access} {s : State} (hb : s.busy = true)
    (ha : isSoftReset a = false) : commandInput (hostAccess a s) = commandInput s := by
  have hcases := hostAccess_cases a s
  rw [hb, ha] at hcases
  rcases hcases with ⟨w, he⟩ | ⟨c, offset, he⟩ | ⟨c, offset, he⟩ | ⟨⟨⟩, -⟩ | ⟨⟨⟩, -⟩ |
    ⟨w, he⟩ | ⟨w, he⟩ | ⟨w, he⟩ | ⟨w, he⟩ | ⟨w, he⟩ | he
  all_goals simp [commandInput, he, issueCommand_busy _ hb]

theorem commandInput_hostAccesses {as : List Access} {s : State} (hb : s.busy = true)
    (has : ∀ a ∈ as, isSoftReset a = false) :
    commandInput (hostAccesses as s) = commandInput s := by
  induction as generalizing s with
  | nil => rfl
  | cons a as ih =>
    obtain ⟨ha, has⟩ := List.forall_mem_cons.mp has
    have hkeep := commandInput_hostAccess hb ha
    have hbusy : (hostAccess a s).busy = true := (congrArg Prod.fst hkeep).trans hb
    exact (ih hbusy has).trans hkeep

/-! ### The agenda -/

@[simp] theorem issueCommand_agenda (w : Word) (s : State) :
    (issueCommand w s).agenda = s.agenda := by
  rcases issueCommand_cases w s with ⟨c, -, he⟩ | ⟨-, he⟩ <;> rw [he] <;> rfl

@[simp] theorem softReset_agenda (s : State) : (softReset s).agenda = s.agenda := by
  rcases softReset_cases s with ⟨-, he⟩ | ⟨-, he⟩ <;> rw [he] <;> rfl

@[simp] theorem hostAccess_agenda (a : Access) (s : State) :
    (hostAccess a s).agenda = s.agenda := by
  rcases hostAccess_cases a s with ⟨w, he⟩ | ⟨c, offset, he⟩ | ⟨c, offset, he⟩ |
    ⟨-, k, w, -, he⟩ | ⟨-, he⟩ | ⟨w, he⟩ | ⟨w, he⟩ | ⟨w, he⟩ | ⟨w, he⟩ | ⟨w, he⟩ | he
  all_goals simp [he]

/-! ### Completion (R122) -/

/-- Admitted operands complete, whatever DMEM holds. -/
theorem exec_of_admitted {i : Instr} {s : State} (h : operandCause i s.lsrc s.ldst = none) :
    ∃ u, exec i s = .next (finishCommand u) := by
  cases i with
  | nop => exact ⟨s, rfl⟩
  | powlaw m => exact ⟨powOutput m s, execPowlaw_of_none h⟩
  | fht n => exact ⟨fhtOutput n s, execFht_of_none h⟩

/-- After the engine's turn no command is in flight. -/
theorem engineTurn_of_inv {s : State} (h : s.Inv) :
    ∃ t, engineTurn s = .next t ∧ t.busy = false ∧ t.agenda = s.agenda := by
  cases hb : s.busy with
  | false => exact ⟨s, engineTurn_idle hb, hb, rfl⟩
  | true =>
    obtain ⟨i, hi, hop⟩ := decode_of_inv_busy h hb
    obtain ⟨u, hu⟩ := exec_of_admitted hop
    have ht := (engineTurn_of_decode hb hi).trans hu
    have hframe := engineTurn_frame h ht
    exact ⟨finishCommand u, ht, rfl, by rw [hframe]⟩

/-! ### Runs -/

/-- Under the invariant a step takes the agenda's first move. -/
theorem step_of_agenda_cons {s : State} {m : Move} {rest : List Move} (h : s.Inv)
    (ha : s.agenda = m :: rest) : ∃ t, step s = .next t ∧ t.agenda = rest := by
  cases m with
  | host a => exact ⟨_, step_host ha, hostAccess_agenda a _⟩
  | engine =>
    obtain ⟨t, ht, -, hrest⟩ := engineTurn_of_inv (inv_setAgenda h rest)
    exact ⟨t, (step_engine ha).trans ht, hrest⟩
  | hardReset => exact ⟨_, step_hardReset ha, rfl⟩

theorem run_succ {s t : State} (k : Nat) (h : step s = .next t) :
    Host.Core.run Sys2Proof.core (k + 1) s = Host.Core.run Sys2Proof.core k t := by
  have hcore : Sys2Proof.core.step s = .next t := h
  simp only [Host.Core.run, hcore]

theorem run_agenda_and_one_more {as : List Move} {s : State} (h : s.Inv) (ha : s.agenda = as) :
    ∃ t : State, Host.Core.run Sys2Proof.core (as.length + 1) s = .next t ∧
      t.agenda = [] ∧ t.busy = false := by
  induction as generalizing s with
  | nil =>
    obtain ⟨t, ht, hb, hrest⟩ := engineTurn_of_inv h
    exact ⟨t, run_succ 0 ((step_empty ha).trans ht), hrest.trans ha, hb⟩
  | cons m rest ih =>
    obtain ⟨u, hu, hrest⟩ := step_of_agenda_cons h ha
    obtain ⟨t, ht, hend⟩ := ih (inv_step h hu) hrest
    exact ⟨t, (run_succ _ hu).trans ht, hend⟩

/-! ### The obligations -/

/-- Settles O52, by induction on the agenda: its last step is the engine's turn. -/
theorem agendaDrainsAndEngineIdles : Obligations.AgendaDrainsAndEngineIdles :=
  fun _ h => run_agenda_and_one_more h rfl

/-- Settles O53, by induction on the accesses. -/
theorem busyFreezesTheCommandsInput : Obligations.BusyFreezesTheCommandsInput := by
  intro as s hb has
  have hkeep := commandInput_hostAccesses hb has
  simp only [commandInput, Prod.mk.injEq, hb] at hkeep
  exact hkeep

end Sys2Proof.Machine
end

section
/-! PROOFS. POWLAW's transformed word through its magnitude field alone: rounding and the root never
reverse an order, so the corner inputs of R160 are the ends of ranges (spec/41_powlaw.md R151, R160). -/

namespace Sys2Proof.Machine

/-! ### Rounding and the root keep the order -/

/-- Of two magnitudes in the wrong order each would be nearest to its own number, so both numbers
would be the midpoint. -/
theorem roundMag_le_roundMag (j : Nat) {n n' : Nat} (hle : n ≤ n') :
    roundMag n j ≤ roundMag n' j := by
  rcases Nat.lt_or_ge n' (overflowUnits * 2 ^ j) with hlt' | hge'
  · have hnear := ((roundMag_nearest (Nat.lt_of_le_of_lt hle hlt')).2 (roundMag n' j)).1
    have hnear' := ((roundMag_nearest hlt').2 (roundMag n j)).1
    by_contra hgt
    have hunits : magUnits (roundMag n' j) * 2 ^ j < magUnits (roundMag n j) * 2 ^ j :=
      Nat.mul_lt_mul_of_pos_right (magUnits_strictMono (by omega)) (Nat.two_pow_pos j)
    have hmid : n = n' := by omega
    exact hgt (hmid ▸ Nat.le_refl _)
  · rw [roundMag_overflow hge']
    exact roundMag_le n j

theorem isqrt_mono : Monotone isqrt := by
  intro n n' h
  have hlow := (isqrt_spec n).1
  have hhigh := (isqrt_spec n').2
  exact Nat.le_of_lt_succ (Nat.mul_self_lt_mul_self_iff.mp
    (Nat.lt_of_le_of_lt hlow (Nat.lt_of_le_of_lt h hhigh)))

/-- Of numbers with one root, only the least is the root's square. -/
theorem isqrtSticky_mono : Monotone isqrtSticky := by
  intro n n' h
  have hlow := (isqrt_spec n).1
  unfold isqrtSticky
  rcases Nat.eq_or_lt_of_le (isqrt_mono h) with heq | hlt
  · rw [← heq]
    split <;> split <;> omega
  · split <;> split <;> omega

/-! ### The magnitude fields on the way to a transformed word -/

/-- The magnitude field of the root of the finite magnitude field `m`. -/
def rootMag (m : Nat) : Nat := roundMag (isqrtSticky (magUnits m * 2 ^ 149)) 1

/-- The magnitude field of `x·√x` for `x` with the finite magnitude field `m` (R151). -/
def powProductMag (m : Nat) : Nat := roundMag (magUnits m * magUnits (rootMag m)) 149

theorem rootMag_mono : Monotone rootMag := fun _ _ h =>
  roundMag_le_roundMag 1 (isqrtSticky_mono (Nat.mul_le_mul_right _ (magUnits_strictMono.monotone h)))

theorem powProductMag_mono : Monotone powProductMag := fun _ _ h =>
  roundMag_le_roundMag 149 (Nat.mul_le_mul (magUnits_strictMono.monotone h)
    (magUnits_strictMono.monotone (rootMag_mono h)))

theorem rootMag_zero : rootMag 0 = 0 := by decide +kernel

theorem rootMag_pos {m : Nat} (h : 0 < m) : 0 < rootMag m :=
  Nat.lt_of_lt_of_le (by decide +kernel : 0 < rootMag 1) (rootMag_mono h)

theorem rootMag_lt_infMag {m : Nat} (h : m < infMag) : rootMag m < infMag :=
  Nat.lt_of_le_of_lt (rootMag_mono (Nat.le_pred_of_lt h))
    (by decide +kernel : rootMag (infMag - 1) < infMag)

theorem fsqrt_fpack {m : Nat} (h : m < infMag) : fsqrt (fpack false m) = fpack false (rootMag m) := by
  have hm : m < 2 ^ 31 := Nat.lt_trans h infMag_lt
  have hmag : fmag (fpack false m) = m := fmag_fpack false hm
  rcases Nat.eq_zero_or_pos m with rfl | hpos
  · rw [fsqrt_of_isZero (by simp [isZero, hmag]), rootMag_zero]
  · have hz : isZero (fpack false m) = false := by
      rw [isZero, hmag]
      exact decide_eq_false (by omega)
    rw [fsqrt_of_isFinite (by simpa [isFinite, hmag] using h) hz (fneg_fpack false hm), hmag]
    rfl

theorem fabs_eq_fpack (w : Word) : fabs w = fpack false (fmag w) :=
  (eq_fpack_iff _ false (fmag_lt w)).mpr ⟨fneg_fabs w, fmag_fabs w⟩

theorem fmul_fabs_fsqrt_fabs {w : Word} (h : fmag w < infMag) :
    fmul (fabs w) (fsqrt (fabs w)) = fpack false (powProductMag (fmag w)) := by
  have hm : fmag w < 2 ^ 31 := fmag_lt w
  have hroot : rootMag (fmag w) < infMag := rootMag_lt_infMag h
  have hroot' : rootMag (fmag w) < 2 ^ 31 := Nat.lt_trans hroot infMag_lt
  rw [fabs_eq_fpack, fsqrt_fpack h, fmul_of_isFinite (by simpa [isFinite, fmag_fpack false hm] using h)
    (by simpa [isFinite, fmag_fpack false hroot'] using hroot), fmag_fpack false hm,
    fmag_fpack false hroot', fneg_fpack false hm, fneg_fpack false hroot']
  rfl

theorem powElement_of_finite {w : Word} (h : fmag w < infMag) :
    powElement w = fsqrt (fpack false (powProductMag (fmag w))) := by
  rw [powElement, fmul_fabs_fsqrt_fabs h]

/-! ### R160's ranges -/

theorem powElement_of_isNan {w : Word} (h : isNan w = true) : powElement w = qnan := by
  have hmul : fmul (fabs w) (fsqrt (fabs w)) = qnan := fmul_of_isNan (.inl (by rwa [isNan_fabs]))
  rw [powElement, hmul, fsqrt_of_isNan isNan_qnan]

/-- Up to 2^-100 the product is at most the tie at 2^-150, which rounds to 0. -/
theorem powElement_underflow {w : Word} (h : fmag w ≤ 0x0D800000) : powElement w = 0x00000000#32 := by
  have hend : powProductMag 0x0D800000 = 0 := by decide +kernel
  have hprod : powProductMag (fmag w) = 0 := Nat.le_zero.mp (hend ▸ powProductMag_mono h)
  rw [powElement_of_finite (Nat.lt_of_le_of_lt h (by decide)), hprod, fsqrt_fpack (by decide),
    rootMag_zero]
  rfl

theorem powElement_overflow {w : Word} (h : 0x6A214518 ≤ fmag w) (hn : fmag w ≤ 0x7F800000) :
    powElement w = 0x7F800000#32 := by
  rcases Nat.eq_or_lt_of_le hn with hinf | hfin
  · rw [powElement, fabs_eq_fpack, hinf]
    decide +kernel
  · have hend : powProductMag 0x6A214518 = infMag := by decide +kernel
    have hprod : powProductMag (fmag w) = infMag :=
      Nat.le_antisymm (roundMag_le _ _) (hend ▸ powProductMag_mono h)
    rw [powElement_of_finite hfin, hprod]
    exact fsqrt_of_isInf (by decide) (by decide)

theorem powElement_between {w : Word} (h : 0x0D800001 ≤ fmag w) (h' : fmag w ≤ 0x6A214517) :
    isFinite (powElement w) = true ∧ powElement w ≠ 0x00000000#32 := by
  have hlow : 0 < powProductMag (fmag w) :=
    Nat.lt_of_lt_of_le (by decide +kernel : 0 < powProductMag 0x0D800001) (powProductMag_mono h)
  have hhigh : powProductMag (fmag w) < infMag :=
    Nat.lt_of_le_of_lt (powProductMag_mono h') (by decide +kernel : powProductMag 0x6A214517 < infMag)
  have hpos := rootMag_pos hlow
  have hlt := rootMag_lt_infMag hhigh
  have hmag : fmag (powElement w) = rootMag (powProductMag (fmag w)) := by
    rw [powElement_of_finite (Nat.lt_of_le_of_lt h' (by decide)), fsqrt_fpack hhigh,
      fmag_fpack false (Nat.lt_trans hlt infMag_lt)]
  refine ⟨by simpa [isFinite, hmag] using hlt, fun h0 => ?_⟩
  rw [← hmag, h0] at hpos
  exact absurd hpos (by decide)

/-! ### The obligation -/

/-- Settles O34: the thresholds are the ends of ranges, since the product's magnitude never falls
as the input's rises. -/
theorem powlawCornerInputs : Obligations.PowlawCornerInputs :=
  ⟨powElement_underflow (by decide), powElement_underflow (by decide),
    by decide +kernel, by decide +kernel,
    powElement_overflow (by decide) (by decide), powElement_overflow (by decide) (by decide),
    by decide +kernel, by decide +kernel,
    fun _ => powElement_of_isNan, fun _ => powElement_underflow, fun _ => powElement_overflow,
    fun _ => powElement_between⟩

end Sys2Proof.Machine
end

section
/-! PROOFS. POWLAW's lanes, reductions and completion (spec/41_powlaw.md R150 to R158): each lane is
the fold over its own indices, MAX is the greatest element in any order, and the output is a
function of the coefficients read. -/

namespace Sys2Proof.Machine

/-! ### Lane vectors -/

theorem modify_of_fixed {v : List Word} {f : Word → Word} (hf : ∀ x ∈ v, f x = x) (k : Nat) :
    v.modify k f = v := by
  refine List.ext_getElem (List.length_modify ..) fun j hj hj' => ?_
  rw [List.getElem_modify]
  split
  · exact hf _ (List.getElem_mem hj')
  · rfl

theorem getD_modify {v : List Word} {j : Nat} (hj : j < v.length) (k : Nat) (f : Word → Word) :
    (v.modify k f).getD j 0#32 = if k = j then f (v.getD j 0#32) else v.getD j 0#32 := by
  simp [List.getD_eq_getElem?_getD, hj, List.getElem_modify]

/-! ### Zero padding -/

/-- R155: a +0 element changes no lane that holds a non-negative value or QNAN. -/
theorem lanesAdd_posZero (i : Nat) {l : Lanes} (hs : LanesNonneg l.sumLane)
    (hm : LanesNonneg l.maxLane) : lanesAdd i 0x00000000#32 l = l := by
  have habs : fabs 0x00000000#32 = 0x00000000#32 := by decide
  have hpow : powElement 0x00000000#32 = 0x00000000#32 := powElement_underflow (by decide)
  rw [lanesAdd, habs, hpow, modify_of_fixed fun x hx => fadd_posZero (hs x hx),
    modify_of_fixed fun x hx => fmax_posZero (hm x hx)]

theorem lanesFrom_replicate_posZero (k i : Nat) {l : Lanes} (hs : LanesNonneg l.sumLane)
    (hm : LanesNonneg l.maxLane) : lanesFrom i (List.replicate k 0x00000000#32) l = l := by
  induction k generalizing i with
  | zero => rfl
  | succ k ih => rw [List.replicate_succ, lanesFrom, lanesAdd_posZero i hs hm, ih]

theorem lanesFrom_append_posZeros (xs : List Word) (k : Nat) :
    lanesFrom 0 (xs ++ List.replicate k 0x00000000#32) Lanes.start = lanesFrom 0 xs Lanes.start := by
  obtain ⟨hs, hm⟩ := lanesNonneg_lanesFrom_start xs
  rw [lanesFrom_append, lanesFrom_replicate_posZero k _ hs hm]

/-! ### Each lane is a fold over its own indices -/

/-- The indices below `n` of the elements that join lane `j` (R152, R153). -/
def laneIndices (n j : Nat) : List Nat := (List.range n).filter fun i => i % 8 = j

theorem laneIndices_succ (n j : Nat) :
    laneIndices (n + 1) j = if n % 8 = j then laneIndices n j ++ [n] else laneIndices n j := by
  by_cases h : n % 8 = j <;> simp [laneIndices, List.range_succ, h]

/-- A vector of eight lanes that takes element `n` into lane `n mod 8`: what lane `j` holds. -/
theorem getD_eq_foldl_laneIndices {V : Nat → List Word} {add : Word → Nat → Word}
    (hstart : V 0 = List.replicate 8 0x00000000#32)
    (hadd : ∀ n, V (n + 1) = (V n).modify (n % 8) fun v => add v n) (n : Nat) {j : Nat} (hj : j < 8) :
    (V n).getD j 0#32 = (laneIndices n j).foldl add 0x00000000#32 := by
  have hlen (n : Nat) : (V n).length = 8 := by
    induction n with
    | zero => rw [hstart, List.length_replicate]
    | succ n ih => rw [hadd, List.length_modify, ih]
  induction n with
  | zero =>
    rw [hstart, List.getD_replicate (h := hj)]
    rfl
  | succ n ih =>
    rw [hadd, laneIndices_succ, getD_modify (by rwa [hlen]), ih]
    split
    · rw [List.foldl_append, List.foldl_cons, List.foldl_nil]
    · rfl

/-- The lanes after the first `n` elements of `f`. -/
def lanesUpTo (f : Nat → Word) (n : Nat) : Lanes := lanesFrom 0 ((List.range n).map f) Lanes.start

theorem lanesUpTo_succ (f : Nat → Word) (n : Nat) :
    lanesUpTo f (n + 1) = lanesAdd n (f n) (lanesUpTo f n) := by
  rw [lanesUpTo, List.range_succ, List.map_append, lanesFrom_append, List.length_map,
    List.length_range, Nat.zero_add]
  rfl

/-- The lanes of a list, its elements numbered. -/
theorem lanesFrom_eq_lanesUpTo (xs : List Word) :
    lanesFrom 0 xs Lanes.start = lanesUpTo (fun i => xs.getD i 0#32) xs.length := by
  have hmap : (List.range xs.length).map (fun i => xs.getD i 0#32) = xs :=
    List.ext_getElem (by simp) fun i hi hi' => by simp [hi']
  rw [lanesUpTo, hmap]

theorem getD_sumLane (f : Nat → Word) (n : Nat) {j : Nat} (hj : j < 8) :
    (lanesUpTo f n).sumLane.getD j 0#32 =
      (laneIndices n j).foldl (fun v i => fadd v (fabs (f i))) 0x00000000#32 :=
  getD_eq_foldl_laneIndices (V := fun n => (lanesUpTo f n).sumLane) rfl
    (fun n => by rw [lanesUpTo_succ, lanesAdd]) n hj

theorem getD_maxLane (f : Nat → Word) (n : Nat) {j : Nat} (hj : j < 8) :
    (lanesUpTo f n).maxLane.getD j 0#32 =
      (laneIndices n j).foldl (fun v i => fmax v (powElement (f i))) 0x00000000#32 :=
  getD_eq_foldl_laneIndices (V := fun n => (lanesUpTo f n).maxLane) rfl
    (fun n => by rw [lanesUpTo_succ, lanesAdd]) n hj

/-! ### MAX is the greatest element -/

/-- QNAN's field is above every other that a lane can hold, so the field ranks the lane values. -/
theorem fmag_le_qnan {w : Word} (h : isNonnegOrQnan w = true) : fmag w ≤ fmag qnan := by
  rcases (isNonnegOrQnan_iff w).mp h with rfl | ⟨-, hn⟩
  · exact Nat.le_refl _
  · have hq : infMag ≤ fmag qnan := by decide
    simp only [isNan, decide_eq_false_iff_not] at hn
    omega

theorem eq_qnan_of_isNan {w : Word} (h : isNonnegOrQnan w = true) (hn : isNan w = true) : w = qnan :=
  ((isNonnegOrQnan_iff w).mp h).resolve_right (by simp [hn])

theorem fmag_fmax {a b : Word} (ha : isNonnegOrQnan a = true) (hb : isNonnegOrQnan b = true) :
    fmag (fmax a b) = max (fmag a) (fmag b) := by
  rcases isNan_either_or_neither a b with hn | ⟨hna, hnb⟩
  · rw [fmax_of_isNan hn]
    rcases hn with hn | hn
    · rw [eq_qnan_of_isNan ha hn, Nat.max_eq_left (fmag_le_qnan hb)]
    · rw [eq_qnan_of_isNan hb hn, Nat.max_eq_right (fmag_le_qnan ha)]
  · rw [fmax_of_not_isNan hna hnb]
    simp only [forder, fneg_of_isNonnegOrQnan ha, fneg_of_isNonnegOrQnan hb, Bool.false_eq_true,
      if_false]
    split <;> omega

theorem isNonnegOrQnan_fmax_lanes {a b : Word} (ha : isNonnegOrQnan a = true)
    (hb : isNonnegOrQnan b = true) : isNonnegOrQnan (fmax a b) = true :=
  isNonnegOrQnan_fmax (fneg_of_isNonnegOrQnan ha) (fneg_of_isNonnegOrQnan hb)

/-- Lane values with the same upper bounds are one word. -/
theorem eq_of_fmag_le_iff {a b : Word} (ha : isNonnegOrQnan a = true) (hb : isNonnegOrQnan b = true)
    (h : ∀ n, fmag a ≤ n ↔ fmag b ≤ n) : a = b :=
  word_ext ((fneg_of_isNonnegOrQnan ha).trans (fneg_of_isNonnegOrQnan hb).symm)
    (Nat.le_antisymm ((h _).mpr (Nat.le_refl _)) ((h _).mp (Nat.le_refl _)))

theorem fmag_foldl_fmax_le_iff {ι : Type} {g : ι → Word} (hg : ∀ i, isNonnegOrQnan (g i) = true)
    (is : List ι) {v : Word} (hv : isNonnegOrQnan v = true) (n : Nat) :
    fmag (is.foldl (fun v i => fmax v (g i)) v) ≤ n ↔ fmag v ≤ n ∧ ∀ i ∈ is, fmag (g i) ≤ n := by
  induction is generalizing v with
  | nil => simp
  | cons i is ih =>
    rw [List.foldl_cons, ih (isNonnegOrQnan_fmax_lanes hv (hg i)), fmag_fmax hv (hg i),
      Nat.max_le, List.forall_mem_cons, and_assoc]

theorem isNonnegOrQnan_foldl_fmax {ι : Type} {g : ι → Word} (hg : ∀ i, isNonnegOrQnan (g i) = true)
    (is : List ι) {v : Word} (hv : isNonnegOrQnan v = true) :
    isNonnegOrQnan (is.foldl (fun v i => fmax v (g i)) v) = true := by
  induction is generalizing v with
  | nil => exact hv
  | cons i is ih => exact ih (isNonnegOrQnan_fmax_lanes hv (hg i))

/-- The maximum over the elements of `xs`, in their order (R153). -/
def runningMax (xs : List Word) : Word := xs.foldl (fun v w => fmax v (powElement w)) 0x00000000#32

theorem isNonnegOrQnan_runningMax (xs : List Word) : isNonnegOrQnan (runningMax xs) = true :=
  isNonnegOrQnan_foldl_fmax isNonnegOrQnan_powElement xs (by decide)

theorem fmag_runningMax_le_iff (xs : List Word) (n : Nat) :
    fmag (runningMax xs) ≤ n ↔ ∀ w ∈ xs, fmag (powElement w) ≤ n := by
  rw [runningMax, fmag_foldl_fmax_le_iff isNonnegOrQnan_powElement xs (by decide)]
  exact and_iff_right (Nat.zero_le n)

theorem fmag_maxLane_le_iff (f : Nat → Word) (len : Nat) {j : Nat} (hj : j < 8) (n : Nat) :
    fmag ((lanesUpTo f len).maxLane.getD j 0#32) ≤ n ↔
      ∀ i < len, i % 8 = j → fmag (powElement (f i)) ≤ n := by
  rw [getD_maxLane f len hj,
    fmag_foldl_fmax_le_iff (fun i => isNonnegOrQnan_powElement (f i)) _ (by decide)]
  have h0 : fmag 0x00000000#32 ≤ n := Nat.zero_le n
  simp [h0, laneIndices]

/-- Each element is in one lane, and the lanes hold nothing else. -/
theorem forall_fmag_maxLane_le_iff (xs : List Word) (n : Nat) :
    (∀ j < 8, fmag ((lanesFrom 0 xs Lanes.start).maxLane.getD j 0#32) ≤ n) ↔
      ∀ w ∈ xs, fmag (powElement w) ≤ n := by
  rw [lanesFrom_eq_lanesUpTo]
  calc (∀ j < 8, fmag ((lanesUpTo (fun i => xs.getD i 0#32) xs.length).maxLane.getD j 0#32) ≤ n)
      ↔ ∀ j < 8, ∀ i < xs.length, i % 8 = j → fmag (powElement (xs.getD i 0#32)) ≤ n :=
        forall₂_congr fun j hj => fmag_maxLane_le_iff _ _ hj n
    _ ↔ ∀ i < xs.length, fmag (powElement (xs.getD i 0#32)) ≤ n :=
        ⟨fun h i hi => h (i % 8) (Nat.mod_lt i (by decide)) i hi rfl, fun h _ _ i hi _ => h i hi⟩
    _ ↔ ∀ w ∈ xs, fmag (powElement w) ≤ n := by
        rw [List.forall_mem_iff_getElem]
        exact forall₂_congr fun i hi => by rw [List.getD_eq_getElem xs _ hi]

/-- R156: a tree that takes every lane reduces the lanes to the greatest element, whose place in
the order does not count. -/
theorem reduce_fmax_eq_runningMax {T : LaneTree} (hT : T.lanes.Perm (List.range 8)) (xs : List Word) :
    T.reduce fmax (lanesFrom 0 xs Lanes.start).maxLane = runningMax xs := by
  obtain ⟨hnonneg, hrank⟩ := LaneTree.rank_reduce_le (op := fmax)
    (S := fun w => isNonnegOrQnan w = true) (rank := fmag)
    (fun a b ha hb => ⟨isNonnegOrQnan_fmax_lanes ha hb, fmag_fmax ha hb⟩)
    (isNonnegOrQnan_getD (lanesNonneg_lanesFrom_start xs).2) T
  refine eq_of_fmag_le_iff hnonneg (isNonnegOrQnan_runningMax xs) fun n => ?_
  rw [hrank n, fmag_runningMax_le_iff, ← forall_fmag_maxLane_le_iff]
  simp only [hT.mem_iff, List.mem_range]

/-- R156: MAX is the running maximum. -/
theorem powMax_eq_runningMax (xs : List Word) : powMax xs = runningMax xs := by
  unfold powMax
  rw [reduceTree_eq_reduce]
  exact reduce_fmax_eq_runningMax (List.Perm.of_eq rfl) xs

/-! ### POWLAW's completion -/

theorem length_map_powInput (m : BitVec 10) (s : State) :
    ((powInput m s).map powElement).length = m.toNat + 1 := by
  rw [List.length_map, powInput, length_readWords]

theorem readWord_powOutput {m : BitVec 10} {s : State} (hm : Memory.wf s.dmem) {i : Nat}
    (hi : i ≤ m.toNat) :
    readWord (powOutput m s).dmem (s.ldst.toNat + i) =
      powElement (readWord s.dmem (s.lsrc.toNat + i)) := by
  have hlen : i < ((powInput m s).map powElement).length := by
    rw [length_map_powInput]
    omega
  rw [powOutput_dmem, readWord_writeWords_inside hm.1 _ _ hlen, List.getElem_map]
  exact congrArg powElement (getElem_readWords ..)

theorem readByte_powOutput {m : BitVec 10} {s : State} {c : Nat}
    (hc : ¬ (byteOffset s.ldst.toNat 0 ≤ c ∧ c < byteOffset (s.ldst.toNat + m.toNat + 1) 0)) :
    readByte (powOutput m s).dmem c = readByte s.dmem c := by
  refine readByte_writeWords_outside _ _ _ ?_
  rw [length_map_powInput, ← Nat.add_assoc]
  omega

/-- The coefficients that POWLAW reads are numbered as its lanes are. -/
theorem lanesFrom_powInput (m : BitVec 10) (s : State) :
    lanesFrom 0 (powInput m s) Lanes.start =
      lanesUpTo (fun i => readWord s.dmem (s.lsrc.toNat + i)) (m.toNat + 1) := rfl

/-! ### The obligations -/

/-- Settles O31: a lane stays as it is when it takes a +0. -/
theorem zeroPaddingKeepsReductions : Obligations.ZeroPaddingKeepsReductions := by
  intro xs k
  have h := lanesFrom_append_posZeros xs k
  unfold powSum powMax
  rw [h]
  exact ⟨rfl, rfl⟩

/-- Settles O32: a lane value's rank is its field, so trees and the running maximum have the same
upper bounds. -/
theorem maxIsIndependentOfTheTree : Obligations.MaxIsIndependentOfTheTree := by
  intro xs
  rw [List.foldl_map, powMax_eq_runningMax]
  exact ⟨fun _ hT => reduce_fmax_eq_runningMax hT xs, rfl⟩

/-- Settles O18: the words written are the input's powers, and each lane is a fold over its own
indices. -/
theorem powlawCompletes : Obligations.PowlawCompletes := by
  intro m s hwf hm hsrc hdst hapart xr power lane sumLane maxLane
  have hc : powlawCause m s.lsrc s.ldst = none :=
    (powlawCause_eq_none m _ _).mpr ⟨hm, hsrc, hdst, hapart.imp_right Or.symm⟩
  refine ⟨_, execPowlaw_of_none hc, fun i hi => readWord_powOutput hwf hi,
    fun c hout => readByte_powOutput hout, ?_, ?_, rfl⟩
  · rw [finishCommand_sum, powOutput_sum]
    unfold powSum reduceTree
    simp only [lanesFrom_powInput, getD_sumLane, Nat.reduceLT]
    rfl
  · rw [finishCommand_max, powOutput_max]
    unfold powMax reduceTree
    simp only [lanesFrom_powInput, getD_maxLane, Nat.reduceLT]
    rfl

/-- Settles O19: the output is a function of the coefficients read. -/
theorem powlawReadsOnlyItsInput : Obligations.PowlawReadsOnlyItsInput := by
  intro m s s' t t' hwf hwf' hc hsrc hdst hagree ht ht'
  have hin : powInput m s' = powInput m s := by
    rw [powInput, powInput, hsrc]
    exact readWords_congr fun i hi => hagree i (Nat.le_of_lt_succ hi)
  have hc' : powlawCause m s'.lsrc s'.ldst = none := by rw [hsrc, hdst, hc]
  obtain rfl : finishCommand (powOutput m s) = t :=
    Host.Outcome.next.inj ((execPowlaw_of_none hc).symm.trans ht)
  obtain rfl : finishCommand (powOutput m s') = t' :=
    Host.Outcome.next.inj ((execPowlaw_of_none hc').symm.trans ht')
  refine ⟨congrArg powSum hin, congrArg powMax hin, fun i hi => ?_⟩
  have hword := readWord_powOutput hwf hi
  have hword' := readWord_powOutput hwf' hi
  rw [hsrc, hdst, hagree i hi] at hword'
  exact hword'.trans hword.symm

/-- Settles O33: every lane and every result keeps its sign bit clear, and a NaN result is QNAN. -/
theorem powlawResultsAreNonnegative : Obligations.PowlawResultsAreNonnegative :=
  ⟨isNonnegOrQnan_powElement, fun xs => ⟨isNonnegOrQnan_powSum xs, isNonnegOrQnan_powMax xs⟩⟩

end Sys2Proof.Machine
end

section
/-! PROOFS. FHT (spec/42_fht.md R180 to R195): the stages of each length and the order within one,
butterflies of different groups commuting because each acts within its own group, the transform of
zeros, and the completion in place. -/

namespace Sys2Proof.Machine

/-! ### The order within a stage -/

theorem mem_groupBases {N k4 g : Nat} (hk : 0 < k4) : g ∈ groupBases N k4 ↔ k4 ∣ g ∧ g < N := by
  have hbelow (i : Nat) : i < (N + k4 - 1) / k4 ↔ k4 * i < N := by
    rw [Nat.lt_iff_add_one_le, Nat.le_div_iff_mul_le hk, Nat.add_mul, Nat.mul_comm i]
    omega
  simp only [groupBases, List.mem_map, List.mem_range, hbelow]
  constructor
  · rintro ⟨i, hi, rfl⟩
    exact ⟨Nat.dvd_mul_right k4 i, hi⟩
  · rintro ⟨⟨i, rfl⟩, hg⟩
    exact ⟨i, hg, rfl⟩

theorem groupBases_pairwise_lt (N : Nat) {k4 : Nat} (hk : 0 < k4) :
    (groupBases N k4).Pairwise (· < ·) :=
  List.pairwise_map.mpr (List.pairwise_lt_range.imp fun h => Nat.mul_lt_mul_of_pos_left h hk)

/-- The butterflies and then the recurrence of sub-index `i` (R189, R190). -/
def rotStep (N k1 tri : Nat) (p : List Word × Rotation) (i : Nat) : List Word × Rotation :=
  (rotButterflies N k1 i p.2 p.1, rotationNext tri p.2)

theorem rotLoop_eq_foldl (N k1 tri count i : Nat) (r : Rotation) (F : List Word) :
    rotLoop N k1 tri count i r F =
      ((List.range count).foldl (fun p j => rotStep N k1 tri p (j + i)) (F, r)).1 := by
  induction count generalizing i r F with
  | zero => rfl
  | succ count ih =>
    rw [rotLoop, ih, List.range_succ_eq_map, List.foldl_cons, List.foldl_map, Nat.zero_add]
    simp only [Nat.succ_add, Nat.add_succ]
    rfl

/-! ### Steps that act within a range of the buffer -/

/-- Buffers of one length that agree on the words from `lo` up to `hi`. -/
structure SameOn (lo hi : Nat) (F G : List Word) : Prop where
  length_eq : F.length = G.length
  bufAt_eq : ∀ j, lo ≤ j → j < hi → bufAt F j = bufAt G j

/-- A step that reads and writes no word of the buffer but those from `lo` up to `hi`. -/
structure ActsWithin (lo hi : Nat) (f : List Word → List Word) : Prop where
  length_eq : ∀ F, (f F).length = F.length
  bufAt_outside : ∀ F j, j < lo ∨ hi ≤ j → bufAt (f F) j = bufAt F j
  sameOn : ∀ F G, SameOn lo hi F G → SameOn lo hi (f F) (f G)

theorem buffer_ext {F G : List Word} (hlen : F.length = G.length)
    (h : ∀ j, bufAt F j = bufAt G j) : F = G := by
  refine List.ext_getElem hlen fun j hF hG => ?_
  simpa [bufAt, hF, hG] using h j

section
variable {lo hi lo' hi' p k1 : Nat} {F G : List Word} {f g : List Word → List Word}

theorem SameOn.set (h : SameOn lo hi F G) (i : Nat) (w : Word) :
    SameOn lo hi (F.set i w) (G.set i w) where
  length_eq := by simp only [List.length_set, h.length_eq]
  bufAt_eq j hlo hhi := by
    have hj := h.bufAt_eq j hlo hhi
    simp only [bufAt, List.getD_eq_getElem?_getD, List.getElem?_set, h.length_eq] at hj ⊢
    split
    · rfl
    · exact hj

theorem SameOn.putQuad (h : SameOn lo hi F G) (p k1 : Nat) (w0 w1 w2 w3 : Word) :
    SameOn lo hi (putQuad F p k1 w0 w1 w2 w3) (putQuad G p k1 w0 w1 w2 w3) :=
  (((h.set p w0).set (p + k1) w1).set (p + 2 * k1) w2).set (p + 3 * k1) w3

theorem ActsWithin.comp (hg : ActsWithin lo hi g) (hf : ActsWithin lo hi f) :
    ActsWithin lo hi (fun F => g (f F)) where
  length_eq F := (hg.length_eq _).trans (hf.length_eq F)
  bufAt_outside F j hj := (hg.bufAt_outside _ j hj).trans (hf.bufAt_outside F j hj)
  sameOn _ _ h := hg.sameOn _ _ (hf.sameOn _ _ h)

/-- On a buffer changed only outside the step's range, the step has its effect at each word that
was not changed. -/
theorem ActsWithin.bufAt_congr (hf : ActsWithin lo hi f) (h : SameOn lo hi F G) {j : Nat}
    (hj : bufAt F j = bufAt G j) : bufAt (f F) j = bufAt (f G) j := by
  by_cases hin : lo ≤ j ∧ j < hi
  · exact (hf.sameOn F G h).bufAt_eq j hin.1 hin.2
  · have hout : j < lo ∨ hi ≤ j := by omega
    rw [hf.bufAt_outside F j hout, hf.bufAt_outside G j hout, hj]

/-- Steps within disjoint ranges commute. -/
theorem ActsWithin.comm (hf : ActsWithin lo hi f) (hg : ActsWithin lo' hi' g) (hdisj : hi ≤ lo')
    (F : List Word) : g (f F) = f (g F) := by
  have hgF : SameOn lo hi (g F) F :=
    ⟨hg.length_eq F, fun j _ hj => hg.bufAt_outside F j (by omega)⟩
  have hfF : SameOn lo' hi' (f F) F :=
    ⟨hf.length_eq F, fun j hj _ => hf.bufAt_outside F j (by omega)⟩
  refine buffer_ext (by simp only [hf.length_eq, hg.length_eq]) fun j => ?_
  by_cases hj : j < hi
  · have hout : j < lo' ∨ hi' ≤ j := by omega
    rw [hg.bufAt_outside _ j hout, hf.bufAt_congr hgF (hg.bufAt_outside F j hout)]
  · have hout : j < lo ∨ hi ≤ j := by omega
    rw [hf.bufAt_outside _ j hout, hg.bufAt_congr hfF (hf.bufAt_outside F j hout)]

/-! ### A butterfly acts within its group -/

theorem SameOn.quad (h : SameOn lo hi F G) (hlo : lo ≤ p) (hhi : p + 3 * k1 < hi) :
    bufAt F p = bufAt G p ∧ bufAt F (p + k1) = bufAt G (p + k1) ∧
      bufAt F (p + 2 * k1) = bufAt G (p + 2 * k1) ∧
      bufAt F (p + 3 * k1) = bufAt G (p + 3 * k1) :=
  ⟨h.bufAt_eq _ hlo (by omega), h.bufAt_eq _ (by omega) (by omega),
    h.bufAt_eq _ (by omega) (by omega), h.bufAt_eq _ (by omega) hhi⟩

theorem bufAt_putQuad_outside (hlo : lo ≤ p) (hhi : p + 3 * k1 < hi) (F : List Word)
    (w0 w1 w2 w3 : Word) {j : Nat} (hj : j < lo ∨ hi ≤ j) :
    bufAt (putQuad F p k1 w0 w1 w2 w3) j = bufAt F j :=
  bufAt_putQuad_other F p k1 w0 w1 w2 w3 (by omega) (by omega) (by omega) (by omega)

theorem actsWithin_butterfly0 (hlo : lo ≤ p) (hhi : p + 3 * k1 < hi) :
    ActsWithin lo hi (butterfly0 · p k1) where
  length_eq F := length_butterfly0 F p k1
  bufAt_outside F _ hj := bufAt_putQuad_outside hlo hhi F _ _ _ _ hj
  sameOn F G h := by
    obtain ⟨h0, h1, h2, h3⟩ := h.quad hlo hhi
    simp only [butterfly0, combineQuad, h0, h1, h2, h3]
    exact h.putQuad p k1 _ _ _ _

theorem actsWithin_butterflySqrt2 (hlo : lo ≤ p) (hhi : p + 3 * k1 < hi) :
    ActsWithin lo hi (butterflySqrt2 · p k1) where
  length_eq F := length_butterflySqrt2 F p k1
  bufAt_outside F _ hj := bufAt_putQuad_outside hlo hhi F _ _ _ _ hj
  sameOn F G h := by
    obtain ⟨h0, h1, h2, h3⟩ := h.quad hlo hhi
    simp only [butterflySqrt2, combineQuad, h0, h1, h2, h3]
    exact h.putQuad p k1 _ _ _ _

theorem actsWithin_butterflyRot {fi gi : Nat} (hfi : lo ≤ fi) (hfi' : fi + 3 * k1 < hi)
    (hgi : lo ≤ gi) (hgi' : gi + 3 * k1 < hi) (r : Rotation) :
    ActsWithin lo hi (butterflyRot · fi gi k1 r) where
  length_eq F := length_butterflyRot F fi gi k1 r
  bufAt_outside F _ hj :=
    (bufAt_putQuad_outside hgi hgi' _ _ _ _ _ hj).trans
      (bufAt_putQuad_outside hfi hfi' F _ _ _ _ hj)
  sameOn F G h := by
    obtain ⟨hf0, hf1, hf2, hf3⟩ := h.quad hfi hfi'
    obtain ⟨hg0, hg1, hg2, hg3⟩ := h.quad hgi hgi'
    simp only [butterflyRot, rotTemps, hf0, hf1, hf2, hf3, hg0, hg1, hg2, hg3]
    exact (h.putQuad fi k1 _ _ _ _).putQuad gi k1 _ _ _ _

end

theorem actsWithin_fixedButterflies (g : Nat) {k1 : Nat} (hk : 0 < k1) :
    ActsWithin g (g + 4 * k1)
      (fun F => butterflySqrt2 (butterfly0 F g k1) (g + k1 / 2) k1) :=
  (actsWithin_butterflySqrt2 (by omega) (by omega)).comp
    (actsWithin_butterfly0 (by omega) (by omega))

theorem actsWithin_rotButterfly (g : Nat) {k1 i : Nat} (hi : 1 ≤ i) (hi' : i < k1 / 2)
    (r : Rotation) :
    ActsWithin g (g + 4 * k1) (fun F => butterflyRot F (g + i) (g + k1 - i) k1 r) :=
  actsWithin_butterflyRot (by omega) (by omega) (by omega) (by omega) r

/-- Steps that each act within their own group may be taken in any order of the groups (R192). -/
theorem foldl_groupBases_perm {N k1 : Nat} (hk : 0 < k1) {step : List Word → Nat → List Word}
    (hstep : ∀ g, ActsWithin g (g + 4 * k1) (step · g)) {l : List Nat}
    (hl : l.Perm (groupBases N (4 * k1))) (F : List Word) :
    l.foldl step F = (groupBases N (4 * k1)).foldl step F := by
  have hdvd {g : Nat} (hg : g ∈ l) : 4 * k1 ∣ g :=
    ((mem_groupBases (by omega)).mp (hl.mem_iff.mp hg)).1
  have hgap {g h : Nat} (hg : g ∈ l) (hh : h ∈ l) (hlt : g < h) : g + 4 * k1 ≤ h := by
    have := Nat.le_of_dvd (by omega) (Nat.dvd_sub (hdvd hh) (hdvd hg))
    omega
  refine hl.foldl_eq' (fun g hg h hh F => ?_) F
  rcases Nat.lt_trichotomy g h with hlt | rfl | hlt
  · exact (hstep g).comm (hstep h) (hgap hg hh hlt) F
  · rfl
  · exact ((hstep h).comm (hstep g) (hgap hh hg hlt) F).symm

/-! ### The transform of zeros -/

/-- A zero is +0 or -0. -/
theorem eq_zero_of_isZero {w : Word} (h : isZero w = true) :
    w = 0x00000000#32 ∨ w = 0x80000000#32 := by
  have hm : fmag w = 0 := by simpa [isZero] using h
  cases hs : fneg w
  · exact .inl (eq_posZero hm hs)
  · exact .inr (word_ext hs hm)

@[simp] theorem isZero_fnegate (w : Word) : isZero (fnegate w) = isZero w := by simp [isZero]

theorem fadd_posZero_of_isZero {w : Word} (h : isZero w = true) :
    fadd 0x00000000#32 w = 0x00000000#32 := by
  rcases eq_zero_of_isZero h with rfl | rfl <;> decide +kernel

theorem fsub_posZero_of_isZero {w : Word} (h : isZero w = true) :
    fsub 0x00000000#32 w = 0x00000000#32 :=
  fadd_posZero_of_isZero (by simpa using h)

theorem isZero_fmul_posZero {w : Word} (h : isFinite w = true) :
    isZero (fmul w 0x00000000#32) = true := by
  have hzero : magUnits (fmag 0x00000000#32) = 0 := by decide
  rw [fmul_of_isFinite h (by decide), hzero, Nat.mul_zero, roundMag_zero, isZero,
    fmag_fpack _ (by decide)]
  rfl

theorem isZero_fadd {a b : Word} (ha : isZero a = true) (hb : isZero b = true) :
    isZero (fadd a b) = true := by
  rcases eq_zero_of_isZero ha with rfl | rfl <;> rcases eq_zero_of_isZero hb with rfl | rfl <;>
    decide +kernel

theorem isZero_mulAdd_posZero {x z : Word} (hx : isFinite x = true) (hz : isFinite z = true) :
    isZero (mulAdd x 0x00000000#32 z 0x00000000#32) = true :=
  isZero_fadd (isZero_fmul_posZero hx) (isZero_fmul_posZero hz)

theorem isZero_mulSub_posZero {x z : Word} (hx : isFinite x = true) (hz : isFinite z = true) :
    isZero (mulSub x 0x00000000#32 z 0x00000000#32) = true :=
  isZero_fadd (isZero_fmul_posZero hx) (by simpa using isZero_fmul_posZero hz)

/-- The rotation and its double-angle pair are finite words. -/
def Rotation.allFinite (r : Rotation) : Bool :=
  isFinite r.c1 && isFinite r.s1 && isFinite r.c2 && isFinite r.s2

/-- The first `count` rotations of the recurrence from `r` on are finite. -/
def rotationsFinite (tri : Nat) : (count : Nat) → (r : Rotation) → Bool
  | 0, _ => true
  | count + 1, r => r.allFinite && rotationsFinite tri count (rotationNext tri r)

/-- The stride and the table pair of every stage (R184). -/
def fhtStageTable : List (Nat × Nat) := [(4, 0), (16, 1), (64, 2), (256, 3)]

/-- Every rotation that a stage uses is finite, by its recurrence from the COSTAB pair. -/
theorem rotationsFinite_rotationSeed :
    ∀ st ∈ fhtStageTable, rotationsFinite st.2 (st.1 / 2 - 1) (rotationSeed st.2) = true := by
  decide +kernel

/-- A buffer of +0 words. -/
def zeroBuffer (N : Nat) : List Word := List.replicate N 0x00000000#32

@[simp] theorem bufAt_zeroBuffer (N j : Nat) : bufAt (zeroBuffer N) j = 0x00000000#32 := by
  simp only [bufAt, zeroBuffer, List.getD_eq_getElem?_getD, List.getElem?_replicate]
  split <;> rfl

@[simp] theorem putQuad_zeroBuffer (N p k1 : Nat) :
    putQuad (zeroBuffer N) p k1 0x00000000#32 0x00000000#32 0x00000000#32 0x00000000#32 =
      zeroBuffer N := by
  simp only [putQuad, zeroBuffer, List.set_replicate_self]

@[simp] theorem fadd_posZero_posZero : fadd 0x00000000#32 0x00000000#32 = 0x00000000#32 :=
  fadd_posZero_of_isZero rfl

@[simp] theorem fsub_posZero_posZero : fsub 0x00000000#32 0x00000000#32 = 0x00000000#32 :=
  fsub_posZero_of_isZero rfl

theorem butterfly0_zeroBuffer (N p k1 : Nat) : butterfly0 (zeroBuffer N) p k1 = zeroBuffer N := by
  simp [butterfly0, combineQuad]

theorem butterflySqrt2_zeroBuffer (N p k1 : Nat) :
    butterflySqrt2 (zeroBuffer N) p k1 = zeroBuffer N := by
  have hmul : fmul sqrt2Word 0x00000000#32 = 0x00000000#32 := by decide +kernel
  simp [butterflySqrt2, combineQuad, hmul]

/-- The signs of the rotated zeros do not matter: each is added to +0 or subtracted from it. -/
theorem butterflyRot_zeroBuffer (N fi gi k1 : Nat) {r : Rotation} (hr : r.allFinite = true) :
    butterflyRot (zeroBuffer N) fi gi k1 r = zeroBuffer N := by
  obtain ⟨⟨⟨hc1, hs1⟩, hc2⟩, hs2⟩ : ((isFinite r.c1 = true ∧ isFinite r.s1 = true) ∧
      isFinite r.c2 = true) ∧ isFinite r.s2 = true := by
    simpa only [Rotation.allFinite, Bool.and_eq_true] using hr
  simp [butterflyRot, rotTemps, rotWrite, fadd_posZero_of_isZero, fsub_posZero_of_isZero,
    isZero_mulSub_posZero, isZero_mulAdd_posZero, hc1, hs1, hc2, hs2]

theorem foldl_zeroBuffer {N : Nat} {step : List Word → Nat → List Word}
    (hstep : ∀ g, step (zeroBuffer N) g = zeroBuffer N) (l : List Nat) :
    l.foldl step (zeroBuffer N) = zeroBuffer N := by
  induction l with
  | nil => rfl
  | cons g l ih => rw [List.foldl_cons, hstep, ih]

theorem rotLoop_zeroBuffer (N k1 tri count i : Nat) {r : Rotation}
    (hr : rotationsFinite tri count r = true) :
    rotLoop N k1 tri count i r (zeroBuffer N) = zeroBuffer N := by
  induction count generalizing i r with
  | zero => rfl
  | succ count ih =>
    obtain ⟨hfin, hnext⟩ : r.allFinite = true ∧
        rotationsFinite tri count (rotationNext tri r) = true := by
      simpa only [rotationsFinite, Bool.and_eq_true] using hr
    have hbutterflies : rotButterflies N k1 i r (zeroBuffer N) = zeroBuffer N :=
      foldl_zeroBuffer (fun g => butterflyRot_zeroBuffer N _ _ k1 hfin) _
    rw [rotLoop, hbutterflies, ih (i + 1) hnext]

theorem fhtStage_zeroBuffer (N : Nat) {k1 tri : Nat} (hst : (k1, tri) ∈ fhtStageTable) :
    fhtStage N k1 tri (zeroBuffer N) = zeroBuffer N := by
  have hfixed : fixedButterflies N k1 (zeroBuffer N) = zeroBuffer N :=
    foldl_zeroBuffer (fun g => by rw [butterfly0_zeroBuffer, butterflySqrt2_zeroBuffer]) _
  rw [fhtStage, hfixed, rotLoop_zeroBuffer N k1 tri _ 1 (rotationsFinite_rotationSeed _ hst)]

/-- Every legal length of +0 words is transformed to itself (R195). -/
theorem fhtBuffer_zeroBuffer {n : Nat} (hn : n ∈ [8, 32, 128, 512]) :
    fhtBuffer (2 * n) (zeroBuffer (2 * n)) = zeroBuffer (2 * n) := by
  have stage0 (N : Nat) : fhtStage N 4 0 (zeroBuffer N) = zeroBuffer N :=
    fhtStage_zeroBuffer N (by decide)
  have stage1 (N : Nat) : fhtStage N 16 1 (zeroBuffer N) = zeroBuffer N :=
    fhtStage_zeroBuffer N (by decide)
  have stage2 (N : Nat) : fhtStage N 64 2 (zeroBuffer N) = zeroBuffer N :=
    fhtStage_zeroBuffer N (by decide)
  have stage3 (N : Nat) : fhtStage N 256 3 (zeroBuffer N) = zeroBuffer N :=
    fhtStage_zeroBuffer N (by decide)
  simp only [List.mem_cons, List.not_mem_nil, or_false] at hn
  rcases hn with rfl | rfl | rfl | rfl <;>
    simp [fhtBuffer, fhtStages, stage0, stage1, stage2, stage3]

/-! ### FHT's completion -/

theorem fhtCause_eq_none_of_legal {n : BitVec 10} {src : WordAddr}
    (hn : n.toNat ∈ [8, 32, 128, 512]) (hsrc : src.toNat + 2 * n.toNat ≤ 2048) :
    fhtCause n src = none :=
  (fhtCause_eq_none n src).mpr ⟨by simpa [legalHalfSize, or_assoc] using hn, hsrc⟩

theorem length_fhtBuffer_readWords (n : BitVec 10) (s : State) :
    (fhtBuffer (fhtLength n) (readWords s.dmem s.lsrc.toNat (fhtLength n))).length =
      2 * n.toNat := by
  rw [length_fhtBuffer, length_readWords, fhtLength]

theorem readWord_fhtOutput {n : BitVec 10} {s : State} (hm : Memory.wf s.dmem) {j : Nat}
    (hj : j < 2 * n.toNat) :
    readWord (fhtOutput n s).dmem (s.lsrc.toNat + j) =
      bufAt (fhtBuffer (2 * n.toNat) (readWords s.dmem s.lsrc.toNat (2 * n.toNat))) j := by
  have hlen := length_fhtBuffer_readWords n s
  rw [fhtOutput_dmem, readWord_writeWords_inside hm.1 _ _ (hlen ▸ hj)]
  exact (List.getD_eq_getElem _ _ (hlen ▸ hj)).symm

theorem readByte_fhtOutput {n : BitVec 10} {s : State} {c : Nat}
    (hc : ¬ (byteOffset s.lsrc.toNat 0 ≤ c ∧ c < byteOffset (s.lsrc.toNat + 2 * n.toNat) 0)) :
    readByte (fhtOutput n s).dmem c = readByte s.dmem c := by
  rw [fhtOutput_dmem]
  refine readByte_writeWords_outside _ _ _ ?_
  rw [length_fhtBuffer_readWords]
  omega

theorem readWords_eq_zeroBuffer {m : Memory} {a N : Nat}
    (h : ∀ j, j < N → readWord m (a + j) = 0x00000000#32) : readWords m a N = zeroBuffer N := by
  refine List.eq_replicate_iff.mpr ⟨length_readWords m a N, fun w hw => ?_⟩
  obtain ⟨j, hj, rfl⟩ := List.mem_iff_getElem.mp hw
  rw [getElem_readWords, h j (by simpa using hj)]

/-! ### The obligations -/

/-- Settles O23: the stage loop runs while the group size is below the length. -/
theorem fhtStageSequence : Obligations.FhtStageSequence := by
  intro F
  unfold fhtBuffer
  simp [fhtStages]

/-- Settles O28: the COSTAB pairs are the spec's words. -/
theorem rotationRecurrence : Obligations.RotationRecurrence := by
  intro tri TC TS htri
  simp only [List.mem_cons, Prod.mk.injEq, List.not_mem_nil, or_false] at htri
  rcases htri with ⟨rfl, rfl, rfl⟩ | ⟨rfl, rfl, rfl⟩ | ⟨rfl, rfl, rfl⟩ | ⟨rfl, rfl, rfl⟩ <;>
    exact ⟨rfl, fun _ => rfl⟩

/-- Settles O24: the sub-index loop is a fold over the sub-indices in ascending order. -/
theorem fhtStageRunsInOrder : Obligations.FhtStageRunsInOrder := by
  intro N k1 tri F hk
  have hk4 : 0 < 4 * k1 := by omega
  exact ⟨fun g => mem_groupBases hk4, groupBases_pairwise_lt N hk4, rotLoop_eq_foldl ..⟩

/-- Settles O29: butterflies of different groups act within disjoint parts of the buffer. -/
theorem groupOrderDoesNotMatter : Obligations.GroupOrderDoesNotMatter := by
  intro N k1 F l hstage _ hl
  have hk : 0 < k1 := (by decide : ∀ st ∈ [(16, 4), (64, 4), (64, 16), (256, 4), (256, 16),
    (256, 64), (1024, 4), (1024, 16), (1024, 64), (1024, 256)], 0 < st.2) _ hstage
  exact ⟨foldl_groupBases_perm hk (fun g => actsWithin_fixedButterflies g hk) hl F,
    fun i r hi hi' =>
      foldl_groupBases_perm hk (fun g => actsWithin_rotButterfly g hi hi' r) hl F⟩

/-- Settles O20: the buffer's words are the transform's, and nothing else is written. -/
theorem fhtCompletes : Obligations.FhtCompletes := by
  intro n s hwf hn hsrc F
  exact ⟨_, execFht_of_none (fhtCause_eq_none_of_legal hn hsrc),
    fun j hj => readWord_fhtOutput hwf hj, fun c hout => readByte_fhtOutput hout, rfl⟩

/-- Settles O30: every butterfly keeps a buffer of +0, as every rotation is finite. -/
theorem fhtOfZeroIsZero : Obligations.FhtOfZeroIsZero := by
  intro n s hwf hn hsrc hzero
  refine ⟨_, execFht_of_none (fhtCause_eq_none_of_legal hn hsrc), fun j hj => ?_⟩
  rw [finishCommand_dmem, readWord_fhtOutput hwf hj, readWords_eq_zeroBuffer hzero,
    fhtBuffer_zeroBuffer hn, bufAt_zeroBuffer]

end Sys2Proof.Machine
end

section
/-! PROOFS. The two fault records: which steps of the machine change them, which operands take a
command fault, and that an accepted command takes none (spec/60_exceptions.md R220 to R236). -/

namespace Sys2Proof.Machine

/-! ### The record of the first refused access (R230) -/

/-- ACCERR and its record ACCINFO (R31, R230). -/
def accFaultRecord (s : State) : Bool × Word := (s.accErr, s.accInfo)

@[simp] theorem accFaultRecord_issueCommand (w : Word) (s : State) :
    accFaultRecord (issueCommand w s) = accFaultRecord s := by
  rcases issueCommand_cases w s with ⟨c, -, he⟩ | ⟨-, he⟩ <;> rw [he] <;> rfl

/-- Of the registers only CTRL (its soft reset) and STATUS reach the record of a refusal. -/
theorem accFaultRecord_writeRegister {offset : Offset} (w : Word) (s : State)
    (hctrl : offset.toNat ≠ 0x008) (hstatus : offset.toNat ≠ 0x00C) :
    accFaultRecord (writeRegister offset w s) = accFaultRecord s := by
  rw [writeRegister, if_neg hctrl, if_neg hstatus]
  split_ifs
  · exact accFaultRecord_issueCommand w s
  all_goals rfl

/-- A write that is not refused, to anything but CTRL and STATUS, keeps the record. -/
theorem accFaultRecord_hostWrite {offset : Offset} {be : BitVec 4} (w : Word) {s : State}
    (hc : accessCause offset be s.busy = none) (hctrl : offset ≠ 0x008#14)
    (hstatus : offset ≠ 0x00C#14) :
    accFaultRecord (hostWrite offset be w s) = accFaultRecord s := by
  rw [hostWrite_of_none hc]
  split
  · rfl
  · exact accFaultRecord_writeRegister w s (fun h => hctrl (BitVec.eq_of_toNat_eq h))
      (fun h => hstatus (BitVec.eq_of_toNat_eq h))

/-- A read that is not refused keeps the record. -/
theorem accFaultRecord_hostRead {offset : Offset} {be : BitVec 4} {s : State}
    (hc : accessCause offset be s.busy = none) :
    accFaultRecord (hostRead offset be s) = accFaultRecord s := by
  rw [hostRead_of_none hc]
  rfl

/-! ### The record of the first rejected command (R224) -/

/-- ERR and its record, ERRCODE and ERRCMD (R222). -/
def cmdFaultRecord (s : State) : Bool × BitVec 4 × Word := (s.err, s.errCode, s.errCmd)

theorem cmdFaultRecord_cmdFault (c : CmdCause) (w : Word) {s : State} (he : s.err = true) :
    cmdFaultRecord (cmdFault c w s) = cmdFaultRecord s := by
  simp [cmdFaultRecord, he]

theorem cmdFaultRecord_statusW1C {w : Word} (hw : w.getLsbD 2 = false) (s : State) :
    cmdFaultRecord (statusW1C w s) = cmdFaultRecord s := by
  simp only [cmdFaultRecord, statusW1C_err, statusW1C_errCode, statusW1C_errCmd, hw, Bool.not_false,
    Bool.and_true, Bool.false_eq_true, if_false]

/-- With ERR = 1 a CMD write keeps the record, rejected or accepted. -/
theorem cmdFaultRecord_issueCommand (w : Word) {s : State} (he : s.err = true) :
    cmdFaultRecord (issueCommand w s) = cmdFaultRecord s := by
  rcases issueCommand_cases w s with ⟨c, -, hi⟩ | ⟨-, hi⟩ <;> rw [hi]
  · exact cmdFaultRecord_cmdFault c w he
  · rfl

/-- With ERR = 1 the register writes that change the record are a soft reset and a clear of ERR. -/
theorem cmdFaultRecord_writeRegister {offset : Offset} {w : Word} {s : State} (he : s.err = true)
    (hrst : offset.toNat = 0x008 → w.getLsbD 1 = false)
    (hclear : offset.toNat = 0x00C → w.getLsbD 2 = false) :
    cmdFaultRecord (writeRegister offset w s) = cmdFaultRecord s := by
  unfold writeRegister
  split_ifs with hctrl hstatus
  · rw [ctrlWrite_of_no_srst (hrst hctrl)]
    rfl
  · exact cmdFaultRecord_statusW1C (hclear hstatus) s
  · exact cmdFaultRecord_issueCommand w he
  all_goals rfl

theorem cmdFaultRecord_hostRead (offset : Offset) (be : BitVec 4) (s : State) :
    cmdFaultRecord (hostRead offset be s) = cmdFaultRecord s := by
  cases hc : accessCause offset be s.busy with
  | none => rw [hostRead_of_none hc]; rfl
  | some c => rw [hostRead_of_some hc]; rfl

/-- With ERR = 1 the host changes the record by a soft reset or a clear of ERR only. -/
theorem cmdFaultRecord_hostAccess {a : Access} {s : State} (he : s.err = true)
    (hrst : isSoftReset a = false)
    (hclear : ∀ w, a = .write 0x00C#14 0b1111#4 w → w.getLsbD 2 = false) :
    cmdFaultRecord (hostAccess a s) = cmdFaultRecord s := by
  cases a with
  | read offset be => exact cmdFaultRecord_hostRead offset be s
  | write offset be w =>
    rw [hostAccess]
    cases hc : accessCause offset be s.busy with
    | some c => rw [hostWrite_of_some hc]; rfl
    | none =>
      obtain rfl := be_of_accessCause_eq_none hc
      rw [hostWrite_of_none hc]
      split
      · rfl
      · refine cmdFaultRecord_writeRegister he (fun h8 => ?_) (fun hC => ?_)
        · obtain rfl : offset = 0x008#14 := BitVec.eq_of_toNat_eq h8
          simpa [isSoftReset] using hrst
        · obtain rfl : offset = 0x00C#14 := BitVec.eq_of_toNat_eq hC
          exact hclear w rfl

/-- The engine's turn keeps both fault records (R226). -/
theorem faultRecords_engineTurn {s t : State} (h : s.Inv) (ht : engineTurn s = .next t) :
    cmdFaultRecord t = cmdFaultRecord s ∧ accFaultRecord t = accFaultRecord s := by
  have hframe := engineTurn_frame h ht
  exact ⟨(congrArg cmdFaultRecord hframe).trans rfl, (congrArg accFaultRecord hframe).trans rfl⟩

/-! ### The operands that acceptance admits (R225) -/

/-- Two ranges of `m + 1` words share no word exactly when one ends below the other's start. -/
theorem ranges_disjoint_iff (a b m : Nat) :
    (∀ i j, i ≤ m → j ≤ m → a + i ≠ b + j) ↔ b + m < a ∨ a + m < b := by
  constructor
  · intro h
    by_contra hc
    obtain ⟨hba, hab⟩ := not_or.mp hc
    exact h (b - a) (a - b) (by omega) (by omega) (by omega)
  · intros
    omega

theorem legalHalfSize_iff (n : BitVec 10) :
    legalHalfSize n = true ↔ n.toNat ∈ [8, 32, 128, 512] := by
  simp [legalHalfSize, or_assoc]

/-- An illegal half-size is E_ARG, wherever the buffer lies (R97). -/
theorem fhtCause_of_illegal {n : BitVec 10} (h : n.toNat ∉ [8, 32, 128, 512]) (src : WordAddr) :
    fhtCause n src = some .eArg := by
  rw [← legalHalfSize_iff, Bool.not_eq_true] at h
  rw [fhtCause, if_pos h]

/-! ### The obligations -/

/-- Settles O7: a refusal's code is its cause's, and no access but a CTRL or a STATUS write
reaches the record without being refused. -/
theorem refusedAccessIsRecordedFirst : Obligations.RefusedAccessIsRecordedFirst := by
  refine ⟨fun offset be w s cause hcause hne => ?refused,
    fun offset w s halign hfree hctrl hstatus => ?kept, fun w s hw => ?cleared⟩
  case refused =>
    have hrefused : offset.toNat % 4 ≠ 0 ∨ be ≠ 0b1111#4 ∨
        (0x2000 ≤ offset.toNat ∧ s.busy = true) := by
      by_contra hnone
      simp only [not_or] at hnone
      obtain ⟨halign, hbe, hfree⟩ := hnone
      rw [if_neg halign, if_neg hbe, if_neg hfree] at hcause
      exact hne hcause
    obtain ⟨c, hc, hcode⟩ := accessCause_of_refused hrefused
    have hcause : (accCode c).toNat = cause := by
      rw [hcode, hcause]
      split_ifs with halign hbe hbusy
      · rfl
      · rfl
      · rfl
      · exact absurd ((hrefused.resolve_left halign).resolve_left hbe) hbusy
    rw [hostAccess, hostAccess, hostWrite_of_some hc, hostRead_of_some hc, respond, accFault,
      accFault, accInfoWord_eq_ofNat, accInfoWord_eq_ofNat, hcause]
    exact ⟨rfl, rfl⟩
  case kept =>
    have hc := accessCause_eq_none halign hfree
    obtain ⟨hwErr, hwInfo⟩ := Prod.mk.inj (accFaultRecord_hostWrite w hc hctrl hstatus)
    obtain ⟨hrErr, hrInfo⟩ := Prod.mk.inj (accFaultRecord_hostRead hc)
    exact ⟨hwErr, hwInfo, hrErr, hrInfo⟩
  case cleared =>
    rw [hostAccess_write_status]
    simp [hw]

/-- Settles O15: the encoded command decodes to itself, so its operand checks decide. -/
theorem acceptedCommandsCharacterized : Obligations.AcceptedCommandsCharacterized := by
  intro src dst
  refine ⟨checkCommand_of_ok (decodeWord_encode .nop) src dst, fun m => ?_, fun n => ?_⟩
  · rw [checkCommand_of_ok (decodeWord_encode (.powlaw m)), operandCause, powlawCause_eq_none,
      ranges_disjoint_iff, Nat.lt_succ_iff, Nat.lt_succ_iff]
  · rw [checkCommand_of_ok (decodeWord_encode (.fht n)), operandCause, fhtCause_eq_none,
      legalHalfSize_iff]
    rfl

/-- Settles O16: of the steps that are no reset, only a STATUS write of bit 2 reaches a full
record. -/
theorem firstRejectedCommandIsKept : Obligations.FirstRejectedCommandIsKept := by
  refine ⟨fun s t h he ht hhard hhost => ?kept, fun w s hw => ?cleared, fun w s he hc => ?accepted⟩
  case kept =>
    have hkeep : cmdFaultRecord t = cmdFaultRecord s := by
      rcases step_cases ht with
        ⟨a, rest, ha, rfl⟩ | ⟨rest, ha, -⟩ | ⟨rest, -, hx⟩ | ⟨-, hx⟩
      · obtain ⟨hrst, hclear⟩ := hhost a rest ha
        exact cmdFaultRecord_hostAccess (s := setAgenda rest s) he hrst hclear
      · exact absurd ha (hhard rest)
      · exact (faultRecords_engineTurn (inv_setAgenda h rest) hx).1
      · exact (faultRecords_engineTurn h hx).1
    simp only [cmdFaultRecord, Prod.mk.injEq, he] at hkeep
    exact hkeep
  case cleared =>
    rw [hostAccess_write_status]
    simp [hw]
  case accepted =>
    rw [hostAccess_write_cmd, issueCommand_of_none hc]
    exact ⟨rfl, he, rfl, rfl⟩

/-- Settles O51: the invariant says that the command in flight has admitted operands, and its
completion writes neither record. -/
theorem acceptedCommandAlwaysCompletes : Obligations.AcceptedCommandAlwaysCompletes := by
  intro s h hb
  obtain ⟨i, hi, hop⟩ := decode_of_inv_busy h hb
  obtain ⟨u, hu⟩ := exec_of_admitted hop
  have ht := (engineTurn_of_decode hb hi).trans hu
  obtain ⟨hcmd, hacc⟩ := faultRecords_engineTurn h ht
  simp only [cmdFaultRecord, accFaultRecord, Prod.mk.injEq] at hcmd hacc
  obtain ⟨herr, hcode, herrCmd⟩ := hcmd
  exact ⟨finishCommand u, ht, rfl, rfl, herr, hcode, herrCmd, hacc⟩

/-- Settles O21: the completion step makes the checks of R97 on what it latched. -/
theorem inadmissibleLatchedOperandsTakeCmdFault :
    Obligations.InadmissibleLatchedOperandsTakeCmdFault := by
  refine ⟨fun m s c hc => execPowlaw_of_some hc, fun n s c hc => execFht_of_some hc,
    fun n s hn he => ?_⟩
  refine ⟨_, execFht_of_some (fhtCause_of_illegal hn s.lsrc), ?_⟩
  rw [cmdFault_errCode, he]
  rfl

end Sys2Proof.Machine
end

section
/-! PROOFS. Both resets and what a command in flight leaves behind, and runs that never halt
(spec/70_reset_and_hazards.md R260 to R275). -/

namespace Sys2Proof.Machine

/-! ### Fresh draws in DMEM (log entries 3, 4) -/

theorem getElem_drawWords (f : Nat → Word) (k n i : Nat) (h : i < (drawWords f k n).length) :
    (drawWords f k n)[i] = f (k + i) := by
  simp [drawWords]

/-- Word `i` of a range that takes fresh draws holds draw `k + i`. -/
theorem readWord_writeWords_drawWords {m : Memory} (hm : Memory.wf m) (f : Nat → Word)
    (k a : Nat) {n i : Nat} (hi : i < n) :
    readWord (writeWords m a (drawWords f k n)) (a + i) = f (k + i) := by
  have hlen : i < (drawWords f k n).length := by rwa [length_drawWords]
  rw [readWord_writeWords_inside hm.1 a _ hlen, getElem_drawWords]

/-! ### The reset input (R261) -/

theorem hardReset_eq (s : State) :
    hardReset s =
      { State.reset with
        dmem := (hardReset s).dmem
        draws := (hardReset s).draws
        rdata := s.rdata
        agenda := s.agenda } := by
  rw [hardReset, resetRegisters_eq]

theorem irq_hardReset (s : State) : irq (hardReset s) = false := by
  rw [irq, hardReset_irqEn, Bool.false_and]

theorem readWord_hardReset (s : State) {a : Nat} (ha : a < Config.dmemWords) :
    readWord (hardReset s).dmem a = Config.dmemInit (s.draws + a) := by
  rw [hardReset_dmem, ← Nat.zero_add a, readWord_writeWords_drawWords memory_nil_wf _ _ _ ha,
    Nat.zero_add]

/-! ### A soft reset with a command in flight (R263) -/

theorem softReset_of_busy {s : State} (hb : s.busy = true) :
    softReset s = resetRegisters (abortCommand s) := by
  rw [softReset, if_pos hb]

theorem inFlightFootprint_of_decode {s : State} {i : Instr} (hi : decodeWord s.lcmd = .ok i) :
    inFlightFootprint s = footprint i s.lsrc s.ldst := by
  rw [inFlightFootprint, hi]

/-- A footprint inside DMEM takes a fresh draw for each of its words: none is cut off. -/
theorem abortCommand_dmem_of_le {s : State} {start count : Nat}
    (hf : inFlightFootprint s = (start, count)) (hle : start + count ≤ Config.dmemWords) :
    (abortCommand s).dmem =
      writeWords s.dmem start (drawWords Config.abortWord s.draws count) := by
  have hfit : (drawWords Config.abortWord s.draws count).length ≤ Config.dmemWords - start := by
    rw [length_drawWords]
    omega
  rw [abortCommand_dmem, hf, List.take_of_length_le hfit]

/-! ### Progress (R275) -/

theorem exists_step_of_inv {s : State} (h : s.Inv) : ∃ t, step s = .next t := by
  cases ha : s.agenda with
  | nil =>
    obtain ⟨t, ht, -⟩ := engineTurn_of_inv h
    exact ⟨t, (step_empty ha).trans ht⟩
  | cons m rest =>
    obtain ⟨t, ht, -⟩ := step_of_agenda_cons h ha
    exact ⟨t, ht⟩

theorem exists_run_of_inv {s : State} (k : Nat) (h : s.Inv) :
    ∃ t, Host.Core.run Sys2Proof.core k s = .next t ∧ State.Inv t := by
  induction k generalizing s with
  | zero => exact ⟨s, rfl, h⟩
  | succ k ih =>
    obtain ⟨u, hu⟩ := exists_step_of_inv h
    obtain ⟨t, ht, hinv⟩ := ih (inv_step h hu)
    exact ⟨t, (run_succ k hu).trans ht, hinv⟩

/-! ### The obligations -/

/-- Settles O50: every step from a state of the invariant answers a next state that meets it, so
induction on the length carries a run on. -/
theorem machineNeverHalts : Obligations.MachineNeverHalts :=
  ⟨fun _ h => exists_step_of_inv h, fun _ k h => exists_run_of_inv k h⟩

/-- Settles O45: DMEM is written anew from word 0 on, one draw for each word. -/
theorem hardResetValues : Obligations.HardResetValues := by
  intro s rest ha
  exact ⟨hardReset (setAgenda rest s), step_hardReset ha, hardReset_eq _, irq_hardReset _,
    hardReset_wf _, hardReset_draws _, fun a hlt => readWord_hardReset (setAgenda rest s) hlt⟩

/-- Settles O47: the invariant puts the footprint inside DMEM, so the abort writes all of it and
nothing else. -/
theorem abortChangesOnlyTheFootprint : Obligations.AbortChangesOnlyTheFootprint := by
  intro s w i start count h hb hw hi hrange
  have hfoot : footprint i s.lsrc s.ldst = (start, count) := by
    cases i <;> exact hrange.symm
  have hflight : inFlightFootprint s = (start, count) :=
    (inFlightFootprint_of_decode hi).trans hfoot
  obtain ⟨j, hj, hop⟩ := decode_of_inv_busy h hb
  obtain rfl : j = i := Except.ok.inj (hj.symm.trans hi)
  have hle : start + count ≤ Config.dmemWords := by simpa only [hfoot] using footprint_le hop
  have hdmem := abortCommand_dmem_of_le hflight hle
  rw [hostAccess_write_ctrl, ctrlWrite_of_srst hw, softReset_of_busy hb]
  refine ⟨rfl, rfl, abortCommand_wf_of_inv h hb, ?draws,
    fun c hout => ?outside, fun k hk => ?inside⟩
  case draws => rw [resetRegisters_draws, abortCommand_draws, hflight]
  case outside =>
    rw [resetRegisters_dmem, hdmem]
    apply readByte_writeWords_outside
    rw [length_drawWords]
    omega
  case inside =>
    rw [resetRegisters_dmem, hdmem, readWord_writeWords_drawWords h.memory _ _ _ hk]

/-- Settles O46: the reset state, field by field. -/
theorem resetStateRegisters : Obligations.ResetStateRegisters := by
  unfold Obligations.ResetStateRegisters
  decide

/-- Settles O48: every register is at its reset value, over a DMEM that lists no byte. -/
theorem resetMeetsInvariant : Obligations.ResetMeetsInvariant :=
  inv_resetRegisters (s := State.reset) memory_nil_wf

/-- Settles O54: the STATUS write leaves a state of the invariant with the command still in
flight, and its completion sets DONE. -/
theorem completionSetBeatsHostClear : Obligations.CompletionSetBeatsHostClear := by
  intro s w h hb
  rw [hostAccess_write_status]
  obtain ⟨t, ht, -, hdone, -⟩ :=
    acceptedCommandAlwaysCompletes (statusW1C w s) (inv_statusW1C h w) hb
  exact ⟨t, ht, hdone⟩

end Sys2Proof.Machine
end

section
/-! PROOFS. The words that each butterfly of FHT writes and its frame (spec/42_fht.md R185 to R189),
and the special cases of signed zeros and infinities (spec/00_scope.md R11). -/

namespace Sys2Proof.Machine

/-! ### Butterflies -/

/-- The four words of a butterfly with stride `k1` at `p` (R184). -/
def quadOffsets (p k1 : Nat) : List Nat := [p, p + k1, p + 2 * k1, p + 3 * k1]

theorem mem_quadOffsets {p k1 j : Nat} :
    j ∈ quadOffsets p k1 ↔ j = p ∨ j = p + k1 ∨ j = p + 2 * k1 ∨ j = p + 3 * k1 := by
  simp [quadOffsets]

theorem bufAt_putQuad_of_notMem {F : List Word} {p k1 j : Nat} {w0 w1 w2 w3 : Word}
    (hj : j ∉ quadOffsets p k1) : bufAt (putQuad F p k1 w0 w1 w2 w3) j = bufAt F j := by
  simp only [mem_quadOffsets, not_or] at hj
  obtain ⟨h0, h1, h2, h3⟩ := hj
  exact bufAt_putQuad_other F p k1 w0 w1 w2 w3 h0 h1 h2 h3

/-- The words that `combineQuad` writes, and its frame. -/
theorem bufAt_combineQuad (F : List Word) {p k1 : Nat} (f0 f1 f2 f3 : Word) (hk : 0 < k1)
    (hp : p + 3 * k1 < F.length) :
    let G := combineQuad F p k1 f0 f1 f2 f3
    bufAt G p = fadd f0 f2 ∧ bufAt G (p + 2 * k1) = fsub f0 f2 ∧
    bufAt G (p + k1) = fadd f1 f3 ∧ bufAt G (p + 3 * k1) = fsub f1 f3 ∧
    (∀ j, j ∉ quadOffsets p k1 → bufAt G j = bufAt F j) := by
  obtain ⟨h0, h1, h2, h3⟩ :=
    bufAt_putQuad_same F p k1 (fadd f0 f2) (fadd f1 f3) (fsub f0 f2) (fsub f1 f3) hk hp
  exact ⟨h0, h2, h1, h3, fun _ => bufAt_putQuad_of_notMem⟩

/-- Distinct offsets less than a stride apart start quads that share no word. -/
theorem quadOffsets_disjoint {p q k1 : Nat} (hne : p ≠ q) (hpq : p < q + k1) (hqp : q < p + k1) :
    (quadOffsets p k1).Disjoint (quadOffsets q k1) := by
  intro j hp hq
  rw [mem_quadOffsets] at hp hq
  omega

/-- Settles O25: `Butterfly0` ends in the sums and differences of its four temporaries. -/
theorem butterfly0WritesFourWords : Obligations.Butterfly0WritesFourWords :=
  fun F _ _ hk hp => bufAt_combineQuad F _ _ _ _ hk hp

/-- Settles O26: `ButterflySqrt2` ends in the sums and differences of its four temporaries. -/
theorem butterflySqrt2WritesFourWords : Obligations.ButterflySqrt2WritesFourWords :=
  fun F _ _ hk hp => bufAt_combineQuad F _ _ _ _ hk hp

/-- Two disjoint quads put into the buffer one after the other: the words of each, and the frame. -/
theorem bufAt_putQuad_putQuad (F : List Word) {p q k1 : Nat} (v0 v1 v2 v3 w0 w1 w2 w3 : Word)
    (hdisj : (quadOffsets p k1).Disjoint (quadOffsets q k1)) (hk : 0 < k1)
    (hp : p + 3 * k1 < F.length) (hq : q + 3 * k1 < F.length) :
    let G := putQuad (putQuad F p k1 v0 v1 v2 v3) q k1 w0 w1 w2 w3
    (bufAt G p = v0 ∧ bufAt G (p + k1) = v1 ∧ bufAt G (p + 2 * k1) = v2 ∧
      bufAt G (p + 3 * k1) = v3) ∧
    (bufAt G q = w0 ∧ bufAt G (q + k1) = w1 ∧ bufAt G (q + 2 * k1) = w2 ∧
      bufAt G (q + 3 * k1) = w3) ∧
    (∀ j, j ∉ quadOffsets p k1 ++ quadOffsets q k1 → bufAt G j = bufAt F j) := by
  intro G
  have hkept {j : Nat} (hj : j ∈ quadOffsets p k1) :
      bufAt G j = bufAt (putQuad F p k1 v0 v1 v2 v3) j := bufAt_putQuad_of_notMem (hdisj hj)
  obtain ⟨h0, h1, h2, h3⟩ := bufAt_putQuad_same F p k1 v0 v1 v2 v3 hk hp
  refine ⟨⟨?_, ?_, ?_, ?_⟩, bufAt_putQuad_same _ q k1 w0 w1 w2 w3 hk (by simpa using hq), ?_⟩
  · rw [hkept (by simp [mem_quadOffsets]), h0]
  · rw [hkept (by simp [mem_quadOffsets]), h1]
  · rw [hkept (by simp [mem_quadOffsets]), h2]
  · rw [hkept (by simp [mem_quadOffsets]), h3]
  · intro j hj
    obtain ⟨hjp, hjq⟩ := not_or.mp (mt List.mem_append.mpr hj)
    exact (bufAt_putQuad_of_notMem hjq).trans (bufAt_putQuad_of_notMem hjp)

/-- Settles O27: all reads are of the buffer before the first write, and the two quads that are
written share no word. -/
theorem butterflyRotWritesEightWords : Obligations.ButterflyRotWritesEightWords := by
  intro F g fi gi k1 c1 s1 hgf hfk hgg hgk hne hlen
  obtain ⟨⟨hf0, hf1, hf2, hf3⟩, ⟨hg0, hg1, hg2, hg3⟩, hframe⟩ :=
    bufAt_putQuad_putQuad F _ _ _ _ _ _ _ _
      (quadOffsets_disjoint (p := fi) (q := gi) (k1 := k1) hne (by omega) (by omega))
      (by omega) (by omega) (by omega)
  exact ⟨hf2, hf0, hg3, hg1, hg2, hg0, hf3, hf1, hframe⟩

/-! ### Signed zeros and infinities -/

/-- The sum of a finite word and its negation is an exact zero of unlike signs (R11). -/
theorem fadd_fnegate_self {a : Word} (h : isFinite a = true) :
    fadd a (fnegate a) = 0x00000000#32 := by
  have hsum : fval a + fval (fnegate a) = 0 := by rw [fval_fnegate, Int.add_right_neg]
  rw [fadd_of_isFinite h (by rwa [isFinite_fnegate]), faddFinite, if_pos hsum, fneg_fnegate,
    Bool.and_not_self]
  rfl

theorem fadd_of_isInf_of_isFinite {a b : Word} (ha : isInf a = true) (hb : isFinite b = true) :
    fadd a b = a := by
  rw [fadd_of_isInf_left ha (isNan_of_isFinite hb), isInf_of_isFinite hb]
  rfl

/-- The sign of a product that is no NaN is the XOR of the signs (R11). -/
theorem fneg_fmul_of_not_isNan {a b : Word} (h : isNan (fmul a b) = false) :
    fneg (fmul a b) = (fneg a != fneg b) := by
  rcases isNan_either_or_neither a b with hn | ⟨ha, hb⟩
  · simp [fmul_of_isNan hn, isNan_qnan] at h
  by_cases hi : isInf a = true ∨ isInf b = true
  · rw [fmul_of_isInf ha hb hi] at h ⊢
    split
    · next hz => simp [hz, isNan_qnan] at h
    · exact fneg_fpack _ infMag_lt
  · obtain ⟨hia, hib⟩ := not_or.mp hi
    rw [fmul_of_isFinite ((isFinite_or_isInf ha).resolve_right hia)
      ((isFinite_or_isInf hb).resolve_right hib), fneg_fpack _ (roundMag_lt _ _)]

/-- Settles O41: each listed case is an equation for a class of operands of its operation. -/
theorem specialCasesOfSignedZeroAndInfinity :
    Obligations.SpecialCasesOfSignedZeroAndInfinity := by
  refine ⟨fun _ ha => ⟨fadd_fnegate_self ha, fadd_fnegate_self ha⟩,
    fadd_posZero_of_isZero (by decide), ?negZeroSum,
    fun _ _ ha hb => ⟨fadd_of_isInf_of_isFinite ha hb, fadd_of_isInf_right hb ha⟩,
    ?infSum, ?infDifference, ?zeroTimesInf, fun _ _ => fneg_fmul_of_not_isNan,
    fsqrt_of_isZero (by decide), fsqrt_of_isZero (by decide),
    fsqrt_of_isInf (by decide) (by decide), fun _ _ => fsqrt_of_fneg⟩
  case negZeroSum => exact fadd_of_isFinite (by decide) (by decide)
  case infSum => exact fadd_of_isInf_left (by decide) (by decide)
  case infDifference => exact fadd_of_isInf_left (by decide) (by decide)
  case zeroTimesInf => exact fmul_of_isInf (by decide) (by decide) (.inr (by decide))

end Sys2Proof.Machine
end
